-- ==== Sys2Proof/Word.lean ====
section
/-! DEFINITION. The value types of the block: words, symbols, weights, offsets and bit strings
(00_scope.md R6, R9, R10, R14, R16). -/

namespace Sys2Proof

/-- A register word; every access moves one (R14, `DATA_W = 32`). A FREQ count has this width too (R9). -/
abbrev Word := BitVec 32

/-- One byte of the input alphabet; all 256 values are legal symbols (R6). -/
abbrev Symbol := BitVec 8

/-- A node weight, unsigned, 40 bits (R10). -/
abbrev Weight := BitVec 40

/-- A byte offset in the register space (R14, `ADDR_W = 16`). -/
abbrev Offset := BitVec 16

/-- A bit string in time order, element 0 first (R16). -/
abbrev Bits := List Bool

end Sys2Proof
end

