-- ==== Sys2Proof/Syntax.lean ====
section
/-! DEFINITION. The ten commands of the opcode map (30_encoding.md R85), one constructor per row. -/

namespace Sys2Proof

/-- A command with its operand (R80 to R84): formats N (no operand), S (a symbol) and B (a bit). -/
inductive Instr where
  /-- R100 -/
  | nop
  /-- R101 -/
  | clearAll
  /-- R102 -/
  | clearErr
  /-- R110 -/
  | treeSeed
  /-- R115 -/
  | treeMerge
  /-- R116 -/
  | treeBuild
  /-- R130 -/
  | codegen
  /-- R140, SYM = w[15:8] -/
  | encSym (sym : Symbol)
  /-- R151, BIT = w[8] -/
  | decBit (bit : Bool)
  /-- R152 -/
  | decEnd
  deriving DecidableEq, Repr

end Sys2Proof
end

