-- ==== Sys2Proof/WellFormed.lean ====
section
/-! DEFINITION. What a well-formed command, command word and host access are (R50, R81 to R84, R87). -/

namespace Sys2Proof.WellFormed

/-- The operand of a command is in the range its field can hold (R82, R83: all 256 symbols and both bits are
legal, taken as they are). The operand types hold nothing else, so every command is well formed. -/
def instr : Instr → Bool
  | .encSym sym => sym.toNat ≤ 0xFF
  | .decBit bit => bit.toNat ≤ 1
  | .nop | .clearAll | .clearErr | .treeSeed | .treeMerge | .treeBuild | .codegen | .decEnd => true

/-- The three command formats (R80). -/
inductive Format where
  | n
  | s
  | b
  deriving DecidableEq, Repr

/-- The format of a mapped opcode (R85), `none` for an opcode outside the map (R87 (a)). -/
def formatOf (op : BitVec 8) : Option Format :=
  if op ∈ [0x00#8, 0x01#8, 0x02#8, 0x10#8, 0x11#8, 0x12#8, 0x20#8, 0x41#8] then some .n
  else if op = 0x30#8 then some .s
  else if op = 0x40#8 then some .b
  else none

/-- The lowest reserved bit of a format: every bit from it up must be 0 (R81, R82, R83). -/
def firstReservedBit : Format → Nat
  | .n => 8
  | .s => 16
  | .b => 9

/-- A legal command word: a mapped opcode and no reserved bit set (R87). -/
def commandWord (w : Word) : Bool :=
  match formatOf (w.setWidth 8) with
  | some f => w.toNat < 2 ^ firstReservedBit f
  | none => false

/-- A host access inside the interface contract: 32 bits wide, at a multiple of 4 (R50). -/
def access (widthBits : Nat) (off : Offset) : Bool :=
  widthBits == 32 && off.toNat % 4 == 0

end Sys2Proof.WellFormed
end

