-- ==== Sys2Proof/Decode.lean ====
section
/-! DEFINITION. Decoding and encoding of command words (30_encoding.md R80 to R88), the opcode map of R85 as a
table beside them, and the bus byte order of R51. -/

namespace Sys2Proof

/-- Why a command word is illegal (R87): case (a), an opcode outside the map, or case (b), a mapped opcode with a
reserved bit set. -/
inductive DecodeError where
  | unmappedOpcode
  | reservedBitSet
  deriving DecidableEq, Repr

/-- OP = w[7:0] (R80). -/
def opField (w : Word) : BitVec 8 := w.extractLsb' 0 8

/-- SYM = w[15:8], taken as it is (R82, R84). -/
def symField (w : Word) : Symbol := w.extractLsb' 8 8

/-- BIT = w[8] (R83, R84). -/
def bitField (w : Word) : Bool := w.getLsbD 8

/-- Format N: bits [31:8] are reserved (R81). -/
def formN (w : Word) (i : Instr) : Except DecodeError Instr :=
  if w.extractLsb' 8 24 = 0#24 then .ok i else .error .reservedBitSet

/-- Format S: bits [31:16] are reserved (R82). -/
def formS (w : Word) (i : Symbol → Instr) : Except DecodeError Instr :=
  if w.extractLsb' 16 16 = 0#16 then .ok (i (symField w)) else .error .reservedBitSet

/-- Format B: bits [31:9] are reserved (R83). -/
def formB (w : Word) (i : Bool → Instr) : Except DecodeError Instr :=
  if w.extractLsb' 9 23 = 0#23 then .ok (i (bitField w)) else .error .reservedBitSet

/-- The command a word selects, or why it is illegal (R85, R87). -/
def decode (w : Word) : Except DecodeError Instr :=
  match (opField w).toNat with
  | 0x00 => formN w .nop
  | 0x01 => formN w .clearAll
  | 0x02 => formN w .clearErr
  | 0x10 => formN w .treeSeed
  | 0x11 => formN w .treeMerge
  | 0x12 => formN w .treeBuild
  | 0x20 => formN w .codegen
  | 0x30 => formS w .encSym
  | 0x40 => formB w .decBit
  | 0x41 => formN w .decEnd
  | _ => .error .unmappedOpcode

/-- The word of a command (R81 to R85). -/
def encode : Instr → Word
  | .nop => 0x00000000
  | .clearAll => 0x00000001
  | .clearErr => 0x00000002
  | .treeSeed => 0x00000010
  | .treeMerge => 0x00000011
  | .treeBuild => 0x00000012
  | .codegen => 0x00000020
  | .encSym sym => 0x00000030 ||| (sym.setWidth 32 <<< 8)
  | .decBit bit => 0x00000040 ||| ((BitVec.ofBool bit).setWidth 32 <<< 8)
  | .decEnd => 0x00000041

/-- The name the opcode map gives a command (R85). -/
def mnemonicOf : Instr → String
  | .nop => "NOP"
  | .clearAll => "CLEAR_ALL"
  | .clearErr => "CLEAR_ERR"
  | .treeSeed => "TREE_SEED"
  | .treeMerge => "TREE_MERGE"
  | .treeBuild => "TREE_BUILD"
  | .codegen => "CODEGEN"
  | .encSym _ => "ENC_SYM"
  | .decBit _ => "DEC_BIT"
  | .decEnd => "DEC_END"

/-- A row of the opcode map (R85): a word `w` selects it exactly when `w &&& mask = pattern`. -/
structure OpcodeRow where
  mnemonic : String
  pattern : Word
  mask : Word
  deriving DecidableEq, Repr

/-- The opcode map, row by row as R85 prints it. -/
def opcodeMap : List OpcodeRow :=
  [ ⟨"NOP", 0x00000000, 0xFFFFFFFF⟩,
    ⟨"CLEAR_ALL", 0x00000001, 0xFFFFFFFF⟩,
    ⟨"CLEAR_ERR", 0x00000002, 0xFFFFFFFF⟩,
    ⟨"TREE_SEED", 0x00000010, 0xFFFFFFFF⟩,
    ⟨"TREE_MERGE", 0x00000011, 0xFFFFFFFF⟩,
    ⟨"TREE_BUILD", 0x00000012, 0xFFFFFFFF⟩,
    ⟨"CODEGEN", 0x00000020, 0xFFFFFFFF⟩,
    ⟨"ENC_SYM", 0x00000030, 0xFFFF00FF⟩,
    ⟨"DEC_BIT", 0x00000040, 0xFFFFFEFF⟩,
    ⟨"DEC_END", 0x00000041, 0xFFFFFFFF⟩ ]

/-- A word selects a row of the opcode map (R85). -/
def OpcodeRow.selects (r : OpcodeRow) (w : Word) : Bool := w &&& r.mask == r.pattern

/-- The four bytes of a word on a byte-wide bus, the byte at offset+0 first (R51, little-endian). -/
def busBytes (w : Word) : List (BitVec 8) :=
  [w.extractLsb' 0 8, w.extractLsb' 8 8, w.extractLsb' 16 8, w.extractLsb' 24 8]

/-- The word that four bus bytes carry (R51); any other number of bytes is no access (R50). -/
def wordOfBusBytes : List (BitVec 8) → Option Word
  | [b0, b1, b2, b3] => some (b3 ++ b2 ++ b1 ++ b0)
  | _ => none

/-- What the decoder reads from an instruction whose bits are `w`, of which the lowest `nbits` are given and the rest
are 0; every command is one 32-bit word (R80, R88). -/
def decodeTableWord (nbits w : Nat) : Option Instr :=
  match decode (BitVec.ofNat 32 (w % 2 ^ nbits)) with
  | .ok i => some i
  | .error _ => none

end Sys2Proof
end

