-- ==== Sys2Proof/Config.lean ====
section
/-! DEFINITION. The implementation parameters of 00_scope.md section 4 and the values the spec leaves open.
An `opaque` constant here has no body: nothing can be proved about its values, so a theorem of the model
holds whatever they are. -/

namespace Sys2Proof.Config

/-- `NSYM_MAX`, the largest number of distinct symbols (R7). -/
def nsymMax : Nat := 256

/-- `NODE_MAX`, the size of the node arena (R7). -/
def nodeMax : Nat := 2 * nsymMax - 1

/-- `MAXLEN_MAX`, the longest code the block has storage for (R8). -/
def maxLenMax : Nat := 255

/-- `FREQ_W` (R9). -/
def freqW : Nat := 32

/-- `ENC_FIFO_BITS`, the capacity in bits of the encoder output FIFO (R11). -/
def encFifoBits : Nat := 512

/-- `DEC_FIFO_DEPTH`, the capacity in symbols of the decoder output FIFO (R12). -/
def decFifoDepth : Nat := 16

/-- The constant the ID register reads, the ASCII bytes "HUFF" (R40). -/
def idWord : Word := 0x48554646

/-- `TIE_SELECT`, left OPEN by R13: what the block picks at extraction number `n` among the candidates `c`
is the member at place `tieChoice n c` modulo their number. Free value; log entry 2. -/
opaque tieChoice (n : Nat) (c : List Nat) : Nat

/-- The `n`-th unspecified word (R19): what a read with no defined value returns, and LATCH after the platform's
Reset (R211). Free value; log entry 3. -/
opaque freeWord (n : Nat) : Word

/-- The `n`-th command latency (R224): how many host actions come before the engine's step, finite and
unspecified. Free value; log entry 4. -/
opaque latency (n : Nat) : Nat

end Sys2Proof.Config
end

