-- ==== Sys2Proof/Machine/State.lean ====
section
/-! DEFINITION. The state record of 10_state.md R20 as plain data, the host's side of a run, the reasons a step can
stop, and the state after reset (R41). -/

namespace Sys2Proof.Machine

/-- The error codes that are ever recorded (R180; U22: no other value occurs). -/
inductive ErrorCode where
  | none
  | emptyAlphabet
  | unknownSymbol
  | truncatedOrCorruptInput
  | unknownCode
  | illegalCommand
  | sequence
  | outFull
  | busyErr
  deriving DecidableEq, Repr

/-- ERROR.SRC (R24): who recorded CODE. -/
inductive ErrorSource where
  | command
  | access
  deriving DecidableEq, Repr

/-- The ERROR register (R24). -/
structure ErrorReg where
  code : ErrorCode
  multi : Bool
  src : ErrorSource
  info : BitVec 16
  deriving DecidableEq, Repr

/-- TREE_STATE, the tree builder's phase (R25; U21: the value 3 never occurs). -/
inductive TreeState where
  | empty
  | building
  | built
  deriving DecidableEq, Repr

/-- An allocated entry of the node arena (R29): a tagged variant. Children are arena indices. -/
inductive Node where
  | leaf (sym : Symbol) (weight : Weight)
  | internal (weight : Weight) (left right : Nat)
  deriving DecidableEq, Repr

/-- The frequency store FREQ (R27): symbols with their counts, strictly rising, no zero count listed; a symbol that
is not listed reads 0. -/
abbrev Memory := List (Symbol × Word)

/-- The code table CODE (R32): the valid entries, strictly rising by symbol. The entry of a symbol that is not listed is
{valid 0, len 0, bits []}; a listed one is {valid 1, len = length of bits, bits}. -/
abbrev CodeTable := List (Symbol × Bits)

/-- What the world outside the block does next (R5, R91, R210): a register access of some width in bits, a
pseudo-instruction of the host that polls or drains, or the platform's Reset. -/
inductive HostAction where
  /-- `MemRead` at a byte offset (R17, R165). -/
  | read (widthBits : Nat) (off : Offset)
  /-- `MemWrite` of a value at a byte offset (R17, R166). -/
  | write (widthBits : Nat) (off : Offset) (value : Word)
  /-- WAIT (R91): read STATUS until BUSY reads 0. -/
  | wait
  /-- DRAIN_ENC (R91), before its read of ENC_OUT_COUNT. -/
  | drainEnc
  /-- DRAIN_ENC (R91) with `count` bits still to take, at least one. -/
  | drainEncBits (count : Nat)
  /-- DRAIN_DEC (R91), before its read of DEC_OUT_COUNT. -/
  | drainDec
  /-- DRAIN_DEC (R91) with `count` reads still to make, at least one. -/
  | drainDecSyms (count : Nat)
  /-- The platform's Reset between two accesses (R210, R212). -/
  | reset
  deriving DecidableEq, Repr

/-- Why the machine stops. The block has no fault of its own (R229); both stand for a state that no run reaches. -/
inductive Fault where
  /-- Raised by TREE_MERGE and TREE_BUILD when a merge step meets a queue with fewer than two allocated nodes, where
  R113 gives no meaning ("needs |PQ| >= 2"). Safe: the machine stops. -/
  | queueNotReady
  /-- Raised by CODEGEN when the walk from ROOT meets an index that is not allocated (R28, "holds no value") or never
  ends. Safe: the machine stops. -/
  | treeNotReady
  deriving DecidableEq, Repr

/-- Why a step has no meaning. -/
inductive Refusal where
  /-- An instruction without a meaning in this model; no arm answers with it. Safe. -/
  | notModelled (mnemonic : String)
  /-- Raised by a host access that is not 32 bits wide or not at a multiple of 4 (R50, U13). Safe: the run stops, which
  keeps the refusal mark for the whole run (R229). -/
  | badAccess
  deriving DecidableEq, Repr

/-- The state record (R20), then the fields of the model's own that say where a run stands. -/
structure State where
  /-- BUSY (R21). -/
  busy : Bool
  /-- LATCH (R22). -/
  latch : Word
  /-- ERROR (R24). -/
  error : ErrorReg
  /-- TREE_STATE (R25). -/
  treeState : TreeState
  /-- CODE_VALID (R26). -/
  codeValid : Bool
  /-- FREQ (R27). -/
  freq : Memory
  /-- The allocated entries of NODE in allocation order (R28); NODE_COUNT is its length. -/
  nodes : List Node
  /-- PQ (R30), the indices in rising order; PQ_COUNT is its length. -/
  pq : List Nat
  /-- NSYM (R31). -/
  nsym : Nat
  /-- ROOT (R31). -/
  root : Nat
  /-- CODE (R32). -/
  code : CodeTable
  /-- MAXLEN (R32). -/
  maxLen : Nat
  /-- ENCQ (R34). -/
  encq : Bits
  /-- DECQ (R35). -/
  decq : List Symbol
  /-- DBUF (R36). -/
  dbuf : Bits
  /-- The model's: what the host and the platform will do, first action first (R227). -/
  host : List HostAction
  /-- The model's: the values the host's reads returned, oldest first (R227). -/
  reads : List Word
  /-- The model's: how many more host actions come before the engine's step (R224). -/
  delay : Nat
  /-- The model's: how many free words and latencies have been drawn (R19). -/
  draws : Nat
  /-- The model's: how many extractions have been made (R112). -/
  ties : Nat
  deriving DecidableEq, Repr

/-- ERROR with nothing recorded (R24). -/
def ErrorReg.clear : ErrorReg := { code := .none, multi := false, src := .command, info := 0 }

/-- The block right after reset (R41, R211), with an idle host. LATCH is unspecified there: DESIGN CHOICE 0 (log entry
1). The model's own fields start empty: DESIGN CHOICE (log entries 2 to 5). -/
def State.reset : State :=
  { busy := false
    latch := 0
    error := ErrorReg.clear
    treeState := .empty
    codeValid := false
    freq := []
    nodes := []
    pq := []
    nsym := 0
    root := 0
    code := []
    maxLen := 0
    encq := []
    decq := []
    dbuf := []
    host := []
    reads := []
    delay := 0
    draws := 0
    ties := 0 }

end Sys2Proof.Machine
end

