-- ==== Sys2Proof/Machine/Ops.lean ====
section
/-! DEFINITION. The named operations over the state that the commands and the host accesses share: the sparse tables
behind FREQ and CODE, recording an error and clearing it (60_exceptions.md R183, R188), the error gate (R185), free
draws (R19), the FIFOs (R17, R34, R35) and the command latch (R21, R177). -/

namespace Sys2Proof.Machine

/-- What a step or a meaning answers. -/
abbrev Answer := Host.Outcome State Fault Refusal

/-- Run `f` on the next state of `o`; a fault or a refusal stays. -/
def andThen (o : Answer) (f : State → Answer) : Answer :=
  match o with
  | .next t => f t
  | .fault r => .fault r
  | .refused r => .refused r

/-! ### Sparse tables indexed by symbols -/

/-- The listed value of a symbol. -/
def tableGet {α : Type} : List (Symbol × α) → Symbol → Option α
  | [], _ => none
  | (k, v) :: rest, c => if k = c then some v else tableGet rest c

/-- List a value for a symbol, at its place in the rising order. -/
def tableSet {α : Type} (c : Symbol) (v : α) : List (Symbol × α) → List (Symbol × α)
  | [] => [(c, v)]
  | (k, w) :: rest =>
    if c = k then (c, v) :: rest
    else if c.toNat < k.toNat then (c, v) :: (k, w) :: rest
    else (k, w) :: tableSet c v rest

/-- Take a symbol out of a table. -/
def tableErase {α : Type} (c : Symbol) (t : List (Symbol × α)) : List (Symbol × α) :=
  t.filter fun e => e.1 != c

/-- The symbols of a table rise strictly. -/
abbrev rising {α : Type} (t : List (Symbol × α)) : Prop :=
  t.Pairwise fun a b => a.1.toNat < b.1.toNat

/-- The canonical form of the frequency store: strictly rising, and nothing listed that an unlisted symbol reads as. -/
def Memory.wf (m : Memory) : Bool :=
  decide (rising m) && m.all fun e => e.2 != 0

/-- FREQ[c] (R27): an unlisted symbol is absent, its count 0. -/
def Memory.read (m : Memory) (c : Symbol) : Word := (tableGet m c).getD 0

/-- FREQ[c] <- v (R167), keeping the canonical form. -/
def Memory.write (m : Memory) (c : Symbol) (v : Word) : Memory :=
  if v = 0 then tableErase c m else tableSet c v m

/-! ### Errors -/

/-- The ERROR register after `raise E(info)` with source `src` (R183): the first error is kept, a later one only sets
MULTI. -/
def ErrorReg.record (e : ErrorReg) (code : ErrorCode) (src : ErrorSource) (info : BitVec 16) : ErrorReg :=
  if e.code = .none then { code := code, multi := false, src := src, info := info }
  else { e with multi := true }

/-- Taking an error: it is recorded in ERROR and nothing else changes (R183, R184). -/
def recordError (code : ErrorCode) (src : ErrorSource) (info : BitVec 16) (s : State) : State :=
  { s with error := s.error.record code src info }

/-- Recording an error of the command in flight: SRC = 0 and INFO = w[15:0] of the latched word (R86, R182). -/
def recordCommandError (code : ErrorCode) (s : State) : State :=
  recordError code .command (s.latch.setWidth 16) s

/-- `raise E` inside a command rule: the error is recorded and the command ends (R17, R86). -/
def raise (code : ErrorCode) (s : State) : Answer := .next (recordCommandError code s)

/-- The return from an error: every field of ERROR is cleared (R102, R188). -/
def clearError (s : State) : State := { s with error := ErrorReg.clear }

/-- A command rejected while an error is pending (R86, R185): MULTI is set, nothing else happens. -/
def rejectCommand (s : State) : State := { s with error := { s.error with multi := true } }

/-- The error gate (R86, R185): the rule of a command runs only while no error is pending. -/
def gated (s : State) (run : State → Answer) : Answer :=
  if s.error.code = .none then run s else .next (rejectCommand s)

/-! ### The command latch and free draws -/

/-- An accepted CMD write: the word is latched and BUSY set (R177); the engine's step comes after an unspecified finite
number of host actions (R224). -/
def latchCommand (w : Word) (s : State) : State :=
  { s with latch := w, busy := true, delay := Config.latency s.draws, draws := s.draws + 1 }

/-- The end of the engine's step: BUSY <- 0 (R86). -/
def finishCommand (s : State) : State := { s with busy := false, delay := 0 }

/-- The next unspecified word, and the state after drawing it (R19). -/
def drawWord (s : State) : Word × State :=
  (Config.freeWord s.draws, { s with draws := s.draws + 1 })

/-! ### Reset -/

/-- The assignments of CLEAR_ALL (R101): every unit as at reset; BUSY and LATCH are not among them. -/
def clearUnits (s : State) : State :=
  { s with
    error := ErrorReg.clear
    treeState := .empty
    codeValid := false
    freq := []
    nodes := []
    pq := []
    nsym := 0
    root := 0
    code := []
    maxLen := 0
    encq := []
    decq := []
    dbuf := [] }

/-- The platform's Reset (R211, R212): the units as at reset, the command in flight abandoned, LATCH any value. -/
def platformReset (s : State) : State :=
  { clearUnits s with
    busy := false, delay := 0, latch := Config.freeWord s.draws, draws := s.draws + 1 }

/-! ### FIFOs and the decoder buffer -/

/-- Bits appended at the tail of ENCQ (R34). -/
def pushEnc (p : Bits) (s : State) : State := { s with encq := s.encq ++ p }

/-- The first `n` bits of ENCQ removed (R170). -/
def popEnc (n : Nat) (s : State) : State := { s with encq := s.encq.drop n }

/-- A symbol appended at the tail of DECQ (R35). -/
def pushDec (c : Symbol) (s : State) : State := { s with decq := s.decq ++ [c] }

/-- The first symbol of DECQ removed (R172). -/
def popDec (s : State) : State := { s with decq := s.decq.drop 1 }

/-- DBUF <- p (R36). -/
def setDbuf (p : Bits) (s : State) : State := { s with dbuf := p }

/-- FREQ[c] <- v (R167). -/
def writeFreq (c : Symbol) (v : Word) (s : State) : State := { s with freq := Memory.write s.freq c v }

end Sys2Proof.Machine
end

