-- ==== Sys2Proof/Machine/Operands.lean ====
section
/-! DEFINITION. The table entries a command or an access names (10_state.md R37) and the words in which bit strings and
entries are shown: `val` (00_scope.md R16), the NODE window (20_memory.md R55), the CODE window (R56), DEC_BUF_BITS (R57)
and the packing of ENC_OUT_DATA (45_host_access.md R170). -/

namespace Sys2Proof.Machine

/-- `val(p)` (R16): the number whose binary form, most significant bit first, is `p`. -/
def bitsVal (p : Bits) : Nat := p.foldl (fun acc b => 2 * acc + b.toNat) 0

/-- Word `j` of the 256-bit number `val(p)`, least significant word first (R56, R57). -/
def bitsWord (p : Bits) (j : Nat) : Word := (BitVec.ofNat 256 (bitsVal p)).extractLsb' (32 * j) 32

/-- Up to 32 bits packed with the first at bit 31, the rest 0 (R170). -/
def packMsb (p : Bits) : Word := BitVec.ofNat 32 (bitsVal p * 2 ^ (32 - p.length))

/-- FREQ[c] (R27). -/
def freqAt (s : State) (c : Symbol) : Word := Memory.read s.freq c

/-- CODE[c].bits when the entry is valid (R32). -/
def codeAt (s : State) (c : Symbol) : Option Bits := tableGet s.code c

/-- NODE_COUNT (R28). -/
def nodeCount (s : State) : Nat := s.nodes.length

/-- Node fields as R29 gives them: the tag, and 0 where the case has no such field. -/
def Node.isLeaf : Node → Bool
  | .leaf _ _ => true
  | .internal _ _ _ => false

def Node.sym : Node → Symbol
  | .leaf c _ => c
  | .internal _ _ _ => 0

def Node.weight : Node → Weight
  | .leaf _ w => w
  | .internal w _ _ => w

def Node.left : Node → Nat
  | .leaf _ _ => 0
  | .internal _ l _ => l

def Node.right : Node → Nat
  | .leaf _ _ => 0
  | .internal _ _ r => r

/-- Word `k` of an allocated node in the NODE window (R55, R174). -/
def nodeWord (n : Node) (inPq : Bool) (k : Nat) : Word :=
  match k with
  | 0 => 0#16 ++ n.sym ++ 0#6 ++ BitVec.ofBool inPq ++ BitVec.ofBool n.isLeaf
  | 1 => n.weight.extractLsb' 0 32
  | 2 => (n.weight.extractLsb' 32 8).setWidth 32
  | _ => 0#7 ++ BitVec.ofNat 9 n.right ++ 0#7 ++ BitVec.ofNat 9 n.left

/-- Word `k` of a CODE entry in the CODE window (R56, R175). -/
def codeWord (e : Option Bits) (k : Nat) : Word :=
  match e with
  | none => 0
  | some p =>
    if k = 0 then 0#16 ++ BitVec.ofNat 8 p.length ++ 0#7 ++ 1#1
    else if k ≤ 8 then bitsWord p (k - 1)
    else 0

end Sys2Proof.Machine
end

