-- ==== Sys2Proof/Machine/Flags.lean ====
section
/-! DEFINITION. The status flags and the two status-class words computed from the state (10_state.md R23, R24;
45_host_access.md R176). -/

namespace Sys2Proof.Machine

/-- The two bits of TREE_STATE in STATUS[3:2] (R25). -/
def TreeState.bits : TreeState → BitVec 2
  | .empty => 0
  | .building => 1
  | .built => 2

/-- The number of an error code (R180). -/
def ErrorCode.number : ErrorCode → BitVec 8
  | .none => 0x00
  | .emptyAlphabet => 0x01
  | .unknownSymbol => 0x02
  | .truncatedOrCorruptInput => 0x03
  | .unknownCode => 0x04
  | .illegalCommand => 0x10
  | .sequence => 0x11
  | .outFull => 0x12
  | .busyErr => 0x13

/-- SRC as ERROR[9] (R24). -/
def ErrorSource.bit : ErrorSource → BitVec 1
  | .command => 0
  | .access => 1

/-- STATUS.ERR: 1 when ERROR.CODE != 0 (R23). -/
def errFlag (s : State) : Bool := s.error.code != .none

/-- The STATUS word (R23, R176). -/
def statusWord (s : State) : Word :=
  0#27 ++ BitVec.ofBool s.codeValid ++ s.treeState.bits ++ BitVec.ofBool (errFlag s) ++ BitVec.ofBool s.busy

/-- The ERROR word (R24, R176). -/
def errorWord (e : ErrorReg) : Word :=
  e.info ++ 0#6 ++ e.src.bit ++ BitVec.ofBool e.multi ++ e.code.number

/-- The PARAMS word (R40): FREQ_W, DEC_FIFO_DEPTH and ENC_FIFO_BITS. -/
def paramsWord : Word :=
  BitVec.ofNat 8 Config.freqW ++ BitVec.ofNat 8 Config.decFifoDepth ++ BitVec.ofNat 16 Config.encFifoBits

end Sys2Proof.Machine
end

