-- ==== Sys2Proof/Machine/CodeTable.lean ====
section
/-! DEFINITION. code_table_rom_gen (42_code_table_rom_gen.md R130, R131): the walk of the tree and CODEGEN. -/

namespace Sys2Proof.Machine

/-- `Walk(i, p)` (R130): the leaves below node `i` with their codes, 0 appended on the way left and 1 on the way right.
`none` when it meets an index that is not allocated, or goes deeper than `fuel` nodes. -/
def walk (nodes : List Node) : Nat → Nat → Bits → Option (List (Symbol × Bits))
  | 0, _, _ => none
  | fuel + 1, i, p =>
    match nodes[i]? with
    | none => none
    | some (.leaf c _) => some [(c, p)]
    | some (.internal _ l r) =>
      match walk nodes fuel l (p ++ [false]), walk nodes fuel r (p ++ [true]) with
      | some a, some b => some (a ++ b)
      | _, _ => none

/-- The codes CODEGEN assigns (R130): the fallback "0" for a root that is a leaf (R131), else the walk from ROOT. A walk
that ends passes at most NODE_COUNT nodes on a path. -/
def assignedCodes (nodes : List Node) (root : Nat) : Option (List (Symbol × Bits)) :=
  match nodes[root]? with
  | some (.leaf c _) => some [(c, [false])]
  | _ => walk nodes nodes.length root []

/-- Writing the assigned codes into an empty table (R130). -/
def tableOfCodes (pairs : List (Symbol × Bits)) : CodeTable :=
  pairs.foldl (fun t e => tableSet e.1 e.2 t) []

/-- The table CODEGEN writes (R130). -/
def generatedTable (nodes : List Node) (root : Nat) : Option CodeTable :=
  (assignedCodes nodes root).map tableOfCodes

/-- The largest length among the valid entries, 0 when there is none (R32, R130). -/
def maxCodeLen (t : CodeTable) : Nat := t.foldl (fun m e => max m e.2.length) 0

/-- CODE, MAXLEN and CODE_VALID as CODEGEN leaves them (R130). -/
def writeCodes (t : CodeTable) (s : State) : State :=
  { s with code := t, maxLen := maxCodeLen t, codeValid := true }

/-- CODEGEN (R130). -/
def execCodegen (s : State) : Answer :=
  gated s fun s =>
    if s.treeState = .built then
      match generatedTable s.nodes s.root with
      | some t => .next (writeCodes t s)
      | none => .fault .treeNotReady
    else raise .sequence s

end Sys2Proof.Machine
end

