-- ==== Sys2Proof/Machine/Control.lean ====
section
/-! DEFINITION. The control commands (40_control.md R100 to R102); all three pass the error gate (R86, R185). -/

namespace Sys2Proof.Machine

/-- NOP (R100). -/
def execNop (s : State) : Answer := .next s

/-- CLEAR_ALL (R101). -/
def execClearAll (s : State) : Answer := .next (clearUnits s)

/-- CLEAR_ERR (R102). -/
def execClearErr (s : State) : Answer := .next (clearError s)

end Sys2Proof.Machine
end

