-- ==== Sys2Proof/Machine/Encoder.lean ====
section
/-! DEFINITION. The encoder (43_encoder.md R140). -/

namespace Sys2Proof.Machine

/-- ENC_SYM (R140): the checks in order, then the code appended whole. -/
def execEncSym (sym : Symbol) (s : State) : Answer :=
  gated s fun s =>
    if s.codeValid then
      match codeAt s sym with
      | none => raise .unknownSymbol s
      | some p => if s.encq.length + p.length ≤ Config.encFifoBits then .next (pushEnc p s) else raise .outFull s
    else raise .sequence s

end Sys2Proof.Machine
end

