-- ==== Sys2Proof/Machine/PrefixDecoder.lean ====
section
/-! DEFINITION. The prefix decoder (44_prefix_decoder.md R150 to R152). -/

namespace Sys2Proof.Machine

/-- `Match(p)` (R150): the symbols whose valid code is `p`. The reverse code table is this view of CODE (R33). -/
def matchSet (t : CodeTable) (p : Bits) : List Symbol := (t.filter fun e => e.2 == p).map Prod.fst

/-- One accepted bit of the stream (R151), `b` being DBUF with the bit appended. -/
def decodeBuffer (b : Bits) (s : State) : Answer :=
  match matchSet s.code b with
  | [c] => .next (setDbuf [] (pushDec c s))
  | _ => if s.maxLen ≤ b.length then raise .unknownCode (setDbuf [] s) else .next (setDbuf b s)

/-- DEC_BIT (R151). -/
def execDecBit (bit : Bool) (s : State) : Answer :=
  gated s fun s =>
    if s.codeValid then
      if s.decq.length = Config.decFifoDepth then raise .outFull s else decodeBuffer (s.dbuf ++ [bit]) s
    else raise .sequence s

/-- DEC_END (R152). -/
def execDecEnd (s : State) : Answer :=
  gated s fun s =>
    if s.codeValid then
      if s.dbuf = [] then .next s else raise .truncatedOrCorruptInput (setDbuf [] s)
    else raise .sequence s

end Sys2Proof.Machine
end

