-- ==== Sys2Proof/Machine/TreeBuilder.lean ====
section
/-! DEFINITION. The tree builder (41_tree_builder.md R110 to R116): seeding, extraction, the merge step, and the commands
TREE_SEED, TREE_MERGE and TREE_BUILD. The operations take TIE_SELECT as an argument (00_scope.md R13); the commands use
the open one. -/

namespace Sys2Proof.Machine

/-- TIE_SELECT (R13): from the extraction's number and the candidate set, the index to remove. -/
abbrev TieSelect := Nat → List Nat → Nat

/-- A choice of a place among the candidates as a TIE_SELECT: with one candidate the choice is forced (R112). -/
def tieSelectOf (choice : Nat → List Nat → Nat) : TieSelect := fun n c =>
  match c with
  | [] => 0
  | [i] => i
  | c => c.getD (choice n c % c.length) 0

/-- The open TIE_SELECT of this model (R13; log entry 2). -/
def openTie : TieSelect := tieSelectOf Config.tieChoice

/-- The reference value LOWEST_INDEX: the candidate with the smallest node index (R13). -/
def lowestIndex : TieSelect := fun _ c => c.min?.getD 0

/-- The queue's key (R111): the node's weight as an unsigned number. The queue holds allocated indices only (R30). -/
def nodeKey (nodes : List Node) (i : Nat) : Nat :=
  match nodes[i]? with
  | some n => n.weight.toNat
  | none => 0

/-- `minw(PQ)` (R111), for a non-empty queue. -/
def minKey (nodes : List Node) (pq : List Nat) : Nat := ((pq.map (nodeKey nodes)).min?).getD 0

/-- `cands(PQ)` (R111). -/
def cands (nodes : List Node) (pq : List Nat) : List Nat :=
  pq.filter fun i => nodeKey nodes i == minKey nodes pq

/-- The index the next extraction removes (R112). -/
def extractIndex (tie : TieSelect) (s : State) : Nat := tie s.ties (cands s.nodes s.pq)

/-- PQ <- PQ \ {i} by one extraction (R112). -/
def removeFromQueue (i : Nat) (s : State) : State := { s with pq := s.pq.erase i, ties := s.ties + 1 }

/-- Put an index at its place in a rising list. -/
def insertIndex (n : Nat) : List Nat → List Nat
  | [] => [n]
  | i :: rest => if n < i then n :: i :: rest else if n = i then i :: rest else i :: insertIndex n rest

/-- The weight of an arena entry as a 40-bit value (R29). -/
def weightOf (nodes : List Node) (i : Nat) : Weight :=
  match nodes[i]? with
  | some n => n.weight
  | none => 0

/-- The internal node a merge creates over `l` and `r` (R113): its weight is their sum in 40 bits (R114). -/
def mergedNode (nodes : List Node) (l r : Nat) : Node :=
  .internal (weightOf nodes l + weightOf nodes r) l r

/-- Allocation of the merged node at index NODE_COUNT and its insertion into the queue (R113). -/
def addMerged (l r : Nat) (s : State) : State :=
  { s with
    nodes := s.nodes ++ [mergedNode s.nodes l r]
    pq := insertIndex s.nodes.length s.pq }

/-- The end of a merge step (R113): with one node left in the queue the tree is BUILT, and `n` is its ROOT. -/
def closeTree (n : Nat) (s : State) : State :=
  if s.pq.length = 1 then { s with treeState := .built, root := n } else s

/-- The next state of `MergeStep()` (R113): two extractions, the first one the left child, then the new node. -/
def mergeNext (tie : TieSelect) (s : State) : State :=
  let l := extractIndex tie s
  let s1 := removeFromQueue l s
  let r := extractIndex tie s1
  let s2 := removeFromQueue r s1
  closeTree s2.nodes.length (addMerged l r s2)

/-- What R113 needs of the queue: at least two nodes, all of them allocated. -/
abbrev QueueReady (s : State) : Prop := 2 ≤ s.pq.length ∧ ∀ i ∈ s.pq, i < s.nodes.length

/-- `MergeStep()` (R113); without what it needs it has no meaning and the machine stops. -/
def mergeStep (tie : TieSelect) (s : State) : Answer :=
  if QueueReady s then .next (mergeNext tie s) else .fault .queueNotReady

/-- `while TREE_STATE == BUILDING: MergeStep()` (R116); each step shrinks the queue by one, so `fuel` = |PQ| is enough. -/
def mergeAll (tie : TieSelect) : Nat → State → Answer
  | 0, s => if s.treeState = .building then .fault .queueNotReady else .next s
  | fuel + 1, s =>
    if s.treeState = .building then andThen (mergeStep tie s) (mergeAll tie fuel) else .next s

/-- The present symbols with their counts, in ascending symbol order (R110: FREQ[s] != 0). -/
def present (freq : Memory) : Memory := freq.filter fun e => e.2 != 0

/-- The leaves TREE_SEED allocates (R110, R29): one per present symbol, its weight the count zero-extended to 40 bits. -/
def seedLeaves (freq : Memory) : List Node := (present freq).map fun e => .leaf e.1 (e.2.setWidth 40)

/-- The state changes of `Seed()` (R110), for k >= 1 present symbols. -/
def seedNext (s : State) : State :=
  let leaves := seedLeaves s.freq
  { s with
    nodes := leaves
    pq := List.range leaves.length
    nsym := leaves.length
    treeState := if leaves.length = 1 then .built else .building
    root := if leaves.length = 1 then 0 else s.root }

/-- `Seed()` from TREE_STATE = EMPTY (R110), then `run`; with no present symbol EMPTY_ALPHABET is raised. -/
def seedThen (s : State) (run : State → Answer) : Answer :=
  if present s.freq = [] then raise .emptyAlphabet s else run (seedNext s)

/-- TREE_MERGE under a TIE_SELECT (R115). -/
def treeMergeWith (tie : TieSelect) (s : State) : Answer :=
  gated s fun s => if s.treeState = .building then mergeStep tie s else raise .sequence s

/-- TREE_BUILD under a TIE_SELECT (R116). -/
def treeBuildWith (tie : TieSelect) (s : State) : Answer :=
  gated s fun s =>
    match s.treeState with
    | .built => raise .sequence s
    | .empty => seedThen s fun t => mergeAll tie t.pq.length t
    | .building => mergeAll tie s.pq.length s

/-- TREE_SEED (R110). -/
def execTreeSeed (s : State) : Answer :=
  gated s fun s => if s.treeState = .empty then seedThen s .next else raise .sequence s

/-- TREE_MERGE (R115). -/
def execTreeMerge (s : State) : Answer := treeMergeWith openTie s

/-- TREE_BUILD (R116). -/
def execTreeBuild (s : State) : Answer := treeBuildWith openTie s

end Sys2Proof.Machine
end

