-- ==== Sys2Proof/Machine/Dispatch.lean ====
section
/-! DEFINITION. One arm per command (30_encoding.md R85, R86): the legal word's rule, the error gate included. -/

namespace Sys2Proof.Machine

def exec (i : Instr) (s : State) : Host.Outcome State Fault Refusal :=
  match i with
  | .nop => Sys2Proof.Machine.execNop s
  | .clearAll => Sys2Proof.Machine.execClearAll s
  | .clearErr => Sys2Proof.Machine.execClearErr s
  | .treeSeed => Sys2Proof.Machine.execTreeSeed s
  | .treeMerge => Sys2Proof.Machine.execTreeMerge s
  | .treeBuild => Sys2Proof.Machine.execTreeBuild s
  | .codegen => Sys2Proof.Machine.execCodegen s
  | .encSym sym => Sys2Proof.Machine.execEncSym sym s
  | .decBit bit => Sys2Proof.Machine.execDecBit bit s
  | .decEnd => Sys2Proof.Machine.execDecEnd s

end Sys2Proof.Machine
end

