-- ==== Sys2Proof/Machine/Engine.lean ====
section
/-! DEFINITION. The engine's step (30_encoding.md R86; 10_state.md R21): `Execute(LATCH)`, then BUSY <- 0. -/

namespace Sys2Proof.Machine

/-- `Execute(w)` (R86): an illegal word records ILLEGAL_COMMAND (R87), a legal one runs its command. -/
def executeWord (w : Word) (s : State) : Answer :=
  match decode w with
  | .ok i => exec i s
  | .error _ => raise .illegalCommand s

/-- The engine's step: the latched word is executed as one transition, and BUSY is cleared whether or not it raised. -/
def engineStep (s : State) : Answer := andThen (executeWord s.latch s) fun t => .next (finishCommand t)

/-- The engine moves next: a command is in flight, and its latency has run out or the outside world has nothing more to do
(R224: it eventually completes). Log entry 4. -/
def engineTurn (s : State) : Bool := s.busy && (s.delay == 0 || s.host.isEmpty)

end Sys2Proof.Machine
end

