-- ==== Sys2Proof/Machine/HostAccess.lean ====
section
/-! DEFINITION. The host's register accesses (20_memory.md R50 to R66, 45_host_access.md R165 to R178): the address map,
`MemRead` and `MemWrite`. -/

namespace Sys2Proof.Machine

/-- What an offset of the address map names (R52). -/
inductive Region where
  | id
  | params
  | cmd
  | status
  | error
  | nsym
  | root
  | nodeCount
  | pqCount
  | maxLen
  | encOutCount
  | encOutData
  | decOutCount
  | decOutData
  | decBufLen
  | decBufBits (j : Nat)
  | freq (c : Symbol)
  | node (i k : Nat)
  | code (c : Symbol) (k : Nat)
  | reserved
  deriving DecidableEq, Repr

/-- The fifteen registers from offset 0x0000, by word number (R52); 0x003C is reserved. -/
def plainRegister : Nat → Region
  | 0 => .id
  | 1 => .params
  | 2 => .cmd
  | 3 => .status
  | 4 => .error
  | 5 => .nsym
  | 6 => .root
  | 7 => .nodeCount
  | 8 => .pqCount
  | 9 => .maxLen
  | 10 => .encOutCount
  | 11 => .encOutData
  | 12 => .decOutCount
  | 13 => .decOutData
  | 14 => .decBufLen
  | _ => .reserved

/-- The address map (R52, R55, R56, R57), for an offset that is a multiple of 4. -/
def regionOf (off : Offset) : Region :=
  let a := off.toNat
  if a < 0x0040 then plainRegister (a / 4)
  else if a < 0x0060 then .decBufBits ((a - 0x0040) / 4)
  else if a < 0x0400 then .reserved
  else if a < 0x0800 then .freq (BitVec.ofNat 8 ((a - 0x0400) / 4))
  else if a < 0x1000 then .reserved
  else if a < 0x2FF0 then .node ((a - 0x1000) / 16) ((a - 0x1000) % 16 / 4)
  else if a < 0x4000 then .reserved
  else if a < 0x8000 then .code (BitVec.ofNat 8 ((a - 0x4000) / 64)) ((a - 0x4000) % 64 / 4)
  else .reserved

/-- A word of the NODE window (R55, R174): an entry that is not allocated reads an unspecified value. -/
def readNode (i k : Nat) (s : State) : Word × State :=
  match s.nodes[i]? with
  | some n => (nodeWord n (decide (i ∈ s.pq)) k, s)
  | none => drawWord s

/-- ENC_OUT_DATA (R170): up to 32 bits leave the head of ENCQ. -/
def readEncOutData (s : State) : Word × State :=
  (packMsb (s.encq.take 32), popEnc (min 32 s.encq.length) s)

/-- DEC_OUT_DATA (R172): one symbol leaves the head of DECQ, VALID at bit 8. -/
def readDecOutData (s : State) : Word × State :=
  match s.decq with
  | [] => (0, s)
  | c :: _ => (0x100#32 ||| c.setWidth 32, popDec s)

/-- The value and the side effect of a read while BUSY = 0 (R165, R168 to R176, R178). -/
def readIdle (r : Region) (s : State) : Word × State :=
  match r with
  | .id => (Config.idWord, s)
  | .params => (paramsWord, s)
  | .cmd => (0, s)
  | .status => (statusWord s, s)
  | .error => (errorWord s.error, s)
  | .nsym => (BitVec.ofNat 32 s.nsym, s)
  | .root => (BitVec.ofNat 32 s.root, s)
  | .nodeCount => (BitVec.ofNat 32 (nodeCount s), s)
  | .pqCount => (BitVec.ofNat 32 s.pq.length, s)
  | .maxLen => (BitVec.ofNat 32 s.maxLen, s)
  | .encOutCount => (BitVec.ofNat 32 s.encq.length, s)
  | .encOutData => readEncOutData s
  | .decOutCount => (BitVec.ofNat 32 s.decq.length, s)
  | .decOutData => readDecOutData s
  | .decBufLen => (BitVec.ofNat 32 s.dbuf.length, s)
  | .decBufBits j => (bitsWord s.dbuf j, s)
  | .freq c => (freqAt s c, s)
  | .node i k => readNode i k s
  | .code c k => (codeWord (codeAt s c) k, s)
  | .reserved => (0, s)

/-- A read while BUSY = 1 (R66): four registers read as ever, every other offset an unspecified value with no side
effect. -/
def readBusy (r : Region) (s : State) : Word × State :=
  match r with
  | .id => readIdle .id s
  | .params => readIdle .params s
  | .status => readIdle .status s
  | .error => readIdle .error s
  | _ => drawWord s

/-- `MemRead(off, 4)` (R165, R66): the value returned and the state after. -/
def memRead (off : Offset) (s : State) : Word × State :=
  if s.busy then readBusy (regionOf off) s else readIdle (regionOf off) s

/-- Recording an error of a register access: SRC = 1 and INFO = the byte offset (R182). -/
def recordAccessError (code : ErrorCode) (off : Offset) (s : State) : State := recordError code .access off s

/-- A FREQ write while BUSY = 0 (R167): dropped with SEQUENCE once the tree builder has seeded. -/
def writeFreqIdle (off : Offset) (c : Symbol) (v : Word) (s : State) : State :=
  if s.treeState = .empty then writeFreq c v s else recordAccessError .sequence off s

/-- A write while BUSY = 0 (R166): FREQ, CMD, or ignored (R53, R54). -/
def writeIdle (off : Offset) (v : Word) (s : State) : State :=
  match regionOf off with
  | .freq c => writeFreqIdle off c v s
  | .cmd => latchCommand v s
  | _ => s

/-- `MemWrite(off, 4, v)` (R166, R66): while BUSY = 1 every write is dropped and records BUSY_ERR. -/
def memWrite (off : Offset) (v : Word) (s : State) : State :=
  if s.busy then recordAccessError .busyErr off s else writeIdle off v s

end Sys2Proof.Machine
end

