-- ==== Sys2Proof/Machine/HostProgram.lean ====
section
/-! DEFINITION. The host's side of a run (70_reset_and_hazards.md R226, R227): one host action, and the programs the
notation of 30_encoding.md R90 and R91 stands for. -/

namespace Sys2Proof.Machine

/-- Byte offsets a pseudo-instruction names (R52, R91). -/
def offCmd : Offset := 0x0008
def offStatus : Offset := 0x000C
def offError : Offset := 0x0010
def offEncOutCount : Offset := 0x0028
def offEncOutData : Offset := 0x002C
def offDecOutCount : Offset := 0x0030
def offDecOutData : Offset := 0x0034

/-- The offset of FREQ[c] (R167). -/
def offFreq (c : Symbol) : Offset := BitVec.ofNat 16 (0x0400 + 4 * c.toNat)

/-- A read access of the host: the value joins the values its reads returned (R227). -/
def hostRead (off : Offset) (s : State) : Word × State :=
  let r := memRead off s
  (r.1, { r.2 with reads := r.2.reads ++ [r.1] })

/-- Give the host an action to do before the rest of its program. -/
def pushHost (a : HostAction) (s : State) : State := { s with host := a :: s.host }

/-- Give the host an action to do next when `more` holds. -/
def repeatIf (more : Bool) (a : HostAction) (s : State) : State := if more then pushHost a s else s

/-- One action of the world outside the block, already taken off its program. An access that is not 32 bits wide at a
multiple of 4 is refused (R50). -/
def hostStep (a : HostAction) (s : State) : Answer :=
  match a with
  | .read width off => if WellFormed.access width off then .next (hostRead off s).2 else .refused .badAccess
  | .write width off v => if WellFormed.access width off then .next (memWrite off v s) else .refused .badAccess
  | .wait => .next (repeatIf ((hostRead offStatus s).1.getLsbD 0) .wait (hostRead offStatus s).2)
  | .drainEnc =>
    let r := hostRead offEncOutCount s
    .next (repeatIf (r.1.toNat != 0) (.drainEncBits r.1.toNat) r.2)
  | .drainEncBits c =>
    .next (repeatIf (c - min 32 c != 0) (.drainEncBits (c - min 32 c)) (hostRead offEncOutData s).2)
  | .drainDec =>
    let r := hostRead offDecOutCount s
    .next (repeatIf (r.1.toNat != 0) (.drainDecSyms r.1.toNat) r.2)
  | .drainDecSyms c => .next (repeatIf (c - 1 != 0) (.drainDecSyms (c - 1)) (hostRead offDecOutData s).2)
  | .reset => .next (platformReset s)

/-- Take the next action off the program; it counts towards the latency of a command in flight. -/
def takeAction (rest : List HostAction) (s : State) : State := { s with host := rest, delay := s.delay - 1 }

/-- The host's move; with nothing more to do the block stays as it is (R197). -/
def hostTurn (s : State) : Answer :=
  match s.host with
  | [] => .next s
  | a :: rest => hostStep a (takeAction rest s)

/-! ### Programs (R90, R91) -/

/-- `WR <offset>, <value>`. -/
def wr (off : Offset) (v : Word) : HostAction := .write 32 off v

/-- `RD <offset>`. -/
def rd (off : Offset) : HostAction := .read 32 off

/-- A bare command line: `WR 0x0008, <command word>`. -/
def command (i : Instr) : HostAction := wr offCmd (encode i)

/-- `DO <command>`: the CMD write, then WAIT. -/
def doCommand (i : Instr) : List HostAction := [command i, .wait]

/-- `SETFREQ <s>, <n>`. -/
def setFreq (c : Symbol) (n : Word) : HostAction := wr (offFreq c) n

/-- `ENC_STR "<text>"`. -/
def encStr (text : List Symbol) : List HostAction := text.flatMap fun c => doCommand (.encSym c)

/-- `DEC_STR "<bits>"`. -/
def decStr (bits : Bits) : List HostAction := bits.flatMap fun b => doCommand (.decBit b)

/-- `CHECK_OK`: the read of ERROR, which the rules give 0 when no error is recorded. -/
def checkOk : HostAction := rd offError

/-- The state right after reset with a host about to run a program (R227). -/
def loadProgram (program : List HostAction) (s : State) : State := { s with host := program }

end Sys2Proof.Machine
end

