-- ==== Sys2Proof/Machine/Step.lean ====
section
/-! DEFINITION. One step of the machine: the engine's step or one host action, as the state says (10_state.md R21,
20_memory.md R62, R63). -/

namespace Sys2Proof.Machine

/-- One step. -/
def step (s : State) : Host.Outcome State Fault Refusal :=
  if engineTurn s then engineStep s else hostTurn s

/-- `s` with the command word `w` latched and the engine's step due: what a CMD write of `w` leaves when the engine
moves before the host (R177). Only the lowest `nbits` bits of `w` are given, the others are 0. Log entry 5. -/
def State.withFetchWord (s : State) (nbits w : Nat) : State :=
  { s with latch := BitVec.ofNat 32 (w % 2 ^ nbits), busy := true, delay := 0 }

end Sys2Proof.Machine
end

