-- ==== Sys2Proof/Safety.lean ====
section
/-! DEFINITION. The terms claims are stated in: when a run has ended and succeeded (70_reset_and_hazards.md R227), what is
reachable, the invariant behind 10_state.md R42 and 41_tree_builder.md R117, paths in the arena, and binary trees over
symbols with their weighted path length (R118). -/

namespace Sys2Proof.Safety

open Sys2Proof.Machine

/-! ### Runs -/

/-- A run has ended (R227): the host has made its last access and no command is in flight. -/
def ended (s : State) : Prop := s.host = [] ∧ s.busy = false

/-- A run has succeeded (R227): it has ended with ERROR = 0x00000000. -/
def succeeded (s : State) : Prop := ended s ∧ errorWord s.error = 0

/-- The states of the runs of host programs applied to the block from the reset state (R227). -/
inductive Reachable : State → Prop where
  | start (program : List HostAction) : Reachable (loadProgram program State.reset)
  | step {s t : State} : Reachable s → Machine.step s = .next t → Reachable t

/-! ### The arena as a forest -/

/-- The child indices of the allocated nodes, in allocation order. -/
def childrenOf (nodes : List Node) : List Nat :=
  nodes.flatMap fun n =>
    match n with
    | .leaf _ _ => []
    | .internal _ l r => [l, r]

/-- An internal node comes after both its children and weighs their exact sum (R29, R114, R117). -/
def nodeOk (nodes : List Node) (i : Nat) : Bool :=
  match nodes[i]? with
  | some (.internal w l r) =>
    decide (l < i) && decide (r < i) && w.toNat == nodeKey nodes l + nodeKey nodes r
  | _ => true

/-- The sum of all listed counts. -/
def listedTotal (freq : Memory) : Nat := (freq.map fun e => e.2.toNat).sum

/-- The sum of FREQ[c] over the 256 symbols. -/
def freqTotal (s : State) : Nat :=
  ((List.range 256).map fun c => (freqAt s (BitVec.ofNat 8 c)).toNat).sum

/-- The sum of the weights in the queue. -/
def queueWeight (s : State) : Nat := (s.pq.map (nodeKey s.nodes)).sum

/-- The invariant of the block, in the form every step keeps from any state: the canonical forms of the tables, the forest
the tree builder keeps (R28, R29, R30, R117), the phases (R25, R26, R42) and the bounds of the streams (R42). -/
structure Inv (s : State) : Prop where
  /-- FREQ is in its canonical form. -/
  freqWf : Memory.wf s.freq = true
  /-- ERROR with no code is all 0 (R24, R183). -/
  errorClear : s.error.code = .none → s.error = ErrorReg.clear
  /-- No latency is left over while no command is in flight. -/
  idleDelay : s.busy = false → s.delay = 0
  /-- R42, first clause. -/
  emptyTree : s.treeState = .empty →
    s.nodes = [] ∧ s.pq = [] ∧ s.nsym = 0 ∧ s.root = 0 ∧ s.codeValid = false
  /-- The first NSYM nodes are the leaves of the present symbols, every later one is internal (R28). -/
  seeded : s.treeState ≠ .empty →
    s.nsym = (seedLeaves s.freq).length ∧ s.nodes.take s.nsym = seedLeaves s.freq ∧
      ((s.nodes.drop s.nsym).all fun n => !n.isLeaf) = true
  /-- Children come before their parents, and weights are exact sums (R114, R117). -/
  arena : ((List.range s.nodes.length).all (nodeOk s.nodes)) = true
  /-- PQ is in its canonical form (R30). -/
  queueRising : s.pq.Pairwise (· < ·)
  /-- Every allocated node is either in PQ or the child of exactly one node, once (R29, R30). -/
  owned : (s.pq ++ childrenOf s.nodes).Perm (List.range s.nodes.length)
  /-- Merging keeps the total weight (R42, R114). -/
  total : s.treeState ≠ .empty → queueWeight s = listedTotal s.freq
  /-- R42, second clause; ROOT reads 0 before BUILT (R31). -/
  building : s.treeState = .building → 2 ≤ s.pq.length ∧ s.root = 0
  /-- R42, third clause. -/
  built : s.treeState = .built → s.pq = [s.root]
  /-- Without a table every entry is invalid and DBUF is empty (R42). -/
  noCode : s.codeValid = false → s.code = [] ∧ s.maxLen = 0 ∧ s.dbuf = []
  /-- With a table, it is the one CODEGEN generates from the tree (R26). -/
  hasCode : s.codeValid = true →
    s.treeState = .built ∧ generatedTable s.nodes s.root = some s.code ∧ s.maxLen = maxCodeLen s.code
  /-- DBUF is a proper prefix of some valid code, shorter than MAXLEN (R42). -/
  buffer : s.dbuf ≠ [] →
    s.dbuf.length < s.maxLen ∧ ∃ e ∈ s.code, s.dbuf <+: e.2 ∧ s.dbuf ≠ e.2
  /-- R34. -/
  encBound : s.encq.length ≤ Config.encFifoBits
  /-- R35. -/
  decBound : s.decq.length ≤ Config.decFifoDepth

/-- The properties R42 lists, clause by clause, in the spec's own terms. -/
structure RunProperties (s : State) : Prop where
  empty : s.treeState = .empty →
    nodeCount s = 0 ∧ s.pq = [] ∧ s.nsym = 0 ∧ s.root = 0 ∧ s.codeValid = false
  building : s.treeState = .building →
    2 ≤ s.pq.length ∧ s.pq.length ≤ s.nsym ∧ nodeCount s + s.pq.length = 2 * s.nsym ∧ s.codeValid = false
  built : s.treeState = .built →
    s.pq = [s.root] ∧ nodeCount s + 1 = 2 * s.nsym ∧ s.root + 1 = nodeCount s
  rootWeight : s.treeState = .built → nodeKey s.nodes s.root = freqTotal s
  codeValid : s.codeValid = true →
    s.treeState = .built ∧ s.code.length = s.nsym ∧
      (∀ c, (codeAt s c).isSome ↔ freqAt s c ≠ 0) ∧
      (∀ c p, codeAt s c = some p → p.length ≤ s.maxLen) ∧
      ∃ c p, codeAt s c = some p ∧ p.length = s.maxLen
  codeInvalid : s.codeValid = false → (∀ c, codeAt s c = none) ∧ s.maxLen = 0
  buffer : s.dbuf ≠ [] →
    s.codeValid = true ∧ s.dbuf.length < s.maxLen ∧
      ∃ c p, codeAt s c = some p ∧ s.dbuf <+: p ∧ s.dbuf ≠ p
  encBound : s.encq.length ≤ 512
  decBound : s.decq.length ≤ 16
  bufferBound : s.dbuf.length ≤ 254

/-! ### Paths and trees -/

/-- The node reached from `i` along a path: 0 goes left, 1 goes right (R130). -/
def descend (nodes : List Node) : Nat → Bits → Option Nat
  | i, [] => some i
  | i, b :: p =>
    match nodes[i]? with
    | some (.internal _ l r) => descend nodes (if b then r else l) p
    | _ => none

/-- A binary tree whose leaves are symbols and whose internal nodes have two children (R117). -/
inductive SymTree where
  | leaf (c : Symbol)
  | node (l r : SymTree)
  deriving DecidableEq, Repr

/-- The leaves of a tree, left to right. -/
def SymTree.leaves : SymTree → List Symbol
  | .leaf c => [c]
  | .node l r => l.leaves ++ r.leaves

/-- The sum of FREQ over the leaves of a tree. -/
def SymTree.weight (freq : Symbol → Nat) : SymTree → Nat
  | .leaf c => freq c
  | .node l r => l.weight freq + r.weight freq

/-- The weighted path length of a tree whose root is at depth `d` (R118). -/
def SymTree.pathLength (freq : Symbol → Nat) : Nat → SymTree → Nat
  | d, .leaf c => freq c * d
  | d, .node l r => l.pathLength freq (d + 1) + r.pathLength freq (d + 1)

/-- The tree below an arena node; `none` past `fuel` nodes on a path or at an index that is not allocated. -/
def treeAt (nodes : List Node) : Nat → Nat → Option SymTree
  | 0, _ => none
  | fuel + 1, i =>
    match nodes[i]? with
    | none => none
    | some (.leaf c _) => some (.leaf c)
    | some (.internal _ l r) =>
      match treeAt nodes fuel l, treeAt nodes fuel r with
      | some a, some b => some (.node a b)
      | _, _ => none

/-- The built tree (R117). -/
def builtTree (s : State) : Option SymTree := treeAt s.nodes s.nodes.length s.root

/-- FREQ as numbers. -/
def count (s : State) (c : Symbol) : Nat := (freqAt s c).toNat

/-- A TIE_SELECT picks a member of every non-empty candidate set (R112). -/
def LawfulTie (tie : TieSelect) : Prop := ∀ n c, c ≠ [] → tie n c ∈ c

/-- The three control commands, which run while an error is pending (R86, R185). -/
def passesGate : Instr → Bool
  | .nop | .clearAll | .clearErr => true
  | .treeSeed | .treeMerge | .treeBuild | .codegen | .encSym _ | .decBit _ | .decEnd => false

/-- The commands of a list executed one after the other, each as the engine executes it (R63). -/
def runCommands : List Instr → State → Answer
  | [], s => .next s
  | i :: rest, s => andThen (exec i s) (runCommands rest)

/-- A stream fed to the decoder with reads of DEC_OUT_DATA in between (R153): `some b` is `DEC_BIT b`, `none` is such a
read. The answer is the symbols the reads returned, in order, and the last state. -/
def feedDecoder : List (Option Bool) → State → Option (List Symbol × State)
  | [], s => some ([], s)
  | some b :: rest, s =>
    match exec (.decBit b) s with
    | .next t => feedDecoder rest t
    | _ => none
  | none :: rest, s =>
    match feedDecoder rest (readDecOutData s).2 with
    | some (out, t) => some (s.decq.head?.toList ++ out, t)
    | none => none

/-- The number of present symbols, k (R31). -/
def presentCount (s : State) : Nat :=
  ((List.range 256).filter fun c => freqAt s (BitVec.ofNat 8 c) != 0).length

/-- The next move is a host action `a` (or the platform's Reset), not the engine's step. -/
def hostMoves (s : State) (a : HostAction) : Prop := engineTurn s = false ∧ s.host.head? = some a

/-- The next move is the engine's, and the latched word is the command `i`. -/
def engineRuns (s : State) (i : Instr) : Prop := engineTurn s = true ∧ decode s.latch = .ok i

/-- The ERROR register after a command's error with none pending (R182, R183): INFO is the low half of the word. -/
def commandError (k : ErrorCode) (s : State) : ErrorReg :=
  { code := k, multi := false, src := .command, info := s.latch.extractLsb' 0 16 }

/-- The host actions that are no access outside the interface contract (R50). -/
def actionOk : HostAction → Bool
  | .read width off => WellFormed.access width off
  | .write width off _ => WellFormed.access width off
  | _ => true

end Sys2Proof.Safety
end

