-- ==== Sys2Proof/Certificates/Slice0/Obligations.lean ====
section
/-! DEFINITION. The statements for the provers. Each docstring names the rule of spec/ it formalises. -/

open Sys2Proof Sys2Proof.Machine Sys2Proof.Safety

/-! ### Encoding -/

/-- R80 to R85: every command, with every operand, is read back from its own word. -/
def Obligations.DecodeAfterEncode : Prop :=
  ∀ i : Instr, WellFormed.instr i = true → decode (encode i) = .ok i

/-- R80 to R85: a legal word is the word of the command it decodes to, so no two words share a command. -/
def Obligations.EncodeAfterDecode : Prop :=
  ∀ (w : Word) (i : Instr), decode w = .ok i → encode i = w

/-- R85: a word selects a row of the opcode map exactly when it decodes to that row's command, and at most one row. -/
def Obligations.WordSelectsOneRow : Prop :=
  ∀ (w : Word) (r : OpcodeRow), r ∈ opcodeMap →
    ((w &&& r.mask = r.pattern) ↔ ∃ i, decode w = .ok i ∧ mnemonicOf i = r.mnemonic) ∧
      ∀ r' ∈ opcodeMap, w &&& r.mask = r.pattern → w &&& r'.mask = r'.pattern → r = r'

/-- R87, R86, R183: at the engine's step a word that selects no row records ILLEGAL_COMMAND with INFO = w[15:0] (with an
error pending it only sets MULTI), BUSY is cleared, and there is no other effect. (When the engine's step comes, `engineTurn`,
and the clearing of the model's own field `delay` are the model's choice, log entry 4.) -/
def Obligations.IllegalWordIsRecorded : Prop :=
  ∀ s : State, engineTurn s = true → (∀ r ∈ opcodeMap, s.latch &&& r.mask ≠ r.pattern) →
    step s =
      .next
        { s with
          error := s.error.record .illegalCommand .command (s.latch.extractLsb' 0 16)
          busy := false
          delay := 0 }

/-- R81 to R83, R90: words written out from the spec's encodings. -/
def Obligations.SpecWordsDecode : Prop :=
  decode 0x00000000 = .ok .nop ∧ decode 0x00000001 = .ok .clearAll ∧ decode 0x00000002 = .ok .clearErr ∧
    decode 0x00000010 = .ok .treeSeed ∧ decode 0x00000011 = .ok .treeMerge ∧ decode 0x00000012 = .ok .treeBuild ∧
    decode 0x00000020 = .ok .codegen ∧ decode 0x00006130 = .ok (.encSym 0x61) ∧
    decode 0x00000140 = .ok (.decBit true) ∧ decode 0x00000040 = .ok (.decBit false) ∧
    decode 0x00000041 = .ok .decEnd ∧ decode 0x00000100 = .error .reservedBitSet ∧
    decode 0x00010030 = .error .reservedBitSet ∧ decode 0x00000240 = .error .reservedBitSet ∧
    decode 0x00000003 = .error .unmappedOpcode

/-- R86, R21: at the engine's step the latched word's command runs, and then BUSY is cleared, whatever it did. (`delay`
is the model's own field, log entry 4.) -/
def Obligations.StepRunsLatchedCommand : Prop :=
  ∀ (s : State) (i : Instr), s.busy = true → (s.delay = 0 ∨ s.host = []) → decode s.latch = .ok i →
    step s =
      match exec i s with
      | .next t => .next { t with busy := false, delay := 0 }
      | .fault r => .fault r
      | .refused r => .refused r

/-! ### Control commands -/

/-- R100: NOP changes nothing, an error pending or not. -/
def Obligations.NopChangesNothing : Prop := ∀ s : State, exec .nop s = .next s

/-- R101: CLEAR_ALL leaves every unit and ERROR as at reset; BUSY and LATCH (and the host's side) stay. -/
def Obligations.ClearAllResetsUnits : Prop :=
  ∀ s : State,
    exec .clearAll s =
      .next
        { State.reset with
          busy := s.busy, latch := s.latch, host := s.host, reads := s.reads, delay := s.delay, draws := s.draws,
          ties := s.ties }

/-- R102: CLEAR_ERR clears every field of ERROR and changes no other state. -/
def Obligations.ClearErrClearsError : Prop :=
  ∀ s : State,
    exec .clearErr s = .next { s with error := { code := .none, multi := false, src := .command, info := 0 } } ∧
      (errorWord s.error = 0 → exec .clearErr s = .next s)

/-! ### The tree builder -/

/-- R110: TREE_SEED allocates one leaf per present symbol, in ascending symbol order, and puts all of them in the queue. -/
def Obligations.TreeSeedAllocatesLeaves : Prop :=
  ∀ s : State, s.error.code = .none → s.treeState = .empty → Memory.wf s.freq = true → (∃ c, freqAt s c ≠ 0) →
    ∃ syms : List Symbol,
      (syms.Pairwise fun a b => a.toNat < b.toNat) ∧ (∀ c, c ∈ syms ↔ freqAt s c ≠ 0) ∧
        exec .treeSeed s =
          .next
            { s with
              nodes := syms.map fun c => .leaf c ((freqAt s c).setWidth 40)
              pq := List.range syms.length
              nsym := syms.length
              treeState := if syms.length = 1 then .built else .building
              root := if syms.length = 1 then 0 else s.root }

/-- R113, R115: TREE_MERGE extracts a node of minimum weight and then one of minimum weight of the rest, the first as
the left child, and allocates their parent at NODE_COUNT; with one node left in the queue the tree is BUILT. -/
def Obligations.TreeMergeJoinsTwoMinima : Prop :=
  ∀ s : State, s.error.code = .none → s.treeState = .building → 2 ≤ s.pq.length →
    (∀ i ∈ s.pq, i < s.nodes.length) → s.pq.Pairwise (· < ·) →
    ∃ l r : Nat,
      l ∈ s.pq ∧ (∀ j ∈ s.pq, nodeKey s.nodes l ≤ nodeKey s.nodes j) ∧
      r ∈ s.pq ∧ r ≠ l ∧ (∀ j ∈ s.pq, j ≠ l → nodeKey s.nodes r ≤ nodeKey s.nodes j) ∧
      exec .treeMerge s =
        .next
          { s with
            nodes := s.nodes ++ [.internal (weightOf s.nodes l + weightOf s.nodes r) l r]
            pq := (s.pq.filter fun i => i != l && i != r) ++ [s.nodes.length]
            treeState := if s.pq.length = 2 then .built else .building
            root := if s.pq.length = 2 then s.nodes.length else s.root
            ties := s.ties + 2 }

/-- R116, R119: TREE_BUILD ends in BUILT with 2k - 1 nodes, the last of them the root, after 2(k - 1) extractions when
started from EMPTY; nothing else changes. -/
def Obligations.TreeBuildFinishesTree : Prop :=
  ∀ s : State, Inv s → s.error.code = .none → s.treeState ≠ .built →
    (s.treeState = .empty → ∃ c, freqAt s c ≠ 0) →
    ∃ t : State,
      exec .treeBuild s = .next t ∧ t.treeState = .built ∧ t.nsym = presentCount s ∧ t.nodes.length + 1 = 2 * t.nsym ∧
        t.root + 1 = t.nodes.length ∧ t.pq = [t.root] ∧ s.nodes <+: t.nodes ∧
        (s.treeState = .empty → t.ties = s.ties + 2 * (t.nsym - 1)) ∧
        (s.treeState = .building → t.ties = s.ties + 2 * (s.pq.length - 1)) ∧
        t =
          { s with
            nodes := t.nodes, pq := t.pq, nsym := t.nsym, treeState := t.treeState, root := t.root, ties := t.ties }

/-- R116: TREE_BUILD from EMPTY is TREE_SEED followed by k - 1 TREE_MERGE commands, and from BUILDING it is the remaining
merges, under the same TIE_SELECT choices. -/
def Obligations.TreeBuildIsSeedThenMerges : Prop :=
  ∀ s : State, Inv s → s.error.code = .none →
    (s.treeState = .empty → (∃ c, freqAt s c ≠ 0) →
      exec .treeBuild s = runCommands (.treeSeed :: List.replicate (presentCount s - 1) .treeMerge) s) ∧
    (s.treeState = .building → exec .treeBuild s = runCommands (List.replicate (s.pq.length - 1) .treeMerge) s)

/-- R181, R110, R115, R116, R130: the errors of the tree and table commands, in check order; no state but ERROR changes. -/
def Obligations.TreeCommandErrors : Prop :=
  ∀ s : State, s.error.code = .none →
    (s.treeState ≠ .empty → exec .treeSeed s = .next { s with error := commandError .sequence s }) ∧
    (s.treeState ≠ .building → exec .treeMerge s = .next { s with error := commandError .sequence s }) ∧
    (s.treeState = .built → exec .treeBuild s = .next { s with error := commandError .sequence s }) ∧
    (s.treeState ≠ .built → exec .codegen s = .next { s with error := commandError .sequence s }) ∧
    (s.treeState = .empty → Memory.wf s.freq = true → (∀ c, freqAt s c = 0) →
      exec .treeSeed s = .next { s with error := commandError .emptyAlphabet s } ∧
        exec .treeBuild s = .next { s with error := commandError .emptyAlphabet s })

/-- R112, R13: the tree commands use a TIE_SELECT that picks a member of the candidates, and among two or more the choice is
open: for every member some choice function picks it. -/
def Obligations.EveryTieIsAdmitted : Prop :=
  (∀ s, exec .treeMerge s = treeMergeWith (tieSelectOf Config.tieChoice) s) ∧
  (∀ s, exec .treeBuild s = treeBuildWith (tieSelectOf Config.tieChoice) s) ∧
  (∀ choice, LawfulTie (tieSelectOf choice)) ∧
  (∀ (n : Nat) (c : List Nat) (i : Nat), i ∈ c → ∃ choice, tieSelectOf choice n c = i)

/-- R117: the built tree is one binary tree rooted at ROOT whose leaves are the present symbols, each once, and every
internal node comes after both its children. -/
def Obligations.BuiltTreeShape : Prop :=
  ∀ s : State, Inv s → s.treeState = .built →
    (∃ T, builtTree s = some T ∧ T.leaves.Nodup ∧ ∀ c, c ∈ T.leaves ↔ freqAt s c ≠ 0) ∧
    (∀ j < s.nodes.length, ∃! p, descend s.nodes s.root p = some j) ∧
    (∀ (i : Nat) w l r, s.nodes[i]? = some (.internal w l r) → l < i ∧ r < i ∧ l ≠ r)

/-- R114: an internal node's weight is the exact sum of its children's weights, and every node's weight is the sum of FREQ
over the leaves below it, at most the sum of all FREQ entries, which is less than 2^40. -/
def Obligations.WeightsAreExactSums : Prop :=
  ∀ s : State, Inv s → s.treeState ≠ .empty →
    (∀ (i : Nat) w l r, s.nodes[i]? = some (.internal w l r) → w.toNat = nodeKey s.nodes l + nodeKey s.nodes r) ∧
    (∀ i T, treeAt s.nodes s.nodes.length i = some T → nodeKey s.nodes i = T.weight (count s)) ∧
    (∀ i < s.nodes.length, nodeKey s.nodes i ≤ freqTotal s) ∧ freqTotal s < 2 ^ 40 ∧ queueWeight s = freqTotal s

/-- R118: whatever the ties, TREE_BUILD from EMPTY builds a tree of minimal weighted path length among all binary trees
whose leaves are the present symbols. -/
def Obligations.BuiltTreeIsOptimal : Prop :=
  ∀ (tie : TieSelect), LawfulTie tie → ∀ s : State, Inv s → s.error.code = .none → s.treeState = .empty →
    (∃ c, freqAt s c ≠ 0) →
    ∃ (t : State) (T : SymTree),
      treeBuildWith tie s = .next t ∧ builtTree t = some T ∧ T.leaves.Nodup ∧
        (∀ c, c ∈ T.leaves ↔ freqAt s c ≠ 0) ∧
        ∀ U : SymTree, U.leaves.Perm T.leaves → T.pathLength (count s) 0 ≤ U.pathLength (count s) 0

/-! ### The code table -/

/-- R130, R131: CODEGEN writes, for each leaf, the path from ROOT to it (0 left, 1 right), or the fallback "0" for a root
that is a leaf; MAXLEN is the largest length; nothing else changes. Run again it rewrites the same table. -/
def Obligations.CodegenWritesPaths : Prop :=
  ∀ s : State, Inv s → s.error.code = .none → s.treeState = .built →
    ∃ (tab : CodeTable) (m : Nat),
      exec .codegen s = .next { s with code := tab, maxLen := m, codeValid := true } ∧
        rising tab ∧
        (∀ c w, s.nodes[s.root]? = some (.leaf c w) → tab = [(c, [false])]) ∧
        (∀ w l r, s.nodes[s.root]? = some (.internal w l r) →
          ∀ c p, (c, p) ∈ tab ↔ ∃ j w', descend s.nodes s.root p = some j ∧ s.nodes[j]? = some (.leaf c w')) ∧
        (∀ e ∈ tab, e.2.length ≤ m) ∧ (∃ e ∈ tab, e.2.length = m) ∧
        (s.codeValid = true → tab = s.code ∧ m = s.maxLen)

/-- R131: with one symbol the table is that symbol's 1-bit code "0" and MAXLEN = 1; no valid code is ever empty. -/
def Obligations.SingleSymbolGetsFallback : Prop :=
  ∀ s : State, Inv s →
    (s.codeValid = true → s.nsym = 1 →
      ∃ c, (∀ d, freqAt s d ≠ 0 ↔ d = c) ∧ (∀ d, codeAt s d = if d = c then some [false] else none) ∧ s.maxLen = 1) ∧
    ∀ c, codeAt s c ≠ some []

/-- R32, R131, R8: a valid code is not empty and at most 255 bits long. -/
def Obligations.CodeLengthsAreBounded : Prop :=
  ∀ s : State, Inv s → ∀ c p, codeAt s c = some p → 1 ≤ p.length ∧ p.length ≤ 255

/-- R132: no valid code is a prefix of another, and no two valid entries have equal bits. -/
def Obligations.CodesArePrefixFree : Prop :=
  ∀ s : State, Inv s → ∀ c d p q, codeAt s c = some p → codeAt s d = some q → p <+: q → c = d

/-- R133: for k >= 2 the valid codes fill the space: sum of 2^(-len) = 1, and every bit string of length MAXLEN has exactly
one valid code as a prefix; for k = 1 the sum is 1/2 and "1" has no code as a prefix. (Both sides of the sums are multiplied by 2^MAXLEN.) -/
def Obligations.CodesAreComplete : Prop :=
  ∀ s : State, Inv s → s.codeValid = true →
    (2 ≤ s.nsym →
      (s.code.map fun e => 2 ^ (s.maxLen - e.2.length)).sum = 2 ^ s.maxLen ∧
        ∀ w : Bits, w.length = s.maxLen → ∃! c, ∃ p, codeAt s c = some p ∧ p <+: w) ∧
    (s.nsym = 1 →
      2 * (s.code.map fun e => 2 ^ (s.maxLen - e.2.length)).sum = 2 ^ s.maxLen ∧
        ∀ c p, codeAt s c = some p → ¬ p <+: [true])

/-- R134: the sum of FREQ times code length is the weighted path length of the built tree for k >= 2, and the one count
for k = 1; it is the number of bits of any text in which each symbol stands FREQ times. -/
def Obligations.WeightedCodeLength : Prop :=
  ∀ s : State, Inv s → s.codeValid = true →
    (2 ≤ s.nsym →
      ∃ T, builtTree s = some T ∧
        (s.code.map fun e => count s e.1 * e.2.length).sum = T.pathLength (count s) 0) ∧
    (s.nsym = 1 → (s.code.map fun e => count s e.1 * e.2.length).sum = freqTotal s) ∧
    ∀ text : List Symbol, (∀ c, text.count c = count s c) →
      (text.flatMap fun c => (codeAt s c).getD []).length = (s.code.map fun e => count s e.1 * e.2.length).sum

/-! ### The encoder -/

/-- R140: ENC_SYM appends the symbol's whole code to ENCQ and changes nothing else. -/
def Obligations.EncSymAppendsCode : Prop :=
  ∀ (s : State) (c : Symbol) (p : Bits), s.error.code = .none → s.codeValid = true → codeAt s c = some p →
    s.encq.length + p.length ≤ 512 →
    exec (.encSym c) s = .next { s with encq := s.encq ++ p }

/-- R140, R141: commands ENC_SYM s1 … sn append the codes of s1 … sn in order, when all have codes and they fit. -/
def Obligations.EncoderConcatenatesInOrder : Prop :=
  ∀ (s : State) (syms : List Symbol), s.error.code = .none → s.codeValid = true →
    (∀ c ∈ syms, (codeAt s c).isSome) →
    s.encq.length + (syms.flatMap fun c => (codeAt s c).getD []).length ≤ 512 →
    runCommands (syms.map .encSym) s = .next { s with encq := s.encq ++ syms.flatMap fun c => (codeAt s c).getD [] }

/-! ### The prefix decoder -/

/-- R151: one accepted bit: on a match the symbol goes to DECQ and DBUF is emptied; without one the bit stays in DBUF, or,
once MAXLEN bits are reached, DBUF is emptied and UNKNOWN_CODE recorded. -/
def Obligations.DecBitMatchesOrExtends : Prop :=
  ∀ (s : State) (bit : Bool), s.error.code = .none → s.codeValid = true → s.decq.length ≠ 16 → rising s.code →
    (∀ c, (∀ d, codeAt s d = some (s.dbuf ++ [bit]) ↔ d = c) →
      exec (.decBit bit) s = .next { s with decq := s.decq ++ [c], dbuf := [] }) ∧
    ((∀ d, codeAt s d ≠ some (s.dbuf ++ [bit])) → s.dbuf.length + 1 < s.maxLen →
      exec (.decBit bit) s = .next { s with dbuf := s.dbuf ++ [bit] }) ∧
    ((∀ d, codeAt s d ≠ some (s.dbuf ++ [bit])) → s.maxLen ≤ s.dbuf.length + 1 →
      exec (.decBit bit) s = .next { s with dbuf := [], error := commandError .unknownCode s })

/-- R152: without a table DEC_END records SEQUENCE; with one it changes nothing when DBUF is empty, and else empties it and
records TRUNCATED_OR_CORRUPT_INPUT. -/
def Obligations.DecEndChecksLeftover : Prop :=
  ∀ s : State, s.error.code = .none →
    (s.codeValid = false → exec .decEnd s = .next { s with error := commandError .sequence s }) ∧
    (s.codeValid = true → s.dbuf = [] → exec .decEnd s = .next s) ∧
    (s.codeValid = true → s.dbuf ≠ [] →
      exec .decEnd s = .next { s with dbuf := [], error := commandError .truncatedOrCorruptInput s })

/-- R181, R140, R151, R152: the errors of the encoder and the decoder commands, in check order, that leave all state but
ERROR unchanged. -/
def Obligations.StreamCommandErrors : Prop :=
  ∀ s : State, s.error.code = .none →
    (s.codeValid = false →
      (∀ c, exec (.encSym c) s = .next { s with error := commandError .sequence s }) ∧
      (∀ b, exec (.decBit b) s = .next { s with error := commandError .sequence s }) ∧
      exec .decEnd s = .next { s with error := commandError .sequence s }) ∧
    (s.codeValid = true →
      (∀ c, codeAt s c = none → exec (.encSym c) s = .next { s with error := commandError .unknownSymbol s }) ∧
      (∀ c p, codeAt s c = some p → 512 < s.encq.length + p.length →
        exec (.encSym c) s = .next { s with error := commandError .outFull s }) ∧
      (s.decq.length = 16 → ∀ b, exec (.decBit b) s = .next { s with error := commandError .outFull s }))

/-- R153: the decoder inverts the encoder. A stream of codes fed bit by bit from an empty DBUF, with reads of DEC_OUT_DATA
anywhere in between, yields exactly the encoded symbols in order, ends with DBUF empty, and a following DEC_END records no
error, provided no error (OUT_FULL) was recorded. -/
def Obligations.DecodingInvertsEncoding : Prop :=
  ∀ (s : State) (syms : List Symbol) (stream : List (Option Bool)), Inv s → s.error.code = .none →
    s.codeValid = true → s.dbuf = [] → (∀ c ∈ syms, (codeAt s c).isSome) →
    stream.filterMap id = (syms.flatMap fun c => (codeAt s c).getD []) →
    ∃ (out : List Symbol) (t : State),
      feedDecoder stream s = some (out, t) ∧ (t.error.code = .none ∨ t.error.code = .outFull) ∧
        (t.error.code = .none → out ++ t.decq = s.decq ++ syms ∧ t.dbuf = [] ∧ exec .decEnd t = .next t)

/-- R154: with two or more symbols DEC_BIT never raises UNKNOWN_CODE; with one symbol it does exactly on a 1 bit. DBUF stays
shorter than MAXLEN. -/
def Obligations.UnknownCodeOnlyForOneSymbol : Prop :=
  ∀ (s : State) (bit : Bool), Inv s → s.error.code = .none → s.codeValid = true → s.decq.length ≠ 16 →
    ∃ t, exec (.decBit bit) s = .next t ∧ (t.error.code = .unknownCode ↔ s.nsym = 1 ∧ bit = true) ∧
      t.dbuf.length < s.maxLen

/-! ### Errors -/

/-- R183: the first error is recorded with its source and INFO, a later one only sets MULTI; nothing else changes. -/
def Obligations.FirstErrorIsKept : Prop :=
  ∀ (k : ErrorCode) (src : ErrorSource) (info : BitVec 16) (s : State),
    (s.error.code = .none →
      recordError k src info s = { s with error := { code := k, src := src, info := info, multi := false } }) ∧
    (s.error.code ≠ .none → recordError k src info s = { s with error := { s.error with multi := true } })

/-- R185, R86: while an error is pending every command but NOP, CLEAR_ALL and CLEAR_ERR is rejected: MULTI is set and
nothing else happens. -/
def Obligations.PendingErrorGatesCommands : Prop :=
  ∀ (s : State) (i : Instr), s.error.code ≠ .none → i ≠ .nop → i ≠ .clearAll → i ≠ .clearErr →
    exec i s = .next { s with error := { s.error with multi := true } }

/-- R184, R182: a command that records an error changes no state but ERROR, except that UNKNOWN_CODE of DEC_BIT and
TRUNCATED_OR_CORRUPT_INPUT of DEC_END empty DBUF; INFO is the low half of its word. -/
def Obligations.ErrorsArePrecise : Prop :=
  ∀ (s t : State) (i : Instr), s.error.code = .none → exec i s = .next t → t.error.code ≠ .none →
    t.error = commandError t.error.code s ∧
      (t = { s with error := t.error } ∨
        (((∃ b, i = .decBit b) ∧ t.error.code = .unknownCode) ∨
            (i = .decEnd ∧ t.error.code = .truncatedOrCorruptInput)) ∧
          t = { s with error := t.error, dbuf := [] })

/-- R24, R188: once recorded, CODE, SRC and INFO stay until CLEAR_ERR, CLEAR_ALL or the platform's Reset. -/
def Obligations.RecordedErrorStays : Prop :=
  ∀ s t : State, step s = .next t → s.error.code ≠ .none →
    (t.error.code = s.error.code ∧ t.error.src = s.error.src ∧ t.error.info = s.error.info) ∨
      engineRuns s .clearErr ∨ engineRuns s .clearAll ∨ hostMoves s .reset

/-- R187, R66: a write while a command is in flight, whatever its offset, records BUSY_ERR first, so the command in flight
then meets the gate: unless it is NOP, CLEAR_ALL or CLEAR_ERR it is rejected with MULTI = 1; those three run as usual, and the
two clears clear the BUSY_ERR. -/
def Obligations.BusyWriteCancelsCommand : Prop :=
  ∀ (s : State) (off : Offset) (v : Word), s.busy = true → s.error.code = .none →
    memWrite off v s = { s with error := { code := .busyErr, multi := false, src := .access, info := off } } ∧
    (∀ i : Instr, i ≠ .nop → i ≠ .clearAll → i ≠ .clearErr →
      exec i (memWrite off v s) =
        .next { s with error := { code := .busyErr, multi := true, src := .access, info := off } }) ∧
    exec .nop (memWrite off v s) = .next (memWrite off v s) ∧
    exec .clearErr (memWrite off v s) = .next { s with error := ErrorReg.clear } ∧
    exec .clearAll (memWrite off v s) = exec .clearAll s

/-! ### Host accesses -/

/-- R50: an access of another width or at an offset that is not a multiple of 4 is refused. -/
def Obligations.BadAccessIsRefused : Prop :=
  ∀ (s : State) (width : Nat) (off : Offset) (v : Word), width ≠ 32 ∨ off.toNat % 4 ≠ 0 →
    (hostMoves s (.read width off) → step s = .refused .badAccess) ∧
    (hostMoves s (.write width off v) → step s = .refused .badAccess)

/-- R62, R165, R166, R227, R91: at the host's move an access of 32 bits at a multiple of 4 is performed; a read's value joins
the values the reads returned; WAIT reads STATUS and stays the next action while BUSY reads 1. (`delay` counts host actions,
log entry 4.) -/
def Obligations.StepPerformsAccess : Prop :=
  ∀ (s : State) (off : Offset) (v : Word) (rest : List HostAction), engineTurn s = false → off.toNat % 4 = 0 →
    (s.host = .read 32 off :: rest →
      ∃ u : State, u = { s with host := rest, delay := s.delay - 1 } ∧
        step s = .next { (memRead off u).2 with reads := s.reads ++ [(memRead off u).1] }) ∧
    (s.host = .write 32 off v :: rest →
      step s = .next (memWrite off v { s with host := rest, delay := s.delay - 1 })) ∧
    (s.host = .wait :: rest →
      step s =
        .next
          { s with
            host := if s.busy then .wait :: rest else rest
            reads := s.reads ++ [statusWord s]
            delay := s.delay - 1 })

/-- R91: the expansions of DRAIN_ENC and DRAIN_DEC, one access a step, while no command is in flight: the count is read, then
ENC_OUT_DATA until all those bits are taken, or DEC_OUT_DATA once for each of those symbols. (`delay` counts host actions, log
entry 4.) -/
def Obligations.DrainsReadTheirCount : Prop :=
  ∀ (s : State) (c : Nat) (rest : List HostAction), s.busy = false → s.encq.length ≤ 512 → s.decq.length ≤ 16 →
    (s.host = .drainEnc :: rest →
      step s =
        .next
          { s with
            host := if s.encq = [] then rest else .drainEncBits s.encq.length :: rest
            reads := s.reads ++ [BitVec.ofNat 32 s.encq.length]
            delay := s.delay - 1 }) ∧
    (s.host = .drainEncBits c :: rest →
      step s =
        .next
          { s with
            encq := s.encq.drop 32
            host := if c ≤ 32 then rest else .drainEncBits (c - 32) :: rest
            reads := s.reads ++ [(memRead 0x002C s).1]
            delay := s.delay - 1 }) ∧
    (s.host = .drainDec :: rest →
      step s =
        .next
          { s with
            host := if s.decq = [] then rest else .drainDecSyms s.decq.length :: rest
            reads := s.reads ++ [BitVec.ofNat 32 s.decq.length]
            delay := s.delay - 1 }) ∧
    (s.host = .drainDecSyms c :: rest →
      step s =
        .next
          { s with
            decq := s.decq.drop 1
            host := if c ≤ 1 then rest else .drainDecSyms (c - 1) :: rest
            reads := s.reads ++ [(memRead 0x0034 s).1]
            delay := s.delay - 1 })

/-- R176, R178, R169, R171: ID, PARAMS, and STATUS and ERROR field by field, at any time, and the other plain registers while
BUSY = 0, each read without side effect. The numbers of TREE_STATE are those of R23 and R25, SRC is 0 for a command and 1 for
an access (R24), and the nine error codes are those of R180. -/
def Obligations.PlainRegistersRead : Prop :=
  (∀ s : State,
    memRead 0x0000 s = (0x48554646, s) ∧ memRead 0x0004 s = (0x20100200, s) ∧
    (memRead 0x000C s).2 = s ∧ (memRead 0x0010 s).2 = s ∧
    (memRead 0x000C s).1.toNat =
      s.codeValid.toNat * 16 +
        (match s.treeState with
          | .empty => 0
          | .building => 1
          | .built => 2) * 4 +
        (decide (s.error.code ≠ .none)).toNat * 2 + s.busy.toNat ∧
    (memRead 0x0010 s).1.toNat =
      s.error.info.toNat * 2 ^ 16 +
        (match s.error.src with
          | .command => 0
          | .access => 1) * 2 ^ 9 +
        s.error.multi.toNat * 2 ^ 8 +
        (match s.error.code with
          | .none => 0x00
          | .emptyAlphabet => 0x01
          | .unknownSymbol => 0x02
          | .truncatedOrCorruptInput => 0x03
          | .unknownCode => 0x04
          | .illegalCommand => 0x10
          | .sequence => 0x11
          | .outFull => 0x12
          | .busyErr => 0x13)) ∧
  ∀ s : State, s.busy = false →
    memRead 0x0008 s = (0, s) ∧ memRead 0x0014 s = (BitVec.ofNat 32 s.nsym, s) ∧ memRead 0x0018 s = (BitVec.ofNat 32 s.root, s) ∧
    memRead 0x001C s = (BitVec.ofNat 32 s.nodes.length, s) ∧ memRead 0x0020 s = (BitVec.ofNat 32 s.pq.length, s) ∧
    memRead 0x0024 s = (BitVec.ofNat 32 s.maxLen, s) ∧ memRead 0x0028 s = (BitVec.ofNat 32 s.encq.length, s) ∧
    memRead 0x0030 s = (BitVec.ofNat 32 s.decq.length, s)

/-- R66: while BUSY = 1, ID, PARAMS, STATUS and ERROR read their current values; every other offset reads an unspecified
value with no side effect (the count of draws is the model's, log entry 3); every write is dropped and records BUSY_ERR. -/
def Obligations.AccessesWhileBusy : Prop :=
  ∀ (s : State) (off : Offset) (v : Word), s.busy = true → off.toNat % 4 = 0 →
    (off = 0x0000 → memRead off s = (0x48554646, s)) ∧ (off = 0x0004 → memRead off s = (0x20100200, s)) ∧
    (off = 0x000C → memRead off s = (statusWord s, s)) ∧ (off = 0x0010 → memRead off s = (errorWord s.error, s)) ∧
    (off ≠ 0x0000 → off ≠ 0x0004 → off ≠ 0x000C → off ≠ 0x0010 →
      memRead off s = (Config.freeWord s.draws, { s with draws := s.draws + 1 })) ∧
    memWrite off v s = { s with error := s.error.record .busyErr .access off }

/-- R167, R168: a FREQ write sets that one entry while EMPTY, and is dropped with SEQUENCE once the builder has seeded; a FREQ
read returns its entry in every TREE_STATE, without side effect. (That the store is a list with a canonical form, which the
write keeps, is the model's choice, log entry 16.) -/
def Obligations.FreqWriteAndRead : Prop :=
  ∀ (s : State) (c : Symbol) (v : Word) (off : Offset), s.busy = false → off.toNat = 0x0400 + 4 * c.toNat →
    (s.treeState = .empty →
      ∃ f : Memory, memWrite off v s = { s with freq := f } ∧
        (∀ d, Memory.read f d = if d = c then v else Memory.read s.freq d) ∧
        (Memory.wf s.freq = true → Memory.wf f = true)) ∧
    (s.treeState ≠ .empty → memWrite off v s = { s with error := s.error.record .sequence .access off }) ∧
    memRead off s = (freqAt s c, s)

/-- R166, R177, R53, R54: while BUSY = 0 a CMD write latches the word, whatever it is, and sets BUSY (the latency drawn for
it is a free value, log entry 4); a write to any offset but CMD and the FREQ window changes nothing and records no error;
a reserved offset reads 0 without side effect. -/
def Obligations.CmdWriteLatchesOthersIgnored : Prop :=
  ∀ (s : State) (off : Offset) (v : Word), s.busy = false → off.toNat % 4 = 0 →
    (off = 0x0008 →
      memWrite off v s =
        { s with latch := v, busy := true, delay := Config.latency s.draws, draws := s.draws + 1 }) ∧
    (off ≠ 0x0008 → (off.toNat < 0x0400 ∨ 0x0800 ≤ off.toNat) → memWrite off v s = s) ∧
    ((off = 0x003C ∨ (0x0060 ≤ off.toNat ∧ off.toNat < 0x0400) ∨ (0x0800 ≤ off.toNat ∧ off.toNat < 0x1000) ∨
        (0x2FF0 ≤ off.toNat ∧ off.toNat < 0x4000) ∨ 0x8000 ≤ off.toNat) →
      memRead off s = (0, s))

/-- R170: ENC_OUT_DATA returns up to 32 bits, the oldest at bit 31 and 0 below the last, and removes exactly them. R172:
DEC_OUT_DATA returns VALID and the oldest symbol and removes it, or 0 when there is none. -/
def Obligations.OutputReadsPop : Prop :=
  ∀ s : State, s.busy = false →
    (∃ v : Word, memRead 0x002C s = (v, { s with encq := s.encq.drop 32 }) ∧
      ∀ j < 32, v.getLsbD (31 - j) = (s.encq[j]?).getD false) ∧
    (s.decq = [] → memRead 0x0034 s = (0, s)) ∧
    (∀ c rest, s.decq = c :: rest →
      ∃ v : Word, memRead 0x0034 s = (v, { s with decq := rest }) ∧ v.toNat = 256 + c.toNat)

/-- R55, R174: the four words of a leaf (LEFT and RIGHT 0), the four words of an internal node (SYMBOL 0), and an unspecified
value for a node that is not allocated. (An unspecified value is a free word and advances the model's own count of draws, log
entry 3.) -/
def Obligations.NodeWindow : Prop :=
  ∀ (s : State) (i k : Nat) (off : Offset), s.busy = false → i < 511 → k < 4 → off.toNat = 0x1000 + 16 * i + 4 * k →
    (∀ (c : Symbol) (w : Weight), s.nodes[i]? = some (.leaf c w) →
      (memRead off s).2 = s ∧
      (memRead off s).1.toNat =
        if k = 0 then c.toNat * 256 + (decide (i ∈ s.pq)).toNat * 2 + 1
        else if k = 1 then w.toNat % 2 ^ 32
        else if k = 2 then w.toNat / 2 ^ 32
        else 0) ∧
    (∀ (w : Weight) (l r : Nat), s.nodes[i]? = some (.internal w l r) → (k = 3 → l < 512 ∧ r < 512) →
      (memRead off s).2 = s ∧
      (memRead off s).1.toNat =
        if k = 0 then (decide (i ∈ s.pq)).toNat * 2
        else if k = 1 then w.toNat % 2 ^ 32
        else if k = 2 then w.toNat / 2 ^ 32
        else r * 2 ^ 16 + l) ∧
    (s.nodes.length ≤ i → memRead off s = (Config.freeWord s.draws, { s with draws := s.draws + 1 }))

/-- R56, R175: the sixteen words of a CODE entry: VALID and LEN, the code as a right-aligned 256-bit number, least significant
word first, and zeros; an invalid entry reads 0. R57, R173: DEC_BUF_BITS shows DBUF in the same way, and DEC_BUF_LEN its
length. -/
def Obligations.BitStringWindows : Prop :=
  (∀ (s : State) (c : Symbol) (k : Nat) (off : Offset), s.busy = false → k < 16 →
    off.toNat = 0x4000 + 64 * c.toNat + 4 * k →
    (memRead off s).2 = s ∧
    (codeAt s c = none → (memRead off s).1 = 0) ∧
    (∀ p, codeAt s c = some p → p.length ≤ 255 →
      (memRead off s).1.toNat =
        if k = 0 then p.length * 256 + 1
        else if k ≤ 8 then bitsVal p / 2 ^ (32 * (k - 1)) % 2 ^ 32
        else 0)) ∧
  (∀ (s : State) (j : Nat) (off : Offset), s.busy = false → j < 8 → s.dbuf.length ≤ 254 →
    off.toNat = 0x0040 + 4 * j →
    (memRead off s).2 = s ∧ (memRead off s).1.toNat = bitsVal s.dbuf / 2 ^ (32 * j) % 2 ^ 32) ∧
  ∀ s : State, s.busy = false → memRead 0x0038 s = (BitVec.ofNat 32 s.dbuf.length, s)

/-- R16: `val` is the number whose binary form, most significant bit first, is the bit string. -/
def Obligations.ValIsBinaryNumber : Prop :=
  ∀ p : Bits, bitsVal p < 2 ^ p.length ∧
    bitsVal p = ((List.range p.length).map fun i => ((p[i]?).getD false).toNat * 2 ^ (p.length - 1 - i)).sum

/-- R59, R165: while BUSY = 0 a read changes nothing but ENCQ at ENC_OUT_DATA and DECQ at DEC_OUT_DATA. (A draw for a node
that is not allocated advances the model's own count.) -/
def Obligations.ReadSideEffects : Prop :=
  ∀ (s : State) (off : Offset), s.busy = false → off.toNat % 4 = 0 →
    ∃ (e : Bits) (d : List Symbol) (n : Nat),
      (memRead off s).2 = { s with encq := e, decq := d, draws := n } ∧
        (off ≠ 0x002C → e = s.encq) ∧ (off ≠ 0x0034 → d = s.decq)

/-- R51: on a byte-wide bus a word is its four bytes, least significant first, and comes back whole. -/
def Obligations.BusBytesAreLittleEndian : Prop :=
  ∀ w : Word, wordOfBusBytes (busBytes w) = some w ∧
    ∀ k < 4, ((busBytes w)[k]?.map BitVec.toNat) = some (w.toNat / 2 ^ (8 * k) % 256)

/-! ### Reset, invariants and whole-machine rules -/

/-- R211, R212, R41: the platform's Reset, also while a command is in flight, leaves every unit at its reset value, BUSY 0
and LATCH any value; STATUS and ERROR read 0 after it. (The host's side of the run stays, log entry 14.) -/
def Obligations.PlatformReset : Prop :=
  ∀ (s : State) (rest : List HostAction), engineTurn s = false → s.host = .reset :: rest →
    ∃ t : State,
      step s = .next t ∧
        t =
          { State.reset with
            latch := Config.freeWord s.draws, draws := s.draws + 1, host := rest, reads := s.reads, ties := s.ties } ∧
        (memRead 0x000C t).1 = 0 ∧ (memRead 0x0010 t).1 = 0

/-- R41, R211: the state after reset, with any host program, meets the invariant. -/
def Obligations.ResetMeetsInvariant : Prop := ∀ program : List HostAction, Inv (loadProgram program State.reset)

/-- R42, R28 to R32, R117: every step keeps the invariant, from any state. -/
def Obligations.StepKeepsInvariant : Prop := ∀ s t : State, Inv s → step s = .next t → Inv t

/-- R42: every state reachable from reset, under any host program, has the listed properties. -/
def Obligations.ReachableStatesMeetR42 : Prop := ∀ s : State, Reachable s → RunProperties s

/-- R229: the block never faults and is never stuck: under the invariant a step answers a next state unless it is the host's
move and its access is outside the interface contract. -/
def Obligations.BlockNeverStops : Prop :=
  ∀ s : State, Inv s →
    (∃ t, step s = .next t) ∨ (∃ a, hostMoves s a ∧ actionOk a = false ∧ step s = .refused .badAccess)

/-- R224, R21: a command in flight completes: within `delay` + 1 steps BUSY is 0 again, when the host's accesses are inside
the interface contract. (`delay`, the latency left, is a free finite value, log entry 4.) -/
def Obligations.CommandsComplete : Prop :=
  ∀ s : State, Inv s → s.busy = true → (∀ a ∈ s.host, actionOk a = true) →
    ∃ (k : Nat) (t : State), k ≤ s.delay + 1 ∧ core.run k s = .next t ∧ t.busy = false

/-- R197: with BUSY = 0 and no access the block does nothing. -/
def Obligations.IdleBlockStays : Prop := ∀ s : State, s.busy = false → s.host = [] → step s = .next s

/-- R28: once a node is allocated nothing changes it until CLEAR_ALL or reset. -/
def Obligations.AllocatedNodesStay : Prop :=
  ∀ s t : State, Inv s → step s = .next t →
    s.nodes <+: t.nodes ∨ engineRuns s .clearAll ∨ hostMoves s .reset

/-- R27, R167: FREQ changes only by a FREQ write while EMPTY, by CLEAR_ALL and by reset. -/
def Obligations.FreqChangesOnlyWhileEmpty : Prop :=
  ∀ s t : State, step s = .next t →
    t.freq = s.freq ∨ engineRuns s .clearAll ∨ hostMoves s .reset ∨
      (s.treeState = .empty ∧ s.busy = false ∧
        ∃ off v, hostMoves s (.write 32 off v) ∧ 0x0400 ≤ off.toNat ∧ off.toNat < 0x0800)

/-- R25: the transitions of TREE_STATE. -/
def Obligations.TreeStateTransitions : Prop :=
  ∀ s t : State, step s = .next t →
    t.treeState = s.treeState ∨
      (t.treeState = .empty ∧ (engineRuns s .clearAll ∨ hostMoves s .reset)) ∨
      (s.treeState = .empty ∧ (engineRuns s .treeSeed ∨ engineRuns s .treeBuild)) ∨
      (s.treeState = .building ∧ t.treeState = .built ∧ (engineRuns s .treeMerge ∨ engineRuns s .treeBuild))

/-- R32, R26: CODE, MAXLEN and CODE_VALID change only by CODEGEN, CLEAR_ALL and reset. -/
def Obligations.OnlyCodegenWritesCode : Prop :=
  ∀ s t : State, step s = .next t →
    (t.code = s.code ∧ t.maxLen = s.maxLen ∧ t.codeValid = s.codeValid) ∨
      engineRuns s .codegen ∨ engineRuns s .clearAll ∨ hostMoves s .reset
end

