-- ==== Sys2Proof/Laws/State.lean ====
section
/-! SUPPORT. For each named update of the state, one lemma per field: what it writes and what it leaves. -/

namespace Sys2Proof.Machine

variable (s : State)

/-! ### recordError -/

@[simp] theorem recordError_busy (k : ErrorCode) (src : ErrorSource) (x : BitVec 16) : (recordError k src x s).busy = s.busy := rfl
@[simp] theorem recordError_latch (k : ErrorCode) (src : ErrorSource) (x : BitVec 16) : (recordError k src x s).latch = s.latch := rfl
@[simp] theorem recordError_error (k : ErrorCode) (src : ErrorSource) (x : BitVec 16) : (recordError k src x s).error = s.error.record k src x := rfl
@[simp] theorem recordError_treeState (k : ErrorCode) (src : ErrorSource) (x : BitVec 16) : (recordError k src x s).treeState = s.treeState := rfl
@[simp] theorem recordError_codeValid (k : ErrorCode) (src : ErrorSource) (x : BitVec 16) : (recordError k src x s).codeValid = s.codeValid := rfl
@[simp] theorem recordError_freq (k : ErrorCode) (src : ErrorSource) (x : BitVec 16) : (recordError k src x s).freq = s.freq := rfl
@[simp] theorem recordError_nodes (k : ErrorCode) (src : ErrorSource) (x : BitVec 16) : (recordError k src x s).nodes = s.nodes := rfl
@[simp] theorem recordError_pq (k : ErrorCode) (src : ErrorSource) (x : BitVec 16) : (recordError k src x s).pq = s.pq := rfl
@[simp] theorem recordError_nsym (k : ErrorCode) (src : ErrorSource) (x : BitVec 16) : (recordError k src x s).nsym = s.nsym := rfl
@[simp] theorem recordError_root (k : ErrorCode) (src : ErrorSource) (x : BitVec 16) : (recordError k src x s).root = s.root := rfl
@[simp] theorem recordError_code (k : ErrorCode) (src : ErrorSource) (x : BitVec 16) : (recordError k src x s).code = s.code := rfl
@[simp] theorem recordError_maxLen (k : ErrorCode) (src : ErrorSource) (x : BitVec 16) : (recordError k src x s).maxLen = s.maxLen := rfl
@[simp] theorem recordError_encq (k : ErrorCode) (src : ErrorSource) (x : BitVec 16) : (recordError k src x s).encq = s.encq := rfl
@[simp] theorem recordError_decq (k : ErrorCode) (src : ErrorSource) (x : BitVec 16) : (recordError k src x s).decq = s.decq := rfl
@[simp] theorem recordError_dbuf (k : ErrorCode) (src : ErrorSource) (x : BitVec 16) : (recordError k src x s).dbuf = s.dbuf := rfl
@[simp] theorem recordError_host (k : ErrorCode) (src : ErrorSource) (x : BitVec 16) : (recordError k src x s).host = s.host := rfl
@[simp] theorem recordError_reads (k : ErrorCode) (src : ErrorSource) (x : BitVec 16) : (recordError k src x s).reads = s.reads := rfl
@[simp] theorem recordError_delay (k : ErrorCode) (src : ErrorSource) (x : BitVec 16) : (recordError k src x s).delay = s.delay := rfl
@[simp] theorem recordError_draws (k : ErrorCode) (src : ErrorSource) (x : BitVec 16) : (recordError k src x s).draws = s.draws := rfl
@[simp] theorem recordError_ties (k : ErrorCode) (src : ErrorSource) (x : BitVec 16) : (recordError k src x s).ties = s.ties := rfl

/-! ### recordCommandError -/

@[simp] theorem recordCommandError_busy (k : ErrorCode) : (recordCommandError k s).busy = s.busy := rfl
@[simp] theorem recordCommandError_latch (k : ErrorCode) : (recordCommandError k s).latch = s.latch := rfl
@[simp] theorem recordCommandError_error (k : ErrorCode) : (recordCommandError k s).error = s.error.record k .command (s.latch.setWidth 16) := rfl
@[simp] theorem recordCommandError_treeState (k : ErrorCode) : (recordCommandError k s).treeState = s.treeState := rfl
@[simp] theorem recordCommandError_codeValid (k : ErrorCode) : (recordCommandError k s).codeValid = s.codeValid := rfl
@[simp] theorem recordCommandError_freq (k : ErrorCode) : (recordCommandError k s).freq = s.freq := rfl
@[simp] theorem recordCommandError_nodes (k : ErrorCode) : (recordCommandError k s).nodes = s.nodes := rfl
@[simp] theorem recordCommandError_pq (k : ErrorCode) : (recordCommandError k s).pq = s.pq := rfl
@[simp] theorem recordCommandError_nsym (k : ErrorCode) : (recordCommandError k s).nsym = s.nsym := rfl
@[simp] theorem recordCommandError_root (k : ErrorCode) : (recordCommandError k s).root = s.root := rfl
@[simp] theorem recordCommandError_code (k : ErrorCode) : (recordCommandError k s).code = s.code := rfl
@[simp] theorem recordCommandError_maxLen (k : ErrorCode) : (recordCommandError k s).maxLen = s.maxLen := rfl
@[simp] theorem recordCommandError_encq (k : ErrorCode) : (recordCommandError k s).encq = s.encq := rfl
@[simp] theorem recordCommandError_decq (k : ErrorCode) : (recordCommandError k s).decq = s.decq := rfl
@[simp] theorem recordCommandError_dbuf (k : ErrorCode) : (recordCommandError k s).dbuf = s.dbuf := rfl
@[simp] theorem recordCommandError_host (k : ErrorCode) : (recordCommandError k s).host = s.host := rfl
@[simp] theorem recordCommandError_reads (k : ErrorCode) : (recordCommandError k s).reads = s.reads := rfl
@[simp] theorem recordCommandError_delay (k : ErrorCode) : (recordCommandError k s).delay = s.delay := rfl
@[simp] theorem recordCommandError_draws (k : ErrorCode) : (recordCommandError k s).draws = s.draws := rfl
@[simp] theorem recordCommandError_ties (k : ErrorCode) : (recordCommandError k s).ties = s.ties := rfl

/-! ### recordAccessError -/

@[simp] theorem recordAccessError_busy (k : ErrorCode) (off : Offset) : (recordAccessError k off s).busy = s.busy := rfl
@[simp] theorem recordAccessError_latch (k : ErrorCode) (off : Offset) : (recordAccessError k off s).latch = s.latch := rfl
@[simp] theorem recordAccessError_error (k : ErrorCode) (off : Offset) : (recordAccessError k off s).error = s.error.record k .access off := rfl
@[simp] theorem recordAccessError_treeState (k : ErrorCode) (off : Offset) : (recordAccessError k off s).treeState = s.treeState := rfl
@[simp] theorem recordAccessError_codeValid (k : ErrorCode) (off : Offset) : (recordAccessError k off s).codeValid = s.codeValid := rfl
@[simp] theorem recordAccessError_freq (k : ErrorCode) (off : Offset) : (recordAccessError k off s).freq = s.freq := rfl
@[simp] theorem recordAccessError_nodes (k : ErrorCode) (off : Offset) : (recordAccessError k off s).nodes = s.nodes := rfl
@[simp] theorem recordAccessError_pq (k : ErrorCode) (off : Offset) : (recordAccessError k off s).pq = s.pq := rfl
@[simp] theorem recordAccessError_nsym (k : ErrorCode) (off : Offset) : (recordAccessError k off s).nsym = s.nsym := rfl
@[simp] theorem recordAccessError_root (k : ErrorCode) (off : Offset) : (recordAccessError k off s).root = s.root := rfl
@[simp] theorem recordAccessError_code (k : ErrorCode) (off : Offset) : (recordAccessError k off s).code = s.code := rfl
@[simp] theorem recordAccessError_maxLen (k : ErrorCode) (off : Offset) : (recordAccessError k off s).maxLen = s.maxLen := rfl
@[simp] theorem recordAccessError_encq (k : ErrorCode) (off : Offset) : (recordAccessError k off s).encq = s.encq := rfl
@[simp] theorem recordAccessError_decq (k : ErrorCode) (off : Offset) : (recordAccessError k off s).decq = s.decq := rfl
@[simp] theorem recordAccessError_dbuf (k : ErrorCode) (off : Offset) : (recordAccessError k off s).dbuf = s.dbuf := rfl
@[simp] theorem recordAccessError_host (k : ErrorCode) (off : Offset) : (recordAccessError k off s).host = s.host := rfl
@[simp] theorem recordAccessError_reads (k : ErrorCode) (off : Offset) : (recordAccessError k off s).reads = s.reads := rfl
@[simp] theorem recordAccessError_delay (k : ErrorCode) (off : Offset) : (recordAccessError k off s).delay = s.delay := rfl
@[simp] theorem recordAccessError_draws (k : ErrorCode) (off : Offset) : (recordAccessError k off s).draws = s.draws := rfl
@[simp] theorem recordAccessError_ties (k : ErrorCode) (off : Offset) : (recordAccessError k off s).ties = s.ties := rfl

/-! ### clearError -/

@[simp] theorem clearError_busy : (clearError s).busy = s.busy := rfl
@[simp] theorem clearError_latch : (clearError s).latch = s.latch := rfl
@[simp] theorem clearError_error : (clearError s).error = ErrorReg.clear := rfl
@[simp] theorem clearError_treeState : (clearError s).treeState = s.treeState := rfl
@[simp] theorem clearError_codeValid : (clearError s).codeValid = s.codeValid := rfl
@[simp] theorem clearError_freq : (clearError s).freq = s.freq := rfl
@[simp] theorem clearError_nodes : (clearError s).nodes = s.nodes := rfl
@[simp] theorem clearError_pq : (clearError s).pq = s.pq := rfl
@[simp] theorem clearError_nsym : (clearError s).nsym = s.nsym := rfl
@[simp] theorem clearError_root : (clearError s).root = s.root := rfl
@[simp] theorem clearError_code : (clearError s).code = s.code := rfl
@[simp] theorem clearError_maxLen : (clearError s).maxLen = s.maxLen := rfl
@[simp] theorem clearError_encq : (clearError s).encq = s.encq := rfl
@[simp] theorem clearError_decq : (clearError s).decq = s.decq := rfl
@[simp] theorem clearError_dbuf : (clearError s).dbuf = s.dbuf := rfl
@[simp] theorem clearError_host : (clearError s).host = s.host := rfl
@[simp] theorem clearError_reads : (clearError s).reads = s.reads := rfl
@[simp] theorem clearError_delay : (clearError s).delay = s.delay := rfl
@[simp] theorem clearError_draws : (clearError s).draws = s.draws := rfl
@[simp] theorem clearError_ties : (clearError s).ties = s.ties := rfl

/-! ### rejectCommand -/

@[simp] theorem rejectCommand_busy : (rejectCommand s).busy = s.busy := rfl
@[simp] theorem rejectCommand_latch : (rejectCommand s).latch = s.latch := rfl
@[simp] theorem rejectCommand_error : (rejectCommand s).error = { s.error with multi := true } := rfl
@[simp] theorem rejectCommand_treeState : (rejectCommand s).treeState = s.treeState := rfl
@[simp] theorem rejectCommand_codeValid : (rejectCommand s).codeValid = s.codeValid := rfl
@[simp] theorem rejectCommand_freq : (rejectCommand s).freq = s.freq := rfl
@[simp] theorem rejectCommand_nodes : (rejectCommand s).nodes = s.nodes := rfl
@[simp] theorem rejectCommand_pq : (rejectCommand s).pq = s.pq := rfl
@[simp] theorem rejectCommand_nsym : (rejectCommand s).nsym = s.nsym := rfl
@[simp] theorem rejectCommand_root : (rejectCommand s).root = s.root := rfl
@[simp] theorem rejectCommand_code : (rejectCommand s).code = s.code := rfl
@[simp] theorem rejectCommand_maxLen : (rejectCommand s).maxLen = s.maxLen := rfl
@[simp] theorem rejectCommand_encq : (rejectCommand s).encq = s.encq := rfl
@[simp] theorem rejectCommand_decq : (rejectCommand s).decq = s.decq := rfl
@[simp] theorem rejectCommand_dbuf : (rejectCommand s).dbuf = s.dbuf := rfl
@[simp] theorem rejectCommand_host : (rejectCommand s).host = s.host := rfl
@[simp] theorem rejectCommand_reads : (rejectCommand s).reads = s.reads := rfl
@[simp] theorem rejectCommand_delay : (rejectCommand s).delay = s.delay := rfl
@[simp] theorem rejectCommand_draws : (rejectCommand s).draws = s.draws := rfl
@[simp] theorem rejectCommand_ties : (rejectCommand s).ties = s.ties := rfl

/-! ### latchCommand -/

@[simp] theorem latchCommand_busy (w : Word) : (latchCommand w s).busy = true := rfl
@[simp] theorem latchCommand_latch (w : Word) : (latchCommand w s).latch = w := rfl
@[simp] theorem latchCommand_error (w : Word) : (latchCommand w s).error = s.error := rfl
@[simp] theorem latchCommand_treeState (w : Word) : (latchCommand w s).treeState = s.treeState := rfl
@[simp] theorem latchCommand_codeValid (w : Word) : (latchCommand w s).codeValid = s.codeValid := rfl
@[simp] theorem latchCommand_freq (w : Word) : (latchCommand w s).freq = s.freq := rfl
@[simp] theorem latchCommand_nodes (w : Word) : (latchCommand w s).nodes = s.nodes := rfl
@[simp] theorem latchCommand_pq (w : Word) : (latchCommand w s).pq = s.pq := rfl
@[simp] theorem latchCommand_nsym (w : Word) : (latchCommand w s).nsym = s.nsym := rfl
@[simp] theorem latchCommand_root (w : Word) : (latchCommand w s).root = s.root := rfl
@[simp] theorem latchCommand_code (w : Word) : (latchCommand w s).code = s.code := rfl
@[simp] theorem latchCommand_maxLen (w : Word) : (latchCommand w s).maxLen = s.maxLen := rfl
@[simp] theorem latchCommand_encq (w : Word) : (latchCommand w s).encq = s.encq := rfl
@[simp] theorem latchCommand_decq (w : Word) : (latchCommand w s).decq = s.decq := rfl
@[simp] theorem latchCommand_dbuf (w : Word) : (latchCommand w s).dbuf = s.dbuf := rfl
@[simp] theorem latchCommand_host (w : Word) : (latchCommand w s).host = s.host := rfl
@[simp] theorem latchCommand_reads (w : Word) : (latchCommand w s).reads = s.reads := rfl
@[simp] theorem latchCommand_delay (w : Word) : (latchCommand w s).delay = Config.latency s.draws := rfl
@[simp] theorem latchCommand_draws (w : Word) : (latchCommand w s).draws = s.draws + 1 := rfl
@[simp] theorem latchCommand_ties (w : Word) : (latchCommand w s).ties = s.ties := rfl

/-! ### finishCommand -/

@[simp] theorem finishCommand_busy : (finishCommand s).busy = false := rfl
@[simp] theorem finishCommand_latch : (finishCommand s).latch = s.latch := rfl
@[simp] theorem finishCommand_error : (finishCommand s).error = s.error := rfl
@[simp] theorem finishCommand_treeState : (finishCommand s).treeState = s.treeState := rfl
@[simp] theorem finishCommand_codeValid : (finishCommand s).codeValid = s.codeValid := rfl
@[simp] theorem finishCommand_freq : (finishCommand s).freq = s.freq := rfl
@[simp] theorem finishCommand_nodes : (finishCommand s).nodes = s.nodes := rfl
@[simp] theorem finishCommand_pq : (finishCommand s).pq = s.pq := rfl
@[simp] theorem finishCommand_nsym : (finishCommand s).nsym = s.nsym := rfl
@[simp] theorem finishCommand_root : (finishCommand s).root = s.root := rfl
@[simp] theorem finishCommand_code : (finishCommand s).code = s.code := rfl
@[simp] theorem finishCommand_maxLen : (finishCommand s).maxLen = s.maxLen := rfl
@[simp] theorem finishCommand_encq : (finishCommand s).encq = s.encq := rfl
@[simp] theorem finishCommand_decq : (finishCommand s).decq = s.decq := rfl
@[simp] theorem finishCommand_dbuf : (finishCommand s).dbuf = s.dbuf := rfl
@[simp] theorem finishCommand_host : (finishCommand s).host = s.host := rfl
@[simp] theorem finishCommand_reads : (finishCommand s).reads = s.reads := rfl
@[simp] theorem finishCommand_delay : (finishCommand s).delay = 0 := rfl
@[simp] theorem finishCommand_draws : (finishCommand s).draws = s.draws := rfl
@[simp] theorem finishCommand_ties : (finishCommand s).ties = s.ties := rfl

/-! ### clearUnits -/

@[simp] theorem clearUnits_busy : (clearUnits s).busy = s.busy := rfl
@[simp] theorem clearUnits_latch : (clearUnits s).latch = s.latch := rfl
@[simp] theorem clearUnits_error : (clearUnits s).error = ErrorReg.clear := rfl
@[simp] theorem clearUnits_treeState : (clearUnits s).treeState = .empty := rfl
@[simp] theorem clearUnits_codeValid : (clearUnits s).codeValid = false := rfl
@[simp] theorem clearUnits_freq : (clearUnits s).freq = [] := rfl
@[simp] theorem clearUnits_nodes : (clearUnits s).nodes = [] := rfl
@[simp] theorem clearUnits_pq : (clearUnits s).pq = [] := rfl
@[simp] theorem clearUnits_nsym : (clearUnits s).nsym = 0 := rfl
@[simp] theorem clearUnits_root : (clearUnits s).root = 0 := rfl
@[simp] theorem clearUnits_code : (clearUnits s).code = [] := rfl
@[simp] theorem clearUnits_maxLen : (clearUnits s).maxLen = 0 := rfl
@[simp] theorem clearUnits_encq : (clearUnits s).encq = [] := rfl
@[simp] theorem clearUnits_decq : (clearUnits s).decq = [] := rfl
@[simp] theorem clearUnits_dbuf : (clearUnits s).dbuf = [] := rfl
@[simp] theorem clearUnits_host : (clearUnits s).host = s.host := rfl
@[simp] theorem clearUnits_reads : (clearUnits s).reads = s.reads := rfl
@[simp] theorem clearUnits_delay : (clearUnits s).delay = s.delay := rfl
@[simp] theorem clearUnits_draws : (clearUnits s).draws = s.draws := rfl
@[simp] theorem clearUnits_ties : (clearUnits s).ties = s.ties := rfl

/-! ### platformReset -/

@[simp] theorem platformReset_busy : (platformReset s).busy = false := rfl
@[simp] theorem platformReset_latch : (platformReset s).latch = Config.freeWord s.draws := rfl
@[simp] theorem platformReset_error : (platformReset s).error = ErrorReg.clear := rfl
@[simp] theorem platformReset_treeState : (platformReset s).treeState = .empty := rfl
@[simp] theorem platformReset_codeValid : (platformReset s).codeValid = false := rfl
@[simp] theorem platformReset_freq : (platformReset s).freq = [] := rfl
@[simp] theorem platformReset_nodes : (platformReset s).nodes = [] := rfl
@[simp] theorem platformReset_pq : (platformReset s).pq = [] := rfl
@[simp] theorem platformReset_nsym : (platformReset s).nsym = 0 := rfl
@[simp] theorem platformReset_root : (platformReset s).root = 0 := rfl
@[simp] theorem platformReset_code : (platformReset s).code = [] := rfl
@[simp] theorem platformReset_maxLen : (platformReset s).maxLen = 0 := rfl
@[simp] theorem platformReset_encq : (platformReset s).encq = [] := rfl
@[simp] theorem platformReset_decq : (platformReset s).decq = [] := rfl
@[simp] theorem platformReset_dbuf : (platformReset s).dbuf = [] := rfl
@[simp] theorem platformReset_host : (platformReset s).host = s.host := rfl
@[simp] theorem platformReset_reads : (platformReset s).reads = s.reads := rfl
@[simp] theorem platformReset_delay : (platformReset s).delay = 0 := rfl
@[simp] theorem platformReset_draws : (platformReset s).draws = s.draws + 1 := rfl
@[simp] theorem platformReset_ties : (platformReset s).ties = s.ties := rfl

/-! ### pushEnc -/

@[simp] theorem pushEnc_busy (p : Bits) : (pushEnc p s).busy = s.busy := rfl
@[simp] theorem pushEnc_latch (p : Bits) : (pushEnc p s).latch = s.latch := rfl
@[simp] theorem pushEnc_error (p : Bits) : (pushEnc p s).error = s.error := rfl
@[simp] theorem pushEnc_treeState (p : Bits) : (pushEnc p s).treeState = s.treeState := rfl
@[simp] theorem pushEnc_codeValid (p : Bits) : (pushEnc p s).codeValid = s.codeValid := rfl
@[simp] theorem pushEnc_freq (p : Bits) : (pushEnc p s).freq = s.freq := rfl
@[simp] theorem pushEnc_nodes (p : Bits) : (pushEnc p s).nodes = s.nodes := rfl
@[simp] theorem pushEnc_pq (p : Bits) : (pushEnc p s).pq = s.pq := rfl
@[simp] theorem pushEnc_nsym (p : Bits) : (pushEnc p s).nsym = s.nsym := rfl
@[simp] theorem pushEnc_root (p : Bits) : (pushEnc p s).root = s.root := rfl
@[simp] theorem pushEnc_code (p : Bits) : (pushEnc p s).code = s.code := rfl
@[simp] theorem pushEnc_maxLen (p : Bits) : (pushEnc p s).maxLen = s.maxLen := rfl
@[simp] theorem pushEnc_encq (p : Bits) : (pushEnc p s).encq = s.encq ++ p := rfl
@[simp] theorem pushEnc_decq (p : Bits) : (pushEnc p s).decq = s.decq := rfl
@[simp] theorem pushEnc_dbuf (p : Bits) : (pushEnc p s).dbuf = s.dbuf := rfl
@[simp] theorem pushEnc_host (p : Bits) : (pushEnc p s).host = s.host := rfl
@[simp] theorem pushEnc_reads (p : Bits) : (pushEnc p s).reads = s.reads := rfl
@[simp] theorem pushEnc_delay (p : Bits) : (pushEnc p s).delay = s.delay := rfl
@[simp] theorem pushEnc_draws (p : Bits) : (pushEnc p s).draws = s.draws := rfl
@[simp] theorem pushEnc_ties (p : Bits) : (pushEnc p s).ties = s.ties := rfl

/-! ### popEnc -/

@[simp] theorem popEnc_busy (n : Nat) : (popEnc n s).busy = s.busy := rfl
@[simp] theorem popEnc_latch (n : Nat) : (popEnc n s).latch = s.latch := rfl
@[simp] theorem popEnc_error (n : Nat) : (popEnc n s).error = s.error := rfl
@[simp] theorem popEnc_treeState (n : Nat) : (popEnc n s).treeState = s.treeState := rfl
@[simp] theorem popEnc_codeValid (n : Nat) : (popEnc n s).codeValid = s.codeValid := rfl
@[simp] theorem popEnc_freq (n : Nat) : (popEnc n s).freq = s.freq := rfl
@[simp] theorem popEnc_nodes (n : Nat) : (popEnc n s).nodes = s.nodes := rfl
@[simp] theorem popEnc_pq (n : Nat) : (popEnc n s).pq = s.pq := rfl
@[simp] theorem popEnc_nsym (n : Nat) : (popEnc n s).nsym = s.nsym := rfl
@[simp] theorem popEnc_root (n : Nat) : (popEnc n s).root = s.root := rfl
@[simp] theorem popEnc_code (n : Nat) : (popEnc n s).code = s.code := rfl
@[simp] theorem popEnc_maxLen (n : Nat) : (popEnc n s).maxLen = s.maxLen := rfl
@[simp] theorem popEnc_encq (n : Nat) : (popEnc n s).encq = s.encq.drop n := rfl
@[simp] theorem popEnc_decq (n : Nat) : (popEnc n s).decq = s.decq := rfl
@[simp] theorem popEnc_dbuf (n : Nat) : (popEnc n s).dbuf = s.dbuf := rfl
@[simp] theorem popEnc_host (n : Nat) : (popEnc n s).host = s.host := rfl
@[simp] theorem popEnc_reads (n : Nat) : (popEnc n s).reads = s.reads := rfl
@[simp] theorem popEnc_delay (n : Nat) : (popEnc n s).delay = s.delay := rfl
@[simp] theorem popEnc_draws (n : Nat) : (popEnc n s).draws = s.draws := rfl
@[simp] theorem popEnc_ties (n : Nat) : (popEnc n s).ties = s.ties := rfl

/-! ### pushDec -/

@[simp] theorem pushDec_busy (c : Symbol) : (pushDec c s).busy = s.busy := rfl
@[simp] theorem pushDec_latch (c : Symbol) : (pushDec c s).latch = s.latch := rfl
@[simp] theorem pushDec_error (c : Symbol) : (pushDec c s).error = s.error := rfl
@[simp] theorem pushDec_treeState (c : Symbol) : (pushDec c s).treeState = s.treeState := rfl
@[simp] theorem pushDec_codeValid (c : Symbol) : (pushDec c s).codeValid = s.codeValid := rfl
@[simp] theorem pushDec_freq (c : Symbol) : (pushDec c s).freq = s.freq := rfl
@[simp] theorem pushDec_nodes (c : Symbol) : (pushDec c s).nodes = s.nodes := rfl
@[simp] theorem pushDec_pq (c : Symbol) : (pushDec c s).pq = s.pq := rfl
@[simp] theorem pushDec_nsym (c : Symbol) : (pushDec c s).nsym = s.nsym := rfl
@[simp] theorem pushDec_root (c : Symbol) : (pushDec c s).root = s.root := rfl
@[simp] theorem pushDec_code (c : Symbol) : (pushDec c s).code = s.code := rfl
@[simp] theorem pushDec_maxLen (c : Symbol) : (pushDec c s).maxLen = s.maxLen := rfl
@[simp] theorem pushDec_encq (c : Symbol) : (pushDec c s).encq = s.encq := rfl
@[simp] theorem pushDec_decq (c : Symbol) : (pushDec c s).decq = s.decq ++ [c] := rfl
@[simp] theorem pushDec_dbuf (c : Symbol) : (pushDec c s).dbuf = s.dbuf := rfl
@[simp] theorem pushDec_host (c : Symbol) : (pushDec c s).host = s.host := rfl
@[simp] theorem pushDec_reads (c : Symbol) : (pushDec c s).reads = s.reads := rfl
@[simp] theorem pushDec_delay (c : Symbol) : (pushDec c s).delay = s.delay := rfl
@[simp] theorem pushDec_draws (c : Symbol) : (pushDec c s).draws = s.draws := rfl
@[simp] theorem pushDec_ties (c : Symbol) : (pushDec c s).ties = s.ties := rfl

/-! ### popDec -/

@[simp] theorem popDec_busy : (popDec s).busy = s.busy := rfl
@[simp] theorem popDec_latch : (popDec s).latch = s.latch := rfl
@[simp] theorem popDec_error : (popDec s).error = s.error := rfl
@[simp] theorem popDec_treeState : (popDec s).treeState = s.treeState := rfl
@[simp] theorem popDec_codeValid : (popDec s).codeValid = s.codeValid := rfl
@[simp] theorem popDec_freq : (popDec s).freq = s.freq := rfl
@[simp] theorem popDec_nodes : (popDec s).nodes = s.nodes := rfl
@[simp] theorem popDec_pq : (popDec s).pq = s.pq := rfl
@[simp] theorem popDec_nsym : (popDec s).nsym = s.nsym := rfl
@[simp] theorem popDec_root : (popDec s).root = s.root := rfl
@[simp] theorem popDec_code : (popDec s).code = s.code := rfl
@[simp] theorem popDec_maxLen : (popDec s).maxLen = s.maxLen := rfl
@[simp] theorem popDec_encq : (popDec s).encq = s.encq := rfl
@[simp] theorem popDec_decq : (popDec s).decq = s.decq.drop 1 := rfl
@[simp] theorem popDec_dbuf : (popDec s).dbuf = s.dbuf := rfl
@[simp] theorem popDec_host : (popDec s).host = s.host := rfl
@[simp] theorem popDec_reads : (popDec s).reads = s.reads := rfl
@[simp] theorem popDec_delay : (popDec s).delay = s.delay := rfl
@[simp] theorem popDec_draws : (popDec s).draws = s.draws := rfl
@[simp] theorem popDec_ties : (popDec s).ties = s.ties := rfl

/-! ### setDbuf -/

@[simp] theorem setDbuf_busy (p : Bits) : (setDbuf p s).busy = s.busy := rfl
@[simp] theorem setDbuf_latch (p : Bits) : (setDbuf p s).latch = s.latch := rfl
@[simp] theorem setDbuf_error (p : Bits) : (setDbuf p s).error = s.error := rfl
@[simp] theorem setDbuf_treeState (p : Bits) : (setDbuf p s).treeState = s.treeState := rfl
@[simp] theorem setDbuf_codeValid (p : Bits) : (setDbuf p s).codeValid = s.codeValid := rfl
@[simp] theorem setDbuf_freq (p : Bits) : (setDbuf p s).freq = s.freq := rfl
@[simp] theorem setDbuf_nodes (p : Bits) : (setDbuf p s).nodes = s.nodes := rfl
@[simp] theorem setDbuf_pq (p : Bits) : (setDbuf p s).pq = s.pq := rfl
@[simp] theorem setDbuf_nsym (p : Bits) : (setDbuf p s).nsym = s.nsym := rfl
@[simp] theorem setDbuf_root (p : Bits) : (setDbuf p s).root = s.root := rfl
@[simp] theorem setDbuf_code (p : Bits) : (setDbuf p s).code = s.code := rfl
@[simp] theorem setDbuf_maxLen (p : Bits) : (setDbuf p s).maxLen = s.maxLen := rfl
@[simp] theorem setDbuf_encq (p : Bits) : (setDbuf p s).encq = s.encq := rfl
@[simp] theorem setDbuf_decq (p : Bits) : (setDbuf p s).decq = s.decq := rfl
@[simp] theorem setDbuf_dbuf (p : Bits) : (setDbuf p s).dbuf = p := rfl
@[simp] theorem setDbuf_host (p : Bits) : (setDbuf p s).host = s.host := rfl
@[simp] theorem setDbuf_reads (p : Bits) : (setDbuf p s).reads = s.reads := rfl
@[simp] theorem setDbuf_delay (p : Bits) : (setDbuf p s).delay = s.delay := rfl
@[simp] theorem setDbuf_draws (p : Bits) : (setDbuf p s).draws = s.draws := rfl
@[simp] theorem setDbuf_ties (p : Bits) : (setDbuf p s).ties = s.ties := rfl

/-! ### writeFreq -/

@[simp] theorem writeFreq_busy (c : Symbol) (v : Word) : (writeFreq c v s).busy = s.busy := rfl
@[simp] theorem writeFreq_latch (c : Symbol) (v : Word) : (writeFreq c v s).latch = s.latch := rfl
@[simp] theorem writeFreq_error (c : Symbol) (v : Word) : (writeFreq c v s).error = s.error := rfl
@[simp] theorem writeFreq_treeState (c : Symbol) (v : Word) : (writeFreq c v s).treeState = s.treeState := rfl
@[simp] theorem writeFreq_codeValid (c : Symbol) (v : Word) : (writeFreq c v s).codeValid = s.codeValid := rfl
@[simp] theorem writeFreq_freq (c : Symbol) (v : Word) : (writeFreq c v s).freq = Memory.write s.freq c v := rfl
@[simp] theorem writeFreq_nodes (c : Symbol) (v : Word) : (writeFreq c v s).nodes = s.nodes := rfl
@[simp] theorem writeFreq_pq (c : Symbol) (v : Word) : (writeFreq c v s).pq = s.pq := rfl
@[simp] theorem writeFreq_nsym (c : Symbol) (v : Word) : (writeFreq c v s).nsym = s.nsym := rfl
@[simp] theorem writeFreq_root (c : Symbol) (v : Word) : (writeFreq c v s).root = s.root := rfl
@[simp] theorem writeFreq_code (c : Symbol) (v : Word) : (writeFreq c v s).code = s.code := rfl
@[simp] theorem writeFreq_maxLen (c : Symbol) (v : Word) : (writeFreq c v s).maxLen = s.maxLen := rfl
@[simp] theorem writeFreq_encq (c : Symbol) (v : Word) : (writeFreq c v s).encq = s.encq := rfl
@[simp] theorem writeFreq_decq (c : Symbol) (v : Word) : (writeFreq c v s).decq = s.decq := rfl
@[simp] theorem writeFreq_dbuf (c : Symbol) (v : Word) : (writeFreq c v s).dbuf = s.dbuf := rfl
@[simp] theorem writeFreq_host (c : Symbol) (v : Word) : (writeFreq c v s).host = s.host := rfl
@[simp] theorem writeFreq_reads (c : Symbol) (v : Word) : (writeFreq c v s).reads = s.reads := rfl
@[simp] theorem writeFreq_delay (c : Symbol) (v : Word) : (writeFreq c v s).delay = s.delay := rfl
@[simp] theorem writeFreq_draws (c : Symbol) (v : Word) : (writeFreq c v s).draws = s.draws := rfl
@[simp] theorem writeFreq_ties (c : Symbol) (v : Word) : (writeFreq c v s).ties = s.ties := rfl

/-! ### removeFromQueue -/

@[simp] theorem removeFromQueue_busy (i : Nat) : (removeFromQueue i s).busy = s.busy := rfl
@[simp] theorem removeFromQueue_latch (i : Nat) : (removeFromQueue i s).latch = s.latch := rfl
@[simp] theorem removeFromQueue_error (i : Nat) : (removeFromQueue i s).error = s.error := rfl
@[simp] theorem removeFromQueue_treeState (i : Nat) : (removeFromQueue i s).treeState = s.treeState := rfl
@[simp] theorem removeFromQueue_codeValid (i : Nat) : (removeFromQueue i s).codeValid = s.codeValid := rfl
@[simp] theorem removeFromQueue_freq (i : Nat) : (removeFromQueue i s).freq = s.freq := rfl
@[simp] theorem removeFromQueue_nodes (i : Nat) : (removeFromQueue i s).nodes = s.nodes := rfl
@[simp] theorem removeFromQueue_pq (i : Nat) : (removeFromQueue i s).pq = s.pq.erase i := rfl
@[simp] theorem removeFromQueue_nsym (i : Nat) : (removeFromQueue i s).nsym = s.nsym := rfl
@[simp] theorem removeFromQueue_root (i : Nat) : (removeFromQueue i s).root = s.root := rfl
@[simp] theorem removeFromQueue_code (i : Nat) : (removeFromQueue i s).code = s.code := rfl
@[simp] theorem removeFromQueue_maxLen (i : Nat) : (removeFromQueue i s).maxLen = s.maxLen := rfl
@[simp] theorem removeFromQueue_encq (i : Nat) : (removeFromQueue i s).encq = s.encq := rfl
@[simp] theorem removeFromQueue_decq (i : Nat) : (removeFromQueue i s).decq = s.decq := rfl
@[simp] theorem removeFromQueue_dbuf (i : Nat) : (removeFromQueue i s).dbuf = s.dbuf := rfl
@[simp] theorem removeFromQueue_host (i : Nat) : (removeFromQueue i s).host = s.host := rfl
@[simp] theorem removeFromQueue_reads (i : Nat) : (removeFromQueue i s).reads = s.reads := rfl
@[simp] theorem removeFromQueue_delay (i : Nat) : (removeFromQueue i s).delay = s.delay := rfl
@[simp] theorem removeFromQueue_draws (i : Nat) : (removeFromQueue i s).draws = s.draws := rfl
@[simp] theorem removeFromQueue_ties (i : Nat) : (removeFromQueue i s).ties = s.ties + 1 := rfl

/-! ### addMerged -/

@[simp] theorem addMerged_busy (l r : Nat) : (addMerged l r s).busy = s.busy := rfl
@[simp] theorem addMerged_latch (l r : Nat) : (addMerged l r s).latch = s.latch := rfl
@[simp] theorem addMerged_error (l r : Nat) : (addMerged l r s).error = s.error := rfl
@[simp] theorem addMerged_treeState (l r : Nat) : (addMerged l r s).treeState = s.treeState := rfl
@[simp] theorem addMerged_codeValid (l r : Nat) : (addMerged l r s).codeValid = s.codeValid := rfl
@[simp] theorem addMerged_freq (l r : Nat) : (addMerged l r s).freq = s.freq := rfl
@[simp] theorem addMerged_nodes (l r : Nat) : (addMerged l r s).nodes = s.nodes ++ [mergedNode s.nodes l r] := rfl
@[simp] theorem addMerged_pq (l r : Nat) : (addMerged l r s).pq = insertIndex s.nodes.length s.pq := rfl
@[simp] theorem addMerged_nsym (l r : Nat) : (addMerged l r s).nsym = s.nsym := rfl
@[simp] theorem addMerged_root (l r : Nat) : (addMerged l r s).root = s.root := rfl
@[simp] theorem addMerged_code (l r : Nat) : (addMerged l r s).code = s.code := rfl
@[simp] theorem addMerged_maxLen (l r : Nat) : (addMerged l r s).maxLen = s.maxLen := rfl
@[simp] theorem addMerged_encq (l r : Nat) : (addMerged l r s).encq = s.encq := rfl
@[simp] theorem addMerged_decq (l r : Nat) : (addMerged l r s).decq = s.decq := rfl
@[simp] theorem addMerged_dbuf (l r : Nat) : (addMerged l r s).dbuf = s.dbuf := rfl
@[simp] theorem addMerged_host (l r : Nat) : (addMerged l r s).host = s.host := rfl
@[simp] theorem addMerged_reads (l r : Nat) : (addMerged l r s).reads = s.reads := rfl
@[simp] theorem addMerged_delay (l r : Nat) : (addMerged l r s).delay = s.delay := rfl
@[simp] theorem addMerged_draws (l r : Nat) : (addMerged l r s).draws = s.draws := rfl
@[simp] theorem addMerged_ties (l r : Nat) : (addMerged l r s).ties = s.ties := rfl

/-! ### seedNext -/

@[simp] theorem seedNext_busy : (seedNext s).busy = s.busy := rfl
@[simp] theorem seedNext_latch : (seedNext s).latch = s.latch := rfl
@[simp] theorem seedNext_error : (seedNext s).error = s.error := rfl
@[simp] theorem seedNext_treeState : (seedNext s).treeState = if (seedLeaves s.freq).length = 1 then .built else .building := rfl
@[simp] theorem seedNext_codeValid : (seedNext s).codeValid = s.codeValid := rfl
@[simp] theorem seedNext_freq : (seedNext s).freq = s.freq := rfl
@[simp] theorem seedNext_nodes : (seedNext s).nodes = seedLeaves s.freq := rfl
@[simp] theorem seedNext_pq : (seedNext s).pq = List.range (seedLeaves s.freq).length := rfl
@[simp] theorem seedNext_nsym : (seedNext s).nsym = (seedLeaves s.freq).length := rfl
@[simp] theorem seedNext_root : (seedNext s).root = if (seedLeaves s.freq).length = 1 then 0 else s.root := rfl
@[simp] theorem seedNext_code : (seedNext s).code = s.code := rfl
@[simp] theorem seedNext_maxLen : (seedNext s).maxLen = s.maxLen := rfl
@[simp] theorem seedNext_encq : (seedNext s).encq = s.encq := rfl
@[simp] theorem seedNext_decq : (seedNext s).decq = s.decq := rfl
@[simp] theorem seedNext_dbuf : (seedNext s).dbuf = s.dbuf := rfl
@[simp] theorem seedNext_host : (seedNext s).host = s.host := rfl
@[simp] theorem seedNext_reads : (seedNext s).reads = s.reads := rfl
@[simp] theorem seedNext_delay : (seedNext s).delay = s.delay := rfl
@[simp] theorem seedNext_draws : (seedNext s).draws = s.draws := rfl
@[simp] theorem seedNext_ties : (seedNext s).ties = s.ties := rfl

/-! ### writeCodes -/

@[simp] theorem writeCodes_busy (t : CodeTable) : (writeCodes t s).busy = s.busy := rfl
@[simp] theorem writeCodes_latch (t : CodeTable) : (writeCodes t s).latch = s.latch := rfl
@[simp] theorem writeCodes_error (t : CodeTable) : (writeCodes t s).error = s.error := rfl
@[simp] theorem writeCodes_treeState (t : CodeTable) : (writeCodes t s).treeState = s.treeState := rfl
@[simp] theorem writeCodes_codeValid (t : CodeTable) : (writeCodes t s).codeValid = true := rfl
@[simp] theorem writeCodes_freq (t : CodeTable) : (writeCodes t s).freq = s.freq := rfl
@[simp] theorem writeCodes_nodes (t : CodeTable) : (writeCodes t s).nodes = s.nodes := rfl
@[simp] theorem writeCodes_pq (t : CodeTable) : (writeCodes t s).pq = s.pq := rfl
@[simp] theorem writeCodes_nsym (t : CodeTable) : (writeCodes t s).nsym = s.nsym := rfl
@[simp] theorem writeCodes_root (t : CodeTable) : (writeCodes t s).root = s.root := rfl
@[simp] theorem writeCodes_code (t : CodeTable) : (writeCodes t s).code = t := rfl
@[simp] theorem writeCodes_maxLen (t : CodeTable) : (writeCodes t s).maxLen = maxCodeLen t := rfl
@[simp] theorem writeCodes_encq (t : CodeTable) : (writeCodes t s).encq = s.encq := rfl
@[simp] theorem writeCodes_decq (t : CodeTable) : (writeCodes t s).decq = s.decq := rfl
@[simp] theorem writeCodes_dbuf (t : CodeTable) : (writeCodes t s).dbuf = s.dbuf := rfl
@[simp] theorem writeCodes_host (t : CodeTable) : (writeCodes t s).host = s.host := rfl
@[simp] theorem writeCodes_reads (t : CodeTable) : (writeCodes t s).reads = s.reads := rfl
@[simp] theorem writeCodes_delay (t : CodeTable) : (writeCodes t s).delay = s.delay := rfl
@[simp] theorem writeCodes_draws (t : CodeTable) : (writeCodes t s).draws = s.draws := rfl
@[simp] theorem writeCodes_ties (t : CodeTable) : (writeCodes t s).ties = s.ties := rfl

/-! ### takeAction -/

@[simp] theorem takeAction_busy (rest : List HostAction) : (takeAction rest s).busy = s.busy := rfl
@[simp] theorem takeAction_latch (rest : List HostAction) : (takeAction rest s).latch = s.latch := rfl
@[simp] theorem takeAction_error (rest : List HostAction) : (takeAction rest s).error = s.error := rfl
@[simp] theorem takeAction_treeState (rest : List HostAction) : (takeAction rest s).treeState = s.treeState := rfl
@[simp] theorem takeAction_codeValid (rest : List HostAction) : (takeAction rest s).codeValid = s.codeValid := rfl
@[simp] theorem takeAction_freq (rest : List HostAction) : (takeAction rest s).freq = s.freq := rfl
@[simp] theorem takeAction_nodes (rest : List HostAction) : (takeAction rest s).nodes = s.nodes := rfl
@[simp] theorem takeAction_pq (rest : List HostAction) : (takeAction rest s).pq = s.pq := rfl
@[simp] theorem takeAction_nsym (rest : List HostAction) : (takeAction rest s).nsym = s.nsym := rfl
@[simp] theorem takeAction_root (rest : List HostAction) : (takeAction rest s).root = s.root := rfl
@[simp] theorem takeAction_code (rest : List HostAction) : (takeAction rest s).code = s.code := rfl
@[simp] theorem takeAction_maxLen (rest : List HostAction) : (takeAction rest s).maxLen = s.maxLen := rfl
@[simp] theorem takeAction_encq (rest : List HostAction) : (takeAction rest s).encq = s.encq := rfl
@[simp] theorem takeAction_decq (rest : List HostAction) : (takeAction rest s).decq = s.decq := rfl
@[simp] theorem takeAction_dbuf (rest : List HostAction) : (takeAction rest s).dbuf = s.dbuf := rfl
@[simp] theorem takeAction_host (rest : List HostAction) : (takeAction rest s).host = rest := rfl
@[simp] theorem takeAction_reads (rest : List HostAction) : (takeAction rest s).reads = s.reads := rfl
@[simp] theorem takeAction_delay (rest : List HostAction) : (takeAction rest s).delay = s.delay - 1 := rfl
@[simp] theorem takeAction_draws (rest : List HostAction) : (takeAction rest s).draws = s.draws := rfl
@[simp] theorem takeAction_ties (rest : List HostAction) : (takeAction rest s).ties = s.ties := rfl

/-! ### pushHost -/

@[simp] theorem pushHost_busy (a : HostAction) : (pushHost a s).busy = s.busy := rfl
@[simp] theorem pushHost_latch (a : HostAction) : (pushHost a s).latch = s.latch := rfl
@[simp] theorem pushHost_error (a : HostAction) : (pushHost a s).error = s.error := rfl
@[simp] theorem pushHost_treeState (a : HostAction) : (pushHost a s).treeState = s.treeState := rfl
@[simp] theorem pushHost_codeValid (a : HostAction) : (pushHost a s).codeValid = s.codeValid := rfl
@[simp] theorem pushHost_freq (a : HostAction) : (pushHost a s).freq = s.freq := rfl
@[simp] theorem pushHost_nodes (a : HostAction) : (pushHost a s).nodes = s.nodes := rfl
@[simp] theorem pushHost_pq (a : HostAction) : (pushHost a s).pq = s.pq := rfl
@[simp] theorem pushHost_nsym (a : HostAction) : (pushHost a s).nsym = s.nsym := rfl
@[simp] theorem pushHost_root (a : HostAction) : (pushHost a s).root = s.root := rfl
@[simp] theorem pushHost_code (a : HostAction) : (pushHost a s).code = s.code := rfl
@[simp] theorem pushHost_maxLen (a : HostAction) : (pushHost a s).maxLen = s.maxLen := rfl
@[simp] theorem pushHost_encq (a : HostAction) : (pushHost a s).encq = s.encq := rfl
@[simp] theorem pushHost_decq (a : HostAction) : (pushHost a s).decq = s.decq := rfl
@[simp] theorem pushHost_dbuf (a : HostAction) : (pushHost a s).dbuf = s.dbuf := rfl
@[simp] theorem pushHost_host (a : HostAction) : (pushHost a s).host = a :: s.host := rfl
@[simp] theorem pushHost_reads (a : HostAction) : (pushHost a s).reads = s.reads := rfl
@[simp] theorem pushHost_delay (a : HostAction) : (pushHost a s).delay = s.delay := rfl
@[simp] theorem pushHost_draws (a : HostAction) : (pushHost a s).draws = s.draws := rfl
@[simp] theorem pushHost_ties (a : HostAction) : (pushHost a s).ties = s.ties := rfl

/-! ### loadProgram -/

@[simp] theorem loadProgram_busy (p : List HostAction) : (loadProgram p s).busy = s.busy := rfl
@[simp] theorem loadProgram_latch (p : List HostAction) : (loadProgram p s).latch = s.latch := rfl
@[simp] theorem loadProgram_error (p : List HostAction) : (loadProgram p s).error = s.error := rfl
@[simp] theorem loadProgram_treeState (p : List HostAction) : (loadProgram p s).treeState = s.treeState := rfl
@[simp] theorem loadProgram_codeValid (p : List HostAction) : (loadProgram p s).codeValid = s.codeValid := rfl
@[simp] theorem loadProgram_freq (p : List HostAction) : (loadProgram p s).freq = s.freq := rfl
@[simp] theorem loadProgram_nodes (p : List HostAction) : (loadProgram p s).nodes = s.nodes := rfl
@[simp] theorem loadProgram_pq (p : List HostAction) : (loadProgram p s).pq = s.pq := rfl
@[simp] theorem loadProgram_nsym (p : List HostAction) : (loadProgram p s).nsym = s.nsym := rfl
@[simp] theorem loadProgram_root (p : List HostAction) : (loadProgram p s).root = s.root := rfl
@[simp] theorem loadProgram_code (p : List HostAction) : (loadProgram p s).code = s.code := rfl
@[simp] theorem loadProgram_maxLen (p : List HostAction) : (loadProgram p s).maxLen = s.maxLen := rfl
@[simp] theorem loadProgram_encq (p : List HostAction) : (loadProgram p s).encq = s.encq := rfl
@[simp] theorem loadProgram_decq (p : List HostAction) : (loadProgram p s).decq = s.decq := rfl
@[simp] theorem loadProgram_dbuf (p : List HostAction) : (loadProgram p s).dbuf = s.dbuf := rfl
@[simp] theorem loadProgram_host (p : List HostAction) : (loadProgram p s).host = p := rfl
@[simp] theorem loadProgram_reads (p : List HostAction) : (loadProgram p s).reads = s.reads := rfl
@[simp] theorem loadProgram_delay (p : List HostAction) : (loadProgram p s).delay = s.delay := rfl
@[simp] theorem loadProgram_draws (p : List HostAction) : (loadProgram p s).draws = s.draws := rfl
@[simp] theorem loadProgram_ties (p : List HostAction) : (loadProgram p s).ties = s.ties := rfl

/-! ### State.reset -/

@[simp] theorem reset_busy : State.reset.busy = false := rfl
@[simp] theorem reset_latch : State.reset.latch = 0 := rfl
@[simp] theorem reset_error : State.reset.error = ErrorReg.clear := rfl
@[simp] theorem reset_treeState : State.reset.treeState = .empty := rfl
@[simp] theorem reset_codeValid : State.reset.codeValid = false := rfl
@[simp] theorem reset_freq : State.reset.freq = [] := rfl
@[simp] theorem reset_nodes : State.reset.nodes = [] := rfl
@[simp] theorem reset_pq : State.reset.pq = [] := rfl
@[simp] theorem reset_nsym : State.reset.nsym = 0 := rfl
@[simp] theorem reset_root : State.reset.root = 0 := rfl
@[simp] theorem reset_code : State.reset.code = [] := rfl
@[simp] theorem reset_maxLen : State.reset.maxLen = 0 := rfl
@[simp] theorem reset_encq : State.reset.encq = [] := rfl
@[simp] theorem reset_decq : State.reset.decq = [] := rfl
@[simp] theorem reset_dbuf : State.reset.dbuf = [] := rfl
@[simp] theorem reset_host : State.reset.host = [] := rfl
@[simp] theorem reset_reads : State.reset.reads = [] := rfl
@[simp] theorem reset_delay : State.reset.delay = 0 := rfl
@[simp] theorem reset_draws : State.reset.draws = 0 := rfl
@[simp] theorem reset_ties : State.reset.ties = 0 := rfl

end Sys2Proof.Machine
end

