-- ==== Sys2Proof/Laws/Ops.lean ====
section
/-! SUPPORT. What the shared operations of Machine/Ops.lean do: the sparse tables and their canonical form, error
recording, the error gate, and chaining of answers. -/

namespace Sys2Proof.Machine

/-! ### Chaining -/

@[simp] theorem andThen_next (s : State) (f : State → Answer) : andThen (.next s) f = f s := rfl

@[simp] theorem andThen_fault (r : Fault) (f : State → Answer) : andThen (.fault r) f = .fault r := rfl

@[simp] theorem andThen_refused (r : Refusal) (f : State → Answer) : andThen (.refused r) f = .refused r := rfl

theorem andThen_eq_next {o : Answer} {f : State → Answer} {t : State} :
    andThen o f = .next t ↔ ∃ s, o = .next s ∧ f s = .next t := by
  cases o <;> simp [andThen]

/-! ### Sparse tables -/

section Tables

variable {α : Type}

theorem tableGet_set (t : List (Symbol × α)) (c d : Symbol) (v : α) :
    tableGet (tableSet c v t) d = if c = d then some v else tableGet t d := by
  induction t with
  | nil => simp [tableSet, tableGet]
  | cons e rest ih =>
    obtain ⟨k, w⟩ := e
    by_cases hck : c = k
    · subst hck; simp only [tableSet, if_true, tableGet]; split <;> rfl
    · by_cases hlt : c.toNat < k.toNat
      · simp [tableSet, hck, hlt, tableGet]
      · simp only [tableSet, hck, hlt, if_false, tableGet, ih]
        by_cases hcd : c = d
        · subst hcd; simp [Ne.symm hck]
        · simp [hcd]

theorem tableGet_erase (t : List (Symbol × α)) (c d : Symbol) :
    tableGet (tableErase c t) d = if c = d then none else tableGet t d := by
  induction t with
  | nil => simp [tableErase, tableGet]
  | cons e rest ih =>
    obtain ⟨k, w⟩ := e
    simp only [tableErase] at ih
    by_cases hck : k = c
    · subst hck; simp only [tableErase, bne_self_eq_false, Bool.false_eq_true, not_false_eq_true,
        List.filter_cons_of_neg, tableGet, ih]
      split <;> simp_all
    · rw [tableErase, List.filter_cons_of_pos (by simpa using hck)]
      simp only [tableGet, ih]
      by_cases hkd : k = d
      · subst hkd; simp [Ne.symm hck]
      · simp [hkd]

theorem mem_of_tableGet {t : List (Symbol × α)} {c : Symbol} {v : α} (h : tableGet t c = some v) : (c, v) ∈ t := by
  induction t with
  | nil => simp [tableGet] at h
  | cons e rest ih =>
    obtain ⟨k, w⟩ := e
    simp only [tableGet] at h
    split at h
    · simp_all
    · exact List.mem_cons_of_mem _ (ih h)

theorem tableGet_eq_some_iff {t : List (Symbol × α)} (h : rising t) {c : Symbol} {v : α} :
    tableGet t c = some v ↔ (c, v) ∈ t := by
  refine ⟨mem_of_tableGet, fun hm => ?_⟩
  induction t with
  | nil => simp at hm
  | cons e rest ih =>
    obtain ⟨k, w⟩ := e
    rw [rising, List.pairwise_cons] at h
    rcases List.mem_cons.1 hm with heq | hm
    · cases heq; simp [tableGet]
    · have hlt := h.1 _ hm
      have hne : k ≠ c := by rintro rfl; simp at hlt
      simpa [tableGet, hne] using ih h.2 hm

theorem tableGet_eq_none_iff {t : List (Symbol × α)} {c : Symbol} :
    tableGet t c = none ↔ ∀ e ∈ t, e.1 ≠ c := by
  induction t with
  | nil => simp [tableGet]
  | cons e rest ih =>
    obtain ⟨k, w⟩ := e
    simp only [tableGet, List.mem_cons, forall_eq_or_imp]
    split <;> simp_all

theorem mem_tableSet {t : List (Symbol × α)} {c : Symbol} {v : α} {e : Symbol × α} (h : e ∈ tableSet c v t) :
    e = (c, v) ∨ e ∈ t := by
  induction t with
  | nil => simp_all [tableSet]
  | cons x rest ih =>
    obtain ⟨k, w⟩ := x
    simp only [tableSet] at h
    split at h
    · rcases List.mem_cons.1 h with h | h
      · exact .inl h
      · exact .inr (List.mem_cons_of_mem _ h)
    · split at h
      · rcases List.mem_cons.1 h with h | h
        · exact .inl h
        · exact .inr h
      · rcases List.mem_cons.1 h with h | h
        · exact .inr (h ▸ List.mem_cons_self)
        · exact (ih h).imp id (List.mem_cons_of_mem _)

theorem rising_tableSet {t : List (Symbol × α)} (h : rising t) (c : Symbol) (v : α) : rising (tableSet c v t) := by
  induction t with
  | nil => simp [tableSet, rising]
  | cons e rest ih =>
    obtain ⟨k, w⟩ := e
    rw [rising, List.pairwise_cons] at h
    by_cases hck : c = k
    · subst hck; simpa [tableSet, rising, List.pairwise_cons] using h
    · by_cases hlt : c.toNat < k.toNat
      · simp only [tableSet, hck, hlt, if_true, if_false, rising, List.pairwise_cons, List.mem_cons]
        refine ⟨?_, h.1, h.2⟩
        rintro x (rfl | hx)
        · exact hlt
        · exact hlt.trans (h.1 x hx)
      · simp only [tableSet, hck, hlt, if_false, rising, List.pairwise_cons]
        refine ⟨fun x hx => ?_, ih h.2⟩
        rcases mem_tableSet hx with rfl | hx
        · have : c.toNat ≠ k.toNat := fun hh => hck (BitVec.eq_of_toNat_eq hh)
          show k.toNat < c.toNat
          omega
        · exact h.1 x hx

theorem rising_filter {t : List (Symbol × α)} (h : rising t) (p : Symbol × α → Bool) : rising (t.filter p) :=
  h.sublist List.filter_sublist

theorem rising_tableErase {t : List (Symbol × α)} (h : rising t) (c : Symbol) : rising (tableErase c t) :=
  rising_filter h _

end Tables

/-! ### The frequency store -/

theorem Memory.wf_iff (m : Memory) : Memory.wf m = true ↔ rising m ∧ ∀ e ∈ m, e.2 ≠ 0 := by
  simp [Memory.wf]

theorem Memory.wf_nil : Memory.wf [] = true := by decide

theorem Memory.read_eq_iff {m : Memory} (h : Memory.wf m = true) {c : Symbol} {v : Word} (hv : v ≠ 0) :
    Memory.read m c = v ↔ (c, v) ∈ m := by
  rw [← tableGet_eq_some_iff ((Memory.wf_iff m).1 h).1, Memory.read]
  cases hg : tableGet m c
  · simpa using hv.symm
  · simp

/-- Every write keeps the canonical form. -/
theorem Memory.wf_write {m : Memory} (h : Memory.wf m = true) (c : Symbol) (v : Word) :
    Memory.wf (Memory.write m c v) = true := by
  rw [Memory.wf_iff] at h ⊢
  rw [Memory.write]
  split
  · exact ⟨rising_tableErase h.1 c, fun e he => h.2 e (List.mem_of_mem_filter he)⟩
  · refine ⟨rising_tableSet h.1 c v, fun e he => ?_⟩
    rcases mem_tableSet he with rfl | he
    · assumption
    · exact h.2 e he

/-- A read after a write: the value written at its symbol, every other entry as before. -/
theorem Memory.read_write (m : Memory) (c d : Symbol) (v : Word) :
    Memory.read (Memory.write m c v) d = if c = d then v else Memory.read m d := by
  simp only [Memory.read, Memory.write]
  split
  · rename_i hv
    rw [tableGet_erase]
    split <;> simp [hv]
  · rw [tableGet_set]
    split <;> rfl

/-- The present symbols of a canonical store are all it lists. -/
theorem present_of_wf {m : Memory} (h : Memory.wf m = true) : present m = m := by
  rw [Memory.wf_iff] at h
  exact List.filter_eq_self.2 fun e he => by simpa using h.2 e he

/-! ### Errors -/

theorem ErrorReg.record_of_none {e : ErrorReg} (h : e.code = .none) (k : ErrorCode) (src : ErrorSource)
    (x : BitVec 16) : e.record k src x = { code := k, multi := false, src := src, info := x } := by
  simp [ErrorReg.record, h]

theorem ErrorReg.record_of_pending {e : ErrorReg} (h : e.code ≠ .none) (k : ErrorCode) (src : ErrorSource)
    (x : BitVec 16) : e.record k src x = { e with multi := true } := by
  simp [ErrorReg.record, h]

/-- After recording an error some code stands in ERROR. -/
theorem ErrorReg.record_code_ne_none {e : ErrorReg} {k : ErrorCode} (h : k ≠ .none) (src : ErrorSource)
    (x : BitVec 16) : (e.record k src x).code ≠ .none := by
  by_cases he : e.code = .none
  · simp [ErrorReg.record, he, h]
  · simp [ErrorReg.record, he]

/-! ### The error gate -/

theorem gated_of_clear {s : State} (h : s.error.code = .none) (run : State → Answer) : gated s run = run s := by
  simp [gated, h]

theorem gated_of_pending {s : State} (h : s.error.code ≠ .none) (run : State → Answer) :
    gated s run = .next (rejectCommand s) := by
  simp [gated, h]

theorem gated_eq_next {s t : State} {run : State → Answer} :
    gated s run = .next t ↔
      (s.error.code = .none ∧ run s = .next t) ∨ (s.error.code ≠ .none ∧ t = rejectCommand s) := by
  by_cases h : s.error.code = .none
  · simp [gated_of_clear h, h]
  · simp [gated_of_pending h, h, eq_comm]

theorem raise_eq_next {s t : State} {k : ErrorCode} : raise k s = .next t ↔ t = recordCommandError k s := by
  simp [raise, eq_comm]

end Sys2Proof.Machine
end

