-- ==== Sys2Proof/Laws/TreeBuilder.lean ====
section
/-! SUPPORT. What the tree builder's operations do: the candidates of an extraction, the tie selections, one merge step,
the merge loop and seeding. -/

namespace Sys2Proof.Machine

open Sys2Proof.Safety

/-! ### The queue's key and the candidates (R111) -/

theorem minKey_le {nodes : List Node} {pq : List Nat} {i : Nat} (h : i ∈ pq) : minKey nodes pq ≤ nodeKey nodes i := by
  have hm : nodeKey nodes i ∈ pq.map (nodeKey nodes) := List.mem_map_of_mem h
  rw [minKey]
  cases hmin : (pq.map (nodeKey nodes)).min? with
  | none => simp [List.min?_eq_none_iff] at hmin; simp [hmin] at h
  | some m => exact (List.min?_eq_some_iff.1 hmin).2 _ hm

theorem exists_minKey {nodes : List Node} {pq : List Nat} (h : pq ≠ []) : ∃ i ∈ pq, nodeKey nodes i = minKey nodes pq := by
  rw [minKey]
  cases hmin : (pq.map (nodeKey nodes)).min? with
  | none => simp [List.min?_eq_none_iff] at hmin; exact absurd hmin h
  | some m => simpa using (List.min?_eq_some_iff.1 hmin).1

/-- The candidates are the members of minimum weight. -/
theorem mem_cands {nodes : List Node} {pq : List Nat} {i : Nat} :
    i ∈ cands nodes pq ↔ i ∈ pq ∧ ∀ j ∈ pq, nodeKey nodes i ≤ nodeKey nodes j := by
  simp only [cands, List.mem_filter, beq_iff_eq]
  refine and_congr_right fun hi => ⟨fun h j hj => h ▸ minKey_le hj, fun h => ?_⟩
  obtain ⟨j, hj, hjm⟩ := exists_minKey (nodes := nodes) (List.ne_nil_of_mem hi)
  exact le_antisymm (hjm ▸ h j hj) (minKey_le hi)

theorem cands_ne_nil {nodes : List Node} {pq : List Nat} (h : pq ≠ []) : cands nodes pq ≠ [] := by
  obtain ⟨i, hi, him⟩ := exists_minKey (nodes := nodes) h
  exact List.ne_nil_of_mem (List.mem_filter.2 ⟨hi, by simpa using him⟩)

/-! ### Tie selections (R13, R112) -/

theorem tieSelectOf_lawful (choice : Nat → List Nat → Nat) : LawfulTie (tieSelectOf choice) := by
  intro n c hc
  match c, hc with
  | [i], _ => simp [tieSelectOf]
  | i :: j :: rest, _ =>
    have hlt : choice n (i :: j :: rest) % (i :: j :: rest).length < (i :: j :: rest).length :=
      Nat.mod_lt _ (by simp)
    simp only [tieSelectOf]
    rw [List.getD_eq_getElem _ _ hlt]
    exact List.getElem_mem hlt

theorem openTie_lawful : LawfulTie openTie := tieSelectOf_lawful _

theorem lowestIndex_lawful : LawfulTie lowestIndex := by
  intro n c hc
  rw [lowestIndex]
  cases hmin : c.min? with
  | none => exact absurd (List.min?_eq_none_iff.1 hmin) hc
  | some m => exact (List.min?_eq_some_iff.1 hmin).1

/-- An extraction removes a member of minimum weight (R112). -/
theorem extractIndex_mem {tie : TieSelect} (ht : LawfulTie tie) {s : State} (h : s.pq ≠ []) :
    extractIndex tie s ∈ s.pq ∧ ∀ j ∈ s.pq, nodeKey s.nodes (extractIndex tie s) ≤ nodeKey s.nodes j :=
  mem_cands.1 (ht _ _ (cands_ne_nil h))

/-! ### The queue as a rising list -/

theorem insertIndex_of_lt {n : Nat} {l : List Nat} (h : ∀ i ∈ l, i < n) : insertIndex n l = l ++ [n] := by
  induction l with
  | nil => rfl
  | cons i rest ih =>
    have hi := h i List.mem_cons_self
    simp only [insertIndex, Nat.lt_asymm hi, if_false, (Nat.ne_of_lt hi).symm, List.cons_append]
    rw [ih fun j hj => h j (List.mem_cons_of_mem _ hj)]

/-- Inserting an index keeps the canonical form of the queue. -/
theorem rising_insertIndex {n : Nat} {l : List Nat} (h : l.Pairwise (· < ·)) :
    (insertIndex n l).Pairwise (· < ·) ∧ ∀ j, j ∈ insertIndex n l ↔ j = n ∨ j ∈ l := by
  induction l with
  | nil => simp [insertIndex]
  | cons i rest ih =>
    rw [List.pairwise_cons] at h
    obtain ⟨hp, hm⟩ := ih h.2
    simp only [insertIndex]
    split
    · rename_i hlt
      refine ⟨List.pairwise_cons.2 ⟨fun j hj => ?_, List.pairwise_cons.2 h⟩, fun j => by simp⟩
      rcases List.mem_cons.1 hj with rfl | hj
      · exact hlt
      · exact hlt.trans (h.1 j hj)
    · split
      · rename_i heq
        subst heq
        exact ⟨List.pairwise_cons.2 h, fun j => by simp⟩
      · rename_i hnlt hne
        refine ⟨List.pairwise_cons.2 ⟨fun j hj => ?_, hp⟩, fun j => ?_⟩
        · rcases (hm j).1 hj with rfl | hj
          · omega
          · exact h.1 j hj
        · simp only [List.mem_cons, hm]; tauto

/-- Removing an index keeps the canonical form of the queue. -/
theorem rising_erase {l : List Nat} (h : l.Pairwise (· < ·)) (i : Nat) : (l.erase i).Pairwise (· < ·) :=
  h.sublist List.erase_sublist

/-! ### The arena under allocation -/

theorem nodeKey_append {nodes : List Node} {i : Nat} (h : i < nodes.length) (n : Node) :
    nodeKey (nodes ++ [n]) i = nodeKey nodes i := by
  simp [nodeKey, List.getElem?_append_left h]

theorem nodeKey_new (nodes : List Node) (n : Node) : nodeKey (nodes ++ [n]) nodes.length = n.weight.toNat := by
  simp [nodeKey]

theorem weightOf_toNat (nodes : List Node) (i : Nat) : (weightOf nodes i).toNat = nodeKey nodes i := by
  unfold weightOf nodeKey
  cases nodes[i]? <;> rfl

theorem childrenOf_append (nodes : List Node) (w : Weight) (l r : Nat) :
    childrenOf (nodes ++ [.internal w l r]) = childrenOf nodes ++ [l, r] := by
  simp [childrenOf]

/-! ### One merge step (R113) -/

/-- `closeTree` in its two cases. -/
theorem closeTree_eq (n : Nat) (s : State) :
    closeTree n s =
      { s with
        treeState := if s.pq.length = 1 then .built else s.treeState
        root := if s.pq.length = 1 then n else s.root } := by
  unfold closeTree; split <;> simp

/-- Everything a merge step does (R113): `l` is extracted first, `r` second, each a member of minimum weight of the queue
it is extracted from; one internal node over them is allocated and inserted; with one node left the tree is built. -/
theorem mergeNext_spec {tie : TieSelect} (ht : LawfulTie tie) {s : State} (hq : 2 ≤ s.pq.length) :
    ∃ l r,
      l ∈ s.pq ∧ (∀ j ∈ s.pq, nodeKey s.nodes l ≤ nodeKey s.nodes j) ∧
      r ∈ s.pq.erase l ∧ (∀ j ∈ s.pq.erase l, nodeKey s.nodes r ≤ nodeKey s.nodes j) ∧
      mergeNext tie s =
        closeTree s.nodes.length
          { s with
            nodes := s.nodes ++ [mergedNode s.nodes l r]
            pq := insertIndex s.nodes.length ((s.pq.erase l).erase r)
            ties := s.ties + 2 } := by
  have h1 : s.pq ≠ [] := by rintro h; simp [h] at hq
  obtain ⟨hl, hlm⟩ := extractIndex_mem ht h1
  have h2 : (removeFromQueue (extractIndex tie s) s).pq ≠ [] := by
    rintro h
    have := congrArg List.length h
    simp only [removeFromQueue_pq, List.length_erase_of_mem hl, List.length_nil] at this
    omega
  obtain ⟨hr, hrm⟩ := extractIndex_mem ht h2
  exact ⟨_, _, hl, hlm, hr, hrm, rfl⟩

/-- A merge step changes nothing but the arena, the queue, the phase, ROOT and the count of extractions. -/
theorem mergeNext_frame (tie : TieSelect) (s : State) :
    mergeNext tie s =
      { s with
        nodes := (mergeNext tie s).nodes
        pq := (mergeNext tie s).pq
        treeState := (mergeNext tie s).treeState
        root := (mergeNext tie s).root
        ties := (mergeNext tie s).ties } := by
  simp only [mergeNext, closeTree]; split <;> rfl

theorem length_insertIndex_of_lt {n : Nat} {l : List Nat} (h : ∀ i ∈ l, i < n) :
    (insertIndex n l).length = l.length + 1 := by
  simp [insertIndex_of_lt h]

theorem mergeStep_of_ready {tie : TieSelect} {s : State} (h : QueueReady s) :
    mergeStep tie s = .next (mergeNext tie s) := if_pos h

theorem mergeStep_eq_next {tie : TieSelect} {s t : State} :
    mergeStep tie s = .next t ↔ QueueReady s ∧ t = mergeNext tie s := by
  by_cases h : QueueReady s
  · rw [mergeStep_of_ready h, Host.Outcome.next.injEq]
    exact ⟨fun e => ⟨h, e.symm⟩, fun e => e.2.symm⟩
  · rw [mergeStep, if_neg h]
    exact ⟨nofun, fun e => absurd e.1 h⟩

end Sys2Proof.Machine
end

