-- ==== Sys2Proof/Laws/Invariant.lean ====
section
/-! SUPPORT. The invariant of Safety.lean under the tree builder's operations, and the counting facts behind R42. -/

namespace Sys2Proof.Safety

open Sys2Proof.Machine

/-! ### Counting (R7, R10) -/

/-- A strictly rising table lists at most 256 symbols. -/
theorem length_le_of_rising {α : Type} {t : List (Symbol × α)} (h : rising t) : t.length ≤ 256 := by
  have hn : (t.map fun e => e.1.toFin).Nodup := by
    rw [List.Nodup, List.pairwise_map]
    refine h.imp fun {a b} hab => ?_
    intro he
    have : a.1.toNat = b.1.toNat := congrArg Fin.val he
    omega
  simpa using hn.length_le_card

/-- The sum of the counts fits in 40 bits (R10). -/
theorem listedTotal_lt {m : Memory} (h : Memory.wf m = true) : listedTotal m < 2 ^ 40 := by
  have hlen := length_le_of_rising ((Memory.wf_iff m).1 h).1
  have hle : listedTotal m ≤ m.length * (2 ^ 32 - 1) := by
    clear h hlen
    induction m with
    | nil => simp [listedTotal]
    | cons e rest ih =>
      simp only [listedTotal, List.map_cons, List.sum_cons, List.length_cons] at ih ⊢
      have := e.2.isLt
      omega
  have : m.length * (2 ^ 32 - 1) ≤ 256 * (2 ^ 32 - 1) := Nat.mul_le_mul_right _ hlen
  omega

theorem nodeKey_le_sum {nodes : List Node} {pq : List Nat} {i : Nat} (h : i ∈ pq) :
    nodeKey nodes i ≤ (pq.map (nodeKey nodes)).sum :=
  List.single_le_sum (by simp) _ (List.mem_map_of_mem h)

/-- Taking two members out of the queue takes their keys out of the sum. -/
theorem sum_erase_erase {f : Nat → Nat} {pq : List Nat} {l r : Nat} (hl : l ∈ pq) (hr : r ∈ pq.erase l) :
    (pq.map f).sum = f l + f r + (((pq.erase l).erase r).map f).sum := by
  rw [((List.perm_cons_erase hl).map f).sum_eq, List.map_cons, List.sum_cons,
    ((List.perm_cons_erase hr).map f).sum_eq, List.map_cons, List.sum_cons, Nat.add_assoc]

/-! ### The arena -/

theorem arena_iff {nodes : List Node} :
    ((List.range nodes.length).all (nodeOk nodes)) = true ↔
      ∀ i w l r, nodes[i]? = some (.internal w l r) →
        l < i ∧ r < i ∧ w.toNat = nodeKey nodes l + nodeKey nodes r := by
  simp only [List.all_eq_true, List.mem_range]
  constructor
  · intro h i w l r hi
    have := h i (List.getElem?_eq_some_iff.1 hi).1
    simpa [nodeOk, hi, and_assoc] using this
  · intro h i _
    unfold nodeOk
    split
    · rename_i w l r hi
      simpa [and_assoc] using h i w l r hi
    · rfl

theorem Inv.pq_lt {s : State} (h : Inv s) {i : Nat} (hi : i ∈ s.pq) : i < s.nodes.length :=
  List.mem_range.1 (h.owned.subset (List.mem_append_left _ hi))

theorem Inv.queueReady {s : State} (h : Inv s) (hb : s.treeState = .building) : QueueReady s :=
  ⟨(h.building hb).1, fun _ hi => h.pq_lt hi⟩

theorem Inv.codeValid_false {s : State} (h : Inv s) (hb : s.treeState ≠ .built) : s.codeValid = false := by
  cases hc : s.codeValid
  · rfl
  · exact absurd (h.hasCode hc).1 hb

theorem Inv.nsym_le {s : State} (h : Inv s) (hb : s.treeState ≠ .empty) : s.nsym ≤ s.nodes.length := by
  obtain ⟨h1, h2, -⟩ := h.seeded hb
  have := congrArg List.length h2
  rw [List.length_take, ← h1] at this
  omega

/-! ### Merging keeps the invariant -/

/-- The forest fields after a merge of `l` and `r`, before the tree is closed. -/
theorem Inv.merge {tie : TieSelect} (ht : LawfulTie tie) {s : State} (h : Inv s) (hb : s.treeState = .building) :
    Inv (mergeNext tie s) ∧ (mergeNext tie s).treeState ≠ .empty ∧
      (mergeNext tie s).pq.length + 1 = s.pq.length ∧
      (mergeNext tie s).nodes.length = s.nodes.length + 1 ∧
      (mergeNext tie s).ties = s.ties + 2 ∧
      ((mergeNext tie s).treeState = .building ∨
        (mergeNext tie s).treeState = .built ∧ (mergeNext tie s).pq.length = 1) := by
  obtain ⟨hq, hroot⟩ := h.building hb
  obtain ⟨l, r, hl, -, hr, -, heq⟩ := mergeNext_spec ht hq
  have hne : s.treeState ≠ .empty := by simp [hb]
  have hlt : ∀ i ∈ (s.pq.erase l).erase r, i < s.nodes.length := fun i hi =>
    h.pq_lt (List.mem_of_mem_erase (List.mem_of_mem_erase hi))
  have hlen1 : (s.pq.erase l).length + 1 = s.pq.length := by
    rw [List.length_erase_of_mem hl]; have := List.length_pos_of_mem hl; omega
  have hlen2 : ((s.pq.erase l).erase r).length + 1 = (s.pq.erase l).length := by
    rw [List.length_erase_of_mem hr]; have := List.length_pos_of_mem hr; omega
  have hll : l < s.nodes.length := h.pq_lt hl
  have hrl : r < s.nodes.length := h.pq_lt (List.mem_of_mem_erase hr)
  have hsum := sum_erase_erase (f := nodeKey s.nodes) hl hr
  have htot := h.total hne
  have hbound := listedTotal_lt h.freqWf
  have hw : (mergedNode s.nodes l r).weight.toNat = nodeKey s.nodes l + nodeKey s.nodes r := by
    show (weightOf s.nodes l + weightOf s.nodes r).toNat = _
    rw [BitVec.toNat_add, weightOf_toNat, weightOf_toNat, Nat.mod_eq_of_lt]
    rw [queueWeight] at htot
    omega
  have hins := insertIndex_of_lt hlt
  have hseed := h.seeded hne
  have hns := h.nsym_le hne
  have hcv := h.codeValid_false (by simp [hb])
  have hno := h.noCode hcv
  rw [heq, closeTree_eq, hins]
  have hlenq : ((s.pq.erase l).erase r ++ [s.nodes.length]).length + 1 = s.pq.length := by
    simp; omega
  refine ⟨?_, ?_, hlenq, by simp, rfl, ?_⟩
  · constructor
    · exact h.freqWf
    · exact h.errorClear
    · exact h.idleDelay
    · intro he
      simp only at he
      split at he
      · simp at he
      · exact absurd he hne
    · intro _
      refine ⟨hseed.1, ?_, ?_⟩
      · show (s.nodes ++ _).take s.nsym = _
        rw [List.take_append_of_le_length hns]; exact hseed.2.1
      · show ((s.nodes ++ _).drop s.nsym).all _ = true
        rw [List.drop_append_of_le_length hns, List.all_append, hseed.2.2]
        rfl
    · rw [arena_iff]
      intro i w l' r' hi
      rcases Nat.lt_trichotomy i s.nodes.length with hilt | rfl | higt
      · simp only at hi
        rw [List.getElem?_append_left hilt] at hi
        obtain ⟨h1, h2, h3⟩ := arena_iff.1 h.arena i w l' r' hi
        refine ⟨h1, h2, ?_⟩
        rw [h3]
        simp only
        rw [nodeKey_append (by omega), nodeKey_append (by omega)]
      · simp only [List.getElem?_concat_length, Option.some.injEq] at hi
        rw [mergedNode, Node.internal.injEq] at hi
        obtain ⟨rfl, rfl, rfl⟩ := hi
        refine ⟨hll, hrl, ?_⟩
        simp only
        rw [nodeKey_append hll, nodeKey_append hrl]
        exact hw
      · simp only at hi
        rw [List.getElem?_eq_none (by simp; omega)] at hi
        simp at hi
    · show ((s.pq.erase l).erase r ++ [s.nodes.length]).Pairwise _
      rw [List.pairwise_append]
      exact ⟨rising_erase (rising_erase h.queueRising l) r, by simp, fun a ha b hb => by
        rw [List.mem_singleton.1 hb]; exact hlt a ha⟩
    · show (((s.pq.erase l).erase r ++ [s.nodes.length]) ++ childrenOf (s.nodes ++ [mergedNode s.nodes l r])).Perm
        (List.range (s.nodes ++ [mergedNode s.nodes l r]).length)
      rw [mergedNode, childrenOf_append, List.length_append, List.length_singleton, List.range_succ]
      have hp : (l :: r :: (s.pq.erase l).erase r).Perm s.pq :=
        ((List.perm_cons_erase hr).symm.cons l).trans (List.perm_cons_erase hl).symm
      have hp2 := (hp.append_right (childrenOf s.nodes)).trans h.owned
      refine List.Perm.trans ?_ (hp2.append_right [s.nodes.length])
      rw [List.perm_iff_count]
      intro a
      simp only [List.count_append, List.count_cons, List.count_nil]
      omega
    · intro _
      show queueWeight _ = listedTotal s.freq
      rw [queueWeight, List.map_append, List.sum_append, List.map_singleton, List.sum_singleton, nodeKey_new, hw,
        ← htot, queueWeight, hsum]
      rw [List.map_congr_left fun i hi => nodeKey_append (hlt i hi) _]
      omega
    · intro hbd
      simp only at hbd ⊢
      split at hbd
      · simp at hbd
      · rename_i h1
        simp only [h1, if_false]
        refine ⟨?_, hroot⟩
        have : ((s.pq.erase l).erase r ++ [s.nodes.length]).length ≠ 1 := h1
        have : 0 < ((s.pq.erase l).erase r ++ [s.nodes.length]).length := by simp
        omega
    · intro hbt
      simp only at hbt ⊢
      split at hbt
      · rename_i h1
        simp only [h1, if_true]
        have : (s.pq.erase l).erase r = [] := by
          have h1' : ((s.pq.erase l).erase r ++ [s.nodes.length]).length = 1 := h1
          rw [List.length_append, List.length_singleton] at h1'
          exact List.length_eq_zero_iff.1 (by omega)
        simp [this]
      · exact absurd hbt (by simp [hb])
    · exact fun _ => hno
    · intro hc
      exact absurd (hcv.symm.trans hc) (by simp)
    · intro hd
      exact absurd hno.2.2 hd
    · exact h.encBound
    · exact h.decBound
  · simp only
    split
    · simp
    · exact hne
  · simp only
    split
    · rename_i h1
      exact .inr ⟨rfl, h1⟩
    · exact .inl hb

end Sys2Proof.Safety
end

