-- ==== Sys2Proof/Laws/CodeTable.lean ====
section
/-! SUPPORT. Paths in the arena, the walk of CODEGEN, and the table it writes: under the invariant a symbol's code is the
one path from ROOT to its leaf. -/

namespace Sys2Proof.Safety

open Sys2Proof.Machine

/-! ### Paths -/

@[simp] theorem descend_nil (nodes : List Node) (i : Nat) : descend nodes i [] = some i := by
  simp [descend]

theorem descend_cons_internal {nodes : List Node} {i l r : Nat} {w : Weight}
    (h : nodes[i]? = some (.internal w l r)) (b : Bool) (p : Bits) :
    descend nodes i (b :: p) = descend nodes (if b then r else l) p := by
  simp [descend, h]

theorem descend_append (nodes : List Node) (i : Nat) (p q : Bits) :
    descend nodes i (p ++ q) = (descend nodes i p).bind fun j => descend nodes j q := by
  induction p generalizing i with
  | nil => simp
  | cons b p ih =>
    simp only [List.cons_append, descend]
    split
    · rename_i l r _; exact ih _
    · rfl

/-- A path goes on only from an internal node. -/
theorem descend_cons_eq_some {nodes : List Node} {i j : Nat} {b : Bool} {p : Bits}
    (h : descend nodes i (b :: p) = some j) :
    ∃ w l r, nodes[i]? = some (.internal w l r) ∧ descend nodes (if b then r else l) p = some j := by
  simp only [descend] at h
  split at h
  · exact ⟨_, _, _, by assumption, h⟩
  · simp at h

/-- No path leads on from a leaf. -/
theorem descend_of_leaf {nodes : List Node} {i j : Nat} {c : Symbol} {w : Weight} {p : Bits}
    (hi : nodes[i]? = some (.leaf c w)) (h : descend nodes i p = some j) : p = [] ∧ j = i := by
  cases p with
  | nil => simp at h; exact ⟨rfl, h.symm⟩
  | cons b p =>
    obtain ⟨w', l, r, hn, -⟩ := descend_cons_eq_some h
    rw [hi] at hn
    simp at hn

/-! ### The walk (R130) -/

/-- What the walk finds is where paths lead. -/
theorem mem_walk {nodes : List Node} {fuel i : Nat} {p : Bits} {pairs : List (Symbol × Bits)}
    (h : walk nodes fuel i p = some pairs) {c : Symbol} {q : Bits} :
    (c, q) ∈ pairs ↔ ∃ d j w, q = p ++ d ∧ descend nodes i d = some j ∧ nodes[j]? = some (.leaf c w) := by
  induction fuel generalizing i p pairs with
  | zero => simp [walk] at h
  | succ fuel ih =>
    simp only [walk] at h
    split at h
    · simp at h
    · rename_i c' w' hi
      simp only [Option.some.injEq] at h
      subst h
      simp only [List.mem_singleton, Prod.mk.injEq]
      constructor
      · rintro ⟨rfl, rfl⟩
        exact ⟨[], i, w', by simp, by simp, hi⟩
      · rintro ⟨d, j, w, rfl, hd, hj⟩
        obtain ⟨rfl, rfl⟩ := descend_of_leaf hi hd
        rw [hi] at hj
        simp at hj
        simp [hj.1]
    · rename_i w' l r hi
      split at h
      · rename_i a b ha hb
        simp only [Option.some.injEq] at h
        subst h
        rw [List.mem_append, ih ha, ih hb]
        constructor
        · rintro (⟨d, j, w, rfl, hd, hj⟩ | ⟨d, j, w, rfl, hd, hj⟩)
          · exact ⟨false :: d, j, w, by simp, by simpa [descend_cons_internal hi] using hd, hj⟩
          · exact ⟨true :: d, j, w, by simp, by simpa [descend_cons_internal hi] using hd, hj⟩
        · rintro ⟨d, j, w, rfl, hd, hj⟩
          cases d with
          | nil =>
            simp only [descend_nil, Option.some.injEq] at hd
            subst hd
            rw [hi] at hj
            simp at hj
          | cons b' d =>
            rw [descend_cons_internal hi] at hd
            cases b' with
            | false => exact .inl ⟨d, j, w, by simp, by simpa using hd, hj⟩
            | true => exact .inr ⟨d, j, w, by simp, by simpa using hd, hj⟩
      · simp at h

/-- Where children come before their parents the walk ends. -/
theorem walk_isSome {nodes : List Node} (ha : ((List.range nodes.length).all (nodeOk nodes)) = true)
    {fuel i : Nat} (hi : i < nodes.length) (hf : i < fuel) (p : Bits) : ∃ pairs, walk nodes fuel i p = some pairs := by
  induction fuel generalizing i p with
  | zero => omega
  | succ fuel ih =>
    simp only [walk]
    split
    · rename_i hn; rw [List.getElem?_eq_none_iff] at hn; omega
    · exact ⟨_, rfl⟩
    · rename_i w l r hn
      obtain ⟨hl, hr, -⟩ := arena_iff.1 ha i w l r hn
      obtain ⟨a, hla⟩ := ih (i := l) (by omega) (by omega) (p ++ [false])
      obtain ⟨b, hrb⟩ := ih (i := r) (by omega) (by omega) (p ++ [true])
      exact ⟨a ++ b, by simp [hla, hrb]⟩

/-- Where children come before their parents, some leaf lies below every node. -/
theorem exists_leaf_below {nodes : List Node} (ha : ((List.range nodes.length).all (nodeOk nodes)) = true)
    {i : Nat} (hi : i < nodes.length) : ∃ d j c w, descend nodes i d = some j ∧ nodes[j]? = some (.leaf c w) := by
  induction i using Nat.strong_induction_on with
  | _ i ih =>
    cases hn : nodes[i]? with
    | none => rw [List.getElem?_eq_none_iff] at hn; omega
    | some n =>
      cases n with
      | leaf c w => exact ⟨[], i, c, w, by simp, hn⟩
      | internal w l r =>
        obtain ⟨hl, -, -⟩ := arena_iff.1 ha i w l r hn
        obtain ⟨d, j, c, w', hd, hj⟩ := ih l hl (by omega)
        exact ⟨false :: d, j, c, w', by simpa [descend_cons_internal hn] using hd, hj⟩

/-! ### The table of the assigned codes (R130) -/

theorem tableOfCodes_eq_foldr (pairs : List (Symbol × Bits)) :
    tableOfCodes pairs = pairs.reverse.foldr (fun e t => tableSet e.1 e.2 t) [] := by
  rw [tableOfCodes, List.foldr_reverse]

theorem rising_tableOfCodes (pairs : List (Symbol × Bits)) : rising (tableOfCodes pairs) := by
  rw [tableOfCodes_eq_foldr]
  induction pairs.reverse with
  | nil => exact List.Pairwise.nil
  | cons e rest ih => exact rising_tableSet ih e.1 e.2

/-- A table holds the pairs it was made of, when no symbol has two codes. -/
theorem mem_tableOfCodes {pairs : List (Symbol × Bits)}
    (hd : ∀ c p q, (c, p) ∈ pairs → (c, q) ∈ pairs → p = q) {c : Symbol} {p : Bits} :
    (c, p) ∈ tableOfCodes pairs ↔ (c, p) ∈ pairs := by
  rw [← tableGet_eq_some_iff (rising_tableOfCodes pairs), tableOfCodes_eq_foldr]
  have hd' : ∀ c p q, (c, p) ∈ pairs.reverse → (c, q) ∈ pairs.reverse → p = q := by simpa using hd
  rw [← List.mem_reverse]
  generalize pairs.reverse = ps at hd' ⊢
  induction ps with
  | nil => simp [tableGet]
  | cons e rest ih =>
    obtain ⟨k, q⟩ := e
    rw [List.foldr_cons, tableGet_set]
    split
    · rename_i hk
      simp only at hk
      subst hk
      simp only [Option.some.injEq, List.mem_cons, Prod.mk.injEq, true_and]
      constructor
      · intro h; exact .inl h.symm
      · rintro (h | h)
        · exact h.symm
        · exact hd' k q p List.mem_cons_self (List.mem_cons_of_mem _ h)
    · rename_i hk
      have ih' := ih fun c p q h1 h2 => hd' c p q (List.mem_cons_of_mem _ h1) (List.mem_cons_of_mem _ h2)
      refine Iff.trans ih' ?_
      simp only [List.mem_cons, Prod.mk.injEq]
      constructor
      · exact .inr
      · rintro (⟨rfl, -⟩ | h)
        · exact absurd rfl hk
        · exact h

theorem le_maxCodeLen {t : CodeTable} {e : Symbol × Bits} (h : e ∈ t) : e.2.length ≤ maxCodeLen t := by
  have gen : ∀ (t : CodeTable) (m : Nat),
      m ≤ t.foldl (fun m e => max m e.2.length) m ∧
        ∀ e ∈ t, e.2.length ≤ t.foldl (fun m e => max m e.2.length) m := by
    intro t
    induction t with
    | nil => simp
    | cons x rest ih =>
      intro m
      obtain ⟨h1, h2⟩ := ih (max m x.2.length)
      simp only [List.foldl_cons]
      refine ⟨by omega, fun e he => ?_⟩
      rcases List.mem_cons.1 he with rfl | he
      · omega
      · exact h2 e he
  exact (gen t 0).2 e h

theorem exists_maxCodeLen {t : CodeTable} (h : t ≠ []) : ∃ e ∈ t, e.2.length = maxCodeLen t := by
  have gen : ∀ (t : CodeTable) (m : Nat),
      t.foldl (fun m e => max m e.2.length) m = m ∨
        ∃ e ∈ t, e.2.length = t.foldl (fun m e => max m e.2.length) m := by
    intro t
    induction t with
    | nil => simp
    | cons x rest ih =>
      intro m
      simp only [List.foldl_cons]
      rcases ih (max m x.2.length) with h | ⟨e, he, h⟩
      · rcases Nat.le_total m x.2.length with hm | hm
        · exact .inr ⟨x, List.mem_cons_self, by rw [h]; omega⟩
        · exact .inl (by rw [h]; omega)
      · exact .inr ⟨e, List.mem_cons_of_mem _ he, h⟩
  rcases gen t 0 with h0 | h0
  · obtain ⟨x, rest, rfl⟩ := List.exists_cons_of_ne_nil h
    have := le_maxCodeLen (t := x :: rest) List.mem_cons_self
    exact ⟨x, List.mem_cons_self, by rw [maxCodeLen] at *; omega⟩
  · exact h0

/-! ### Paths under the invariant -/

/-- The child of a node along a bit. -/
def childAt (nodes : List Node) (i : Nat) (b : Bool) : Option Nat :=
  match nodes[i]? with
  | some (.internal _ l r) => some (if b then r else l)
  | _ => none

theorem mem_childrenOf {nodes : List Node} {j : Nat} :
    j ∈ childrenOf nodes ↔ ∃ i b, childAt nodes i b = some j := by
  rw [childrenOf, List.mem_flatMap]
  constructor
  · rintro ⟨n, hn, hj⟩
    obtain ⟨i, hi⟩ := List.mem_iff_getElem?.1 hn
    cases n with
    | leaf c w => simp at hj
    | internal w l r =>
      rcases List.mem_pair.1 hj with rfl | rfl
      · exact ⟨i, false, by simp [childAt, hi]⟩
      · exact ⟨i, true, by simp [childAt, hi]⟩
  · rintro ⟨i, b, h⟩
    unfold childAt at h
    split at h
    · rename_i w l r hi
      refine ⟨_, List.mem_of_getElem? hi, ?_⟩
      cases b <;> simp at h <;> simp [h]
    · simp at h

theorem childAt_lt {nodes : List Node} (ha : ((List.range nodes.length).all (nodeOk nodes)) = true) {i j : Nat} {b : Bool}
    (h : childAt nodes i b = some j) : j < i ∧ i < nodes.length := by
  unfold childAt at h
  split at h
  · rename_i w l r hi
    obtain ⟨hl, hr, -⟩ := arena_iff.1 ha i w l r hi
    have := (List.getElem?_eq_some_iff.1 hi).1
    cases b <;> simp at h <;> omega
  · simp at h

theorem descend_one (nodes : List Node) (i : Nat) (b : Bool) : descend nodes i [b] = childAt nodes i b := by
  cases hn : nodes[i]? with
  | none => simp [descend, childAt, hn]
  | some n => cases n <;> simp [descend, childAt, hn]

theorem descend_concat {nodes : List Node} {i j : Nat} {p : Bits} {b : Bool} :
    descend nodes i (p ++ [b]) = some j ↔ ∃ k, descend nodes i p = some k ∧ childAt nodes k b = some j := by
  rw [descend_append]
  cases descend nodes i p with
  | none => simp
  | some k =>
    rw [Option.bind_some, descend_one]
    simp

/-- In the children list each index stands once, so a child has one parent and one side. -/
theorem childAt_unique {nodes : List Node} (hn : (childrenOf nodes).Nodup) {i i' j : Nat} {b b' : Bool}
    (h : childAt nodes i b = some j) (h' : childAt nodes i' b' = some j) : i = i' ∧ b = b' := by
  unfold childAt at h h'
  split at h
  case h_2 => simp at h
  split at h'
  case h_2 => simp at h'
  rename_i w l r hi _ w' l' r' hi'
  simp only [Option.some.injEq] at h h'
  rw [childrenOf, List.nodup_flatMap] at hn
  have hlt := (List.getElem?_eq_some_iff.1 hi)
  have hlt' := (List.getElem?_eq_some_iff.1 hi')
  have hii : i = i' := by
    by_contra hne
    have hpw := List.pairwise_iff_getElem.1 hn.2
    rcases Nat.lt_or_gt_of_ne hne with hlt2 | hlt2
    · have := hpw i i' hlt.1 hlt'.1 hlt2
      simp only [Function.onFun, hlt.2, hlt'.2, List.disjoint_left] at this
      refine this (a := j) ?_ ?_ <;> cases b <;> cases b' <;> simp_all
    · have := hpw i' i hlt'.1 hlt.1 hlt2
      simp only [Function.onFun, hlt.2, hlt'.2, List.disjoint_left] at this
      refine this (a := j) ?_ ?_ <;> cases b <;> cases b' <;> simp_all
  subst hii
  refine ⟨rfl, ?_⟩
  rw [hi] at hi'
  simp only [Option.some.injEq, Node.internal.injEq] at hi'
  obtain ⟨-, rfl, rfl⟩ := hi'
  have hnd := hn.1 _ (List.mem_of_getElem? hi)
  have hlr : l ≠ r := by simpa using hnd
  cases b <;> cases b' <;> simp_all

theorem Inv.nodup_owned {s : State} (h : Inv s) : (s.pq ++ childrenOf s.nodes).Nodup :=
  h.owned.nodup_iff.2 List.nodup_range

/-- In the built tree two paths from ROOT to one node are equal (R117). -/
theorem Inv.path_unique {s : State} (h : Inv s) (hb : s.treeState = .built) {p q : Bits} {j : Nat}
    (hp : descend s.nodes s.root p = some j) (hq : descend s.nodes s.root q = some j) : p = q := by
  have hnd := h.nodup_owned
  rw [h.built hb, List.singleton_append, List.nodup_cons] at hnd
  have hroot : ∀ (r : Bits) (b : Bool), descend s.nodes s.root (r ++ [b]) ≠ some s.root := by
    intro r b hr
    obtain ⟨k, -, hk⟩ := descend_concat.1 hr
    exact hnd.1 (mem_childrenOf.2 ⟨k, b, hk⟩)
  induction p using List.reverseRecOn generalizing q j with
  | nil =>
    simp only [descend_nil, Option.some.injEq] at hp
    subst hp
    rcases List.eq_nil_or_concat q with rfl | ⟨q', b, rfl⟩
    · rfl
    · exact absurd (by simpa using hq) (hroot q' b)
  | append_singleton p b ih =>
    obtain ⟨k, hk, hkj⟩ := descend_concat.1 hp
    rcases List.eq_nil_or_concat q with rfl | ⟨q', b', rfl⟩
    · simp only [descend_nil, Option.some.injEq] at hq
      subst hq
      exact absurd hp (hroot p b)
    · rw [List.concat_eq_append] at hq ⊢
      obtain ⟨k', hk', hkj'⟩ := descend_concat.1 hq
      obtain ⟨rfl, rfl⟩ := childAt_unique hnd.2 hkj hkj'
      rw [ih hk hk']

/-- In the built tree every allocated node is reached from ROOT (R117). -/
theorem Inv.reached {s : State} (h : Inv s) (hb : s.treeState = .built) {j : Nat} (hj : j < s.nodes.length) :
    ∃ p, descend s.nodes s.root p = some j := by
  obtain ⟨m, hm⟩ : ∃ m, s.nodes.length - j = m := ⟨_, rfl⟩
  induction m using Nat.strong_induction_on generalizing j with
  | _ m ih =>
    have hmem : j ∈ s.pq ++ childrenOf s.nodes := h.owned.symm.subset (List.mem_range.2 hj)
    rw [h.built hb, List.singleton_append, List.mem_cons] at hmem
    rcases hmem with rfl | hmem
    · exact ⟨[], by simp⟩
    · obtain ⟨i, b, hi⟩ := mem_childrenOf.1 hmem
      obtain ⟨hlt, hil⟩ := childAt_lt h.arena hi
      obtain ⟨p, hp⟩ := ih (s.nodes.length - i) (by omega) hil rfl
      exact ⟨p ++ [b], descend_concat.2 ⟨i, hp, hi⟩⟩

/-- The leaf at an arena index is that of a present symbol, and a symbol has one leaf (R28, R117). -/
theorem Inv.leaf_index {s : State} (h : Inv s) (hne : s.treeState ≠ .empty) {j : Nat} {c : Symbol} {w : Weight} :
    s.nodes[j]? = some (.leaf c w) ↔ j < s.nsym ∧ ∃ v, (present s.freq)[j]? = some (c, v) ∧ w = v.setWidth 40 := by
  obtain ⟨hk, htake, hdrop⟩ := h.seeded hne
  have hle := h.nsym_le hne
  by_cases hj : j < s.nsym
  · have : s.nodes[j]? = (seedLeaves s.freq)[j]? := by rw [← htake, List.getElem?_take_of_lt hj]
    rw [this, seedLeaves, List.getElem?_map]
    cases hp : (present s.freq)[j]? with
    | none => simp
    | some e =>
      obtain ⟨c', v⟩ := e
      simp [hj, eq_comm, and_comm]
  · simp only [hj, false_and, iff_false]
    intro hn
    have hmem : Node.leaf c w ∈ s.nodes.drop s.nsym := by
      rw [List.mem_iff_getElem?]
      refine ⟨j - s.nsym, ?_⟩
      rw [List.getElem?_drop]
      rwa [show s.nsym + (j - s.nsym) = j by omega]
    have := List.all_eq_true.1 hdrop _ hmem
    simp [Node.isLeaf] at this

theorem Inv.leaf_unique {s : State} (h : Inv s) (hne : s.treeState ≠ .empty) {i j : Nat} {c : Symbol} {w w' : Weight}
    (hi : s.nodes[i]? = some (.leaf c w)) (hj : s.nodes[j]? = some (.leaf c w')) : i = j := by
  obtain ⟨-, v, hv, -⟩ := (h.leaf_index hne).1 hi
  obtain ⟨-, v', hv', -⟩ := (h.leaf_index hne).1 hj
  have hr : rising (present s.freq) := rising_filter ((Memory.wf_iff _).1 h.freqWf).1 _
  obtain ⟨hi', hei⟩ := List.getElem?_eq_some_iff.1 hv
  obtain ⟨hj', hej⟩ := List.getElem?_eq_some_iff.1 hv'
  by_contra hne'
  have hpw := List.pairwise_iff_getElem.1 hr
  rcases Nat.lt_or_gt_of_ne hne' with hlt | hlt
  · have := hpw i j hi' hj' hlt
    rw [hei, hej] at this
    exact absurd this (lt_irrefl _)
  · have := hpw j i hj' hi' hlt
    rw [hei, hej] at this
    exact absurd this (lt_irrefl _)

/-- CODEGEN finds codes on every built tree (R130). -/
theorem Inv.assigned {s : State} (h : Inv s) (hb : s.treeState = .built) :
    ∃ pairs, assignedCodes s.nodes s.root = some pairs := by
  have hroot : s.root < s.nodes.length := h.pq_lt (by rw [h.built hb]; exact List.mem_singleton_self _)
  rw [assignedCodes]
  split
  · exact ⟨_, rfl⟩
  · exact walk_isSome h.arena hroot hroot []

/-- The codes assigned to a tree with an internal root are its root-to-leaf paths (R130). -/
theorem Inv.mem_assigned {s : State} {pairs : List (Symbol × Bits)}
    (ha : assignedCodes s.nodes s.root = some pairs) (hr : ∀ c w, s.nodes[s.root]? ≠ some (.leaf c w))
    {c : Symbol} {p : Bits} :
    (c, p) ∈ pairs ↔ ∃ j w, descend s.nodes s.root p = some j ∧ s.nodes[j]? = some (.leaf c w) := by
  rw [assignedCodes] at ha
  split at ha
  · rename_i c' w' hl; exact absurd hl (hr c' w')
  · rw [mem_walk ha]
    simp

/-- No symbol is assigned two codes. -/
theorem Inv.assigned_functional {s : State} (h : Inv s) (hb : s.treeState = .built) {pairs : List (Symbol × Bits)}
    (ha : assignedCodes s.nodes s.root = some pairs) (c : Symbol) (p q : Bits) (hp : (c, p) ∈ pairs)
    (hq : (c, q) ∈ pairs) : p = q := by
  by_cases hr : ∀ c w, s.nodes[s.root]? ≠ some (.leaf c w)
  · obtain ⟨j, w, hd, hj⟩ := (Inv.mem_assigned ha hr).1 hp
    obtain ⟨j', w', hd', hj'⟩ := (Inv.mem_assigned ha hr).1 hq
    obtain rfl := h.leaf_unique (by simp [hb]) hj hj'
    exact h.path_unique hb hd hd'
  · push Not at hr
    obtain ⟨c', w', hl⟩ := hr
    simp only [assignedCodes, hl, Option.some.injEq] at ha
    subst ha
    simp only [List.mem_singleton, Prod.mk.injEq] at hp hq
    rw [hp.2, hq.2]

/-- With an internal root, CODE holds a code for a symbol exactly when it is the path from ROOT to the symbol's leaf. -/
theorem Inv.mem_code {s : State} (h : Inv s) (hc : s.codeValid = true)
    (hr : ∀ c w, s.nodes[s.root]? ≠ some (.leaf c w)) {c : Symbol} {p : Bits} :
    (c, p) ∈ s.code ↔ ∃ j w, descend s.nodes s.root p = some j ∧ s.nodes[j]? = some (.leaf c w) := by
  obtain ⟨hb, hg, -⟩ := h.hasCode hc
  rw [generatedTable, Option.map_eq_some_iff] at hg
  obtain ⟨pairs, ha, hcode⟩ := hg
  rw [← hcode, mem_tableOfCodes (h.assigned_functional hb ha), Inv.mem_assigned ha hr]

/-- With a root that is a leaf, CODE is the fallback (R131). -/
theorem Inv.code_of_leaf_root {s : State} (h : Inv s) (hc : s.codeValid = true) {c : Symbol} {w : Weight}
    (hr : s.nodes[s.root]? = some (.leaf c w)) : s.code = [(c, [false])] := by
  obtain ⟨-, hg, -⟩ := h.hasCode hc
  simp only [generatedTable, assignedCodes, hr, Option.map_some, Option.some.injEq] at hg
  simpa [tableOfCodes, tableSet] using hg.symm

theorem Inv.rising_code {s : State} (h : Inv s) : rising s.code := by
  cases hc : s.codeValid
  · rw [(h.noCode hc).1]; exact List.Pairwise.nil
  · obtain ⟨-, hg, -⟩ := h.hasCode hc
    rw [generatedTable, Option.map_eq_some_iff] at hg
    obtain ⟨pairs, -, hcode⟩ := hg
    rw [← hcode]
    exact rising_tableOfCodes pairs

end Sys2Proof.Safety
end

