-- ==== Sys2Proof/Laws/Streams.lean ====
section
/-! SUPPORT. The prefix decoder's lookup, and the invariant under the operations outside the tree builder. -/

namespace Sys2Proof.Safety

open Sys2Proof.Machine

/-! ### The lookup (R150) -/

theorem mem_matchSet {t : CodeTable} {p : Bits} {c : Symbol} : c ∈ matchSet t p ↔ (c, p) ∈ t := by
  simp [matchSet, List.mem_map, List.mem_filter]

/-- Two symbols have no common code (R132). -/
theorem Inv.code_injective {s : State} (h : Inv s) {c d : Symbol} {p : Bits} (hc : (c, p) ∈ s.code)
    (hd : (d, p) ∈ s.code) : c = d := by
  cases hv : s.codeValid with
  | false => rw [(h.noCode hv).1] at hc; simp at hc
  | true =>
    by_cases hr : ∀ c w, s.nodes[s.root]? ≠ some (.leaf c w)
    · obtain ⟨j, w, hj, hn⟩ := (h.mem_code hv hr).1 hc
      obtain ⟨j', w', hj', hn'⟩ := (h.mem_code hv hr).1 hd
      rw [hj] at hj'
      simp only [Option.some.injEq] at hj'
      subst hj'
      rw [hn] at hn'
      simp at hn'
      exact hn'.1
    · push Not at hr
      obtain ⟨c', w', hl⟩ := hr
      rw [h.code_of_leaf_root hv hl] at hc hd
      simp at hc hd
      rw [hc.1, hd.1]

/-- Each symbol stands once in CODE. -/
theorem Inv.code_functional {s : State} (h : Inv s) {c : Symbol} {p q : Bits} (hp : (c, p) ∈ s.code)
    (hq : (c, q) ∈ s.code) : p = q := by
  rw [← tableGet_eq_some_iff h.rising_code] at hp hq
  rw [hp] at hq
  simpa using hq

/-- `Match(p)` has at most one member (R150). -/
theorem Inv.matchSet_eq {s : State} (h : Inv s) {c : Symbol} {p : Bits} :
    matchSet s.code p = [c] ↔ (c, p) ∈ s.code := by
  constructor
  · intro hm
    exact mem_matchSet.1 (by rw [hm]; exact List.mem_singleton_self c)
  · intro hc
    have hnd : (matchSet s.code p).Nodup := by
      rw [matchSet, List.Nodup, List.pairwise_map]
      refine (rising_filter h.rising_code _).imp fun {a b} hab he => ?_
      rw [he] at hab
      exact lt_irrefl _ hab
    have hall : ∀ d ∈ matchSet s.code p, d = c := fun d hd => h.code_injective (mem_matchSet.1 hd) hc
    have hmem := mem_matchSet.2 hc
    match hm : matchSet s.code p with
    | [] => simp [hm] at hmem
    | [d] => simp [hall d (by simp [hm])]
    | d :: e :: rest =>
      rw [hm, List.nodup_cons] at hnd
      have h1 := hall d (by simp [hm])
      have h2 := hall e (by simp [hm])
      simp [h1, h2] at hnd

/-- A code has a proper prefix of itself only above its leaf: what DBUF and one more bit can be (R151, R154). -/
theorem Inv.extend_buffer {s : State} (h : Inv s) (hv : s.codeValid = true) (bit : Bool)
    (hno : ∀ c, (c, s.dbuf ++ [bit]) ∉ s.code) (hr : ∀ c w, s.nodes[s.root]? ≠ some (.leaf c w)) :
    ∃ e ∈ s.code, s.dbuf ++ [bit] <+: e.2 ∧ s.dbuf ++ [bit] ≠ e.2 := by
  obtain ⟨hb, -, -⟩ := h.hasCode hv
  have hroot : s.root < s.nodes.length := h.pq_lt (by rw [h.built hb]; exact List.mem_singleton_self _)
  -- DBUF leads to an internal node
  have hint : ∃ i w l r, descend s.nodes s.root s.dbuf = some i ∧ s.nodes[i]? = some (.internal w l r) := by
    by_cases hd : s.dbuf = []
    · rw [hd]
      cases hn : s.nodes[s.root]? with
      | none => rw [List.getElem?_eq_none_iff] at hn; omega
      | some n =>
        cases n with
        | leaf c w => exact absurd hn (hr c w)
        | internal w l r => exact ⟨s.root, w, l, r, by simp, hn⟩
    · obtain ⟨-, ⟨c, q⟩, he, ⟨rest, hq⟩, hne⟩ := h.buffer hd
      simp only at hq hne
      obtain ⟨j, w, hj, -⟩ := (h.mem_code hv hr).1 he
      rw [← hq, descend_append] at hj
      cases hi : descend s.nodes s.root s.dbuf with
      | none => simp [hi] at hj
      | some i =>
        rw [hi, Option.bind_some] at hj
        cases rest with
        | nil => simp at hq; exact absurd hq hne
        | cons b rest =>
          obtain ⟨w', l, r, hn, -⟩ := descend_cons_eq_some hj
          exact ⟨i, w', l, r, rfl, hn⟩
  obtain ⟨i, w, l, r, hi, hn⟩ := hint
  have hchild : descend s.nodes s.root (s.dbuf ++ [bit]) = some (if bit then r else l) :=
    descend_concat.2 ⟨i, hi, by simp [childAt, hn]⟩
  have hlt : (if bit then r else l) < s.nodes.length := by
    obtain ⟨hl, hr', -⟩ := arena_iff.1 h.arena i w l r hn
    have := (List.getElem?_eq_some_iff.1 hn).1
    cases bit <;> simp <;> omega
  obtain ⟨d, j, c, w', hd, hj⟩ := exists_leaf_below h.arena hlt
  have hmem : (c, s.dbuf ++ [bit] ++ d) ∈ s.code :=
    (h.mem_code hv hr).2 ⟨j, w', by rw [descend_append, hchild, Option.bind_some]; exact hd, hj⟩
  refine ⟨_, hmem, List.prefix_append _ _, ?_⟩
  intro heq
  exact hno c (by simpa using heq ▸ hmem)

theorem Inv.length_le_maxLen {s : State} (h : Inv s) {e : Symbol × Bits} (he : e ∈ s.code) : e.2.length ≤ s.maxLen := by
  cases hv : s.codeValid with
  | false => rw [(h.noCode hv).1] at he; simp at he
  | true => rw [(h.hasCode hv).2.2]; exact le_maxCodeLen he

/-- A proper prefix of a valid code is shorter than MAXLEN. -/
theorem Inv.prefix_lt_maxLen {s : State} (h : Inv s) {p : Bits} {e : Symbol × Bits} (he : e ∈ s.code)
    (hp : p <+: e.2) (hne : p ≠ e.2) : p.length < s.maxLen := by
  refine lt_of_lt_of_le ?_ (h.length_le_maxLen he)
  exact lt_of_le_of_ne hp.length_le fun hl => hne (hp.eq_of_length hl)

/-! ### The invariant under the operations -/

theorem Inv.recordError {s : State} (h : Inv s) {k : ErrorCode} (hk : k ≠ .none) (src : ErrorSource) (x : BitVec 16) :
    Inv (recordError k src x s) :=
  { h with errorClear := fun he => absurd he (ErrorReg.record_code_ne_none hk src x) }

theorem Inv.rejectCommand {s : State} (h : Inv s) (he : s.error.code ≠ .none) : Inv (rejectCommand s) :=
  { h with errorClear := fun hn => absurd hn he }

theorem Inv.clearError {s : State} (h : Inv s) : Inv (clearError s) := { h with errorClear := fun _ => rfl }

theorem Inv.latchCommand {s : State} (h : Inv s) (w : Word) : Inv (latchCommand w s) :=
  { h with idleDelay := fun hb => by simp at hb }

theorem Inv.finishCommand {s : State} (h : Inv s) : Inv (finishCommand s) := { h with idleDelay := fun _ => rfl }

theorem Inv.drawWord {s : State} (h : Inv s) : Inv (drawWord s).2 := { h with }

theorem Inv.clearUnits {s : State} (h : Inv s) : Inv (clearUnits s) :=
  { freqWf := Memory.wf_nil
    errorClear := fun _ => rfl
    idleDelay := h.idleDelay
    emptyTree := fun _ => ⟨rfl, rfl, rfl, rfl, rfl⟩
    seeded := fun hn => absurd rfl hn
    arena := rfl
    queueRising := List.Pairwise.nil
    owned := List.Perm.nil
    total := fun hn => absurd rfl hn
    building := fun hb => by simp at hb
    built := fun hb => by simp at hb
    noCode := fun _ => ⟨rfl, rfl, rfl⟩
    hasCode := fun hc => by simp at hc
    buffer := fun hd => absurd rfl hd
    encBound := by simp
    decBound := by simp }

theorem Inv.platformReset {s : State} (h : Inv s) : Inv (platformReset s) :=
  { h.clearUnits with idleDelay := fun _ => rfl }

theorem Inv.pushEnc {s : State} (h : Inv s) {p : Bits} (hp : s.encq.length + p.length ≤ Config.encFifoBits) :
    Inv (pushEnc p s) :=
  { h with encBound := by simpa using hp }

theorem Inv.popEnc {s : State} (h : Inv s) (n : Nat) : Inv (popEnc n s) :=
  { h with encBound := by have := h.encBound; simp; omega }

theorem Inv.popDec {s : State} (h : Inv s) : Inv (popDec s) :=
  { h with decBound := by have := h.decBound; simp; omega }

theorem Inv.pushDec {s : State} (h : Inv s) (c : Symbol) (hne : s.decq.length ≠ Config.decFifoDepth) :
    Inv (pushDec c s) :=
  { h with decBound := by have := h.decBound; simp; omega }

theorem Inv.emptyBuffer {s : State} (h : Inv s) : Inv (setDbuf [] s) :=
  { h with
    noCode := fun hc => ⟨(h.noCode hc).1, (h.noCode hc).2.1, rfl⟩
    buffer := fun hd => absurd rfl hd }

theorem Inv.setBuffer {s : State} (h : Inv s) (hv : s.codeValid = true) {b : Bits} {e : Symbol × Bits}
    (he : e ∈ s.code) (hp : b <+: e.2) (hne : b ≠ e.2) : Inv (setDbuf b s) :=
  { h with
    noCode := fun hc => by simp [hv] at hc
    buffer := fun _ => ⟨h.prefix_lt_maxLen he hp hne, e, he, hp, hne⟩ }

theorem Inv.writeFreq {s : State} (h : Inv s) (hs : s.treeState = .empty) (c : Symbol) (v : Word) :
    Inv (writeFreq c v s) :=
  { h with
    freqWf := Memory.wf_write h.freqWf c v
    seeded := fun hn => absurd hs hn
    total := fun hn => absurd hs hn }

theorem Inv.takeAction {s : State} (h : Inv s) (rest : List HostAction) : Inv (takeAction rest s) :=
  { h with idleDelay := fun hb => by have := h.idleDelay hb; simp [this] }

theorem Inv.logRead {s : State} (h : Inv s) (l : List Word) : Inv { s with reads := l } := { h with }

theorem Inv.setHost {s : State} (h : Inv s) (l : List HostAction) : Inv { s with host := l } := { h with }

theorem Inv.writeCodes {s : State} (h : Inv s) (hb : s.treeState = .built) {t : CodeTable}
    (hg : generatedTable s.nodes s.root = some t) : Inv (writeCodes t s) := by
  have hbuf : s.dbuf ≠ [] → s.dbuf.length < maxCodeLen t ∧ ∃ e ∈ t, s.dbuf <+: e.2 ∧ s.dbuf ≠ e.2 := by
    intro hd
    cases hv : s.codeValid with
    | false => exact absurd (h.noCode hv).2.2 hd
    | true =>
      obtain ⟨-, hg', hm⟩ := h.hasCode hv
      rw [hg, Option.some.injEq] at hg'
      have := h.buffer hd
      rw [hg', ← hm]
      exact this
  exact
    { h with
      emptyTree := fun he => by rw [show s.treeState = .empty from he] at hb; simp at hb
      noCode := fun hc => by simp at hc
      hasCode := fun _ => ⟨hb, hg, rfl⟩
      buffer := hbuf }

/-! ### Seeding and the merge loop -/

theorem childrenOf_seedLeaves (m : Memory) : childrenOf (seedLeaves m) = [] := by
  simp only [childrenOf, seedLeaves, List.flatMap_eq_nil_iff, List.mem_map]
  rintro _ ⟨e, -, rfl⟩
  rfl

theorem Inv.seed {s : State} (h : Inv s) (hs : s.treeState = .empty) (hp : present s.freq ≠ []) :
    Inv (seedNext s) ∧ (seedNext s).treeState ≠ .empty := by
  obtain ⟨-, -, -, hroot, hcv⟩ := h.emptyTree hs
  have hno := h.noCode hcv
  have hlen : (seedLeaves s.freq).length ≠ 0 := by simpa [seedLeaves] using hp
  have hpres := present_of_wf h.freqWf
  refine ⟨?_, by simp only [seedNext_treeState]; split <;> simp⟩
  exact
    { freqWf := h.freqWf
      errorClear := h.errorClear
      idleDelay := h.idleDelay
      emptyTree := fun he => by simp only [seedNext_treeState] at he; split at he <;> simp at he
      seeded := fun _ => ⟨rfl, by simp, by simp⟩
      arena := by
        rw [arena_iff]
        intro i w l r hi
        simp only [seedNext_nodes, seedLeaves, List.getElem?_map, Option.map_eq_some_iff] at hi
        obtain ⟨e, -, he⟩ := hi
        simp at he
      queueRising := List.pairwise_lt_range
      owned := by rw [seedNext_nodes, childrenOf_seedLeaves, List.append_nil, seedNext_pq]
      total := fun _ => by
        rw [queueWeight, seedNext_pq, seedNext_nodes, seedNext_freq, listedTotal]
        congr 1
        refine List.ext_getElem (by simp [seedLeaves, hpres]) fun i h1 h2 => ?_
        simp only [List.length_map, List.length_range, seedLeaves] at h1
        have h3 : i < s.freq.length := by simpa using h2
        simp only [List.getElem_map, List.getElem_range, nodeKey, seedLeaves, hpres, List.getElem?_map,
          List.getElem?_eq_getElem h3, Option.map_some, Node.weight]
        rw [BitVec.toNat_setWidth, Nat.mod_eq_of_lt]
        have := s.freq[i].2.isLt
        omega
      building := fun hb => by
        simp only [seedNext_treeState] at hb
        split at hb
        · simp at hb
        · rename_i h1
          simp only [seedNext_pq, List.length_range, seedNext_root, h1, if_false, hroot, and_true]
          omega
      built := fun hb => by
        simp only [seedNext_treeState] at hb
        split at hb
        · rename_i h1
          simp [h1]
        · simp at hb
      noCode := fun _ => hno
      hasCode := fun hc => by simp [hcv] at hc
      buffer := fun hd => absurd hno.2.2 hd
      encBound := h.encBound
      decBound := h.decBound }

/-- The merge loop of R116 from a seeded queue: it ends in BUILT after |PQ| - 1 merge steps. -/
theorem Inv.mergeAll {tie : TieSelect} (ht : LawfulTie tie) {fuel : Nat} {s : State} (h : Inv s)
    (hne : s.treeState ≠ .empty) (hf : s.pq.length ≤ fuel) :
    ∃ t, mergeAll tie fuel s = .next t ∧ Inv t ∧ t.treeState = .built ∧
      t.nodes.length + 1 = s.nodes.length + s.pq.length ∧ t.ties + 2 = s.ties + 2 * s.pq.length ∧
      t = { s with nodes := t.nodes, pq := t.pq, treeState := t.treeState, root := t.root, ties := t.ties } := by
  induction fuel generalizing s with
  | zero =>
    cases hts : s.treeState with
    | empty => exact absurd hts hne
    | building => have := (h.building hts).1; omega
    | built => have := h.built hts; simp [this] at hf
  | succ fuel ih =>
    rw [Machine.mergeAll]
    by_cases hb : s.treeState = .building
    · rw [if_pos hb, mergeStep_of_ready (h.queueReady hb), andThen_next]
      obtain ⟨hI, hne', hpq, hnodes, hties, -⟩ := h.merge ht hb
      obtain ⟨t, h1, h2, h3, h4, h5, h6⟩ := ih hI hne' (by omega)
      refine ⟨t, h1, h2, h3, by omega, by omega, ?_⟩
      rw [mergeNext_frame] at h6
      exact h6
    · rw [if_neg hb]
      have hbt : s.treeState = .built := by cases hts : s.treeState <;> simp_all
      have hpq := h.built hbt
      exact ⟨s, rfl, h, hbt, by simp [hpq], by simp [hpq], rfl⟩

end Sys2Proof.Safety
end

