-- ==== Sys2Proof/Laws/Exec.lean ====
section
/-! SUPPORT. `exec` of each command behind the error gate: while an error is pending, and while none is. -/

namespace Sys2Proof.Machine

open Sys2Proof.Safety

/-- While an error is pending every command but the three control commands is rejected (R185). -/
theorem exec_of_pending {i : Instr} {s : State} (hi : passesGate i = false) (he : s.error.code ≠ .none) :
    exec i s = .next (rejectCommand s) := by
  cases i <;>
    first
    | (simp [passesGate] at hi; done)
    | simp only [exec, execTreeSeed, execTreeMerge, execTreeBuild, treeMergeWith, treeBuildWith, execCodegen, execEncSym,
        execDecBit, execDecEnd, gated_of_pending he]

variable {s : State}

theorem exec_treeSeed (he : s.error.code = .none) :
    exec .treeSeed s = if s.treeState = .empty then seedThen s .next else raise .sequence s := by
  unfold exec execTreeSeed
  exact gated_of_clear he _

theorem exec_treeMerge (he : s.error.code = .none) :
    exec .treeMerge s = if s.treeState = .building then mergeStep openTie s else raise .sequence s := by
  unfold exec execTreeMerge treeMergeWith
  exact gated_of_clear he _

theorem exec_treeBuild (he : s.error.code = .none) :
    exec .treeBuild s =
      match s.treeState with
      | .built => raise .sequence s
      | .empty => seedThen s fun t => mergeAll openTie t.pq.length t
      | .building => mergeAll openTie s.pq.length s := by
  unfold exec execTreeBuild treeBuildWith
  exact gated_of_clear he _

theorem exec_codegen (he : s.error.code = .none) :
    exec .codegen s =
      if s.treeState = .built then
        match generatedTable s.nodes s.root with
        | some t => .next (writeCodes t s)
        | none => .fault .treeNotReady
      else raise .sequence s := by
  unfold exec execCodegen
  exact gated_of_clear he _

theorem exec_encSym (he : s.error.code = .none) (c : Symbol) :
    exec (.encSym c) s =
      if s.codeValid then
        match codeAt s c with
        | none => raise .unknownSymbol s
        | some p => if s.encq.length + p.length ≤ Config.encFifoBits then .next (pushEnc p s) else raise .outFull s
      else raise .sequence s := by
  unfold exec execEncSym
  exact gated_of_clear he _

theorem exec_decBit (he : s.error.code = .none) (bit : Bool) :
    exec (.decBit bit) s =
      if s.codeValid then
        if s.decq.length = Config.decFifoDepth then raise .outFull s else decodeBuffer (s.dbuf ++ [bit]) s
      else raise .sequence s := by
  unfold exec execDecBit
  exact gated_of_clear he _

theorem exec_decEnd (he : s.error.code = .none) :
    exec .decEnd s =
      if s.codeValid then
        if s.dbuf = [] then .next s else raise .truncatedOrCorruptInput (setDbuf [] s)
      else raise .sequence s := by
  unfold exec execDecEnd
  exact gated_of_clear he _

end Sys2Proof.Machine
end

