-- ==== Sys2Proof/Laws/Access.lean ====
section
/-! SUPPORT. What a register access, a host action and a step can do, said once: the cases a proof over `step` splits into. -/

namespace Sys2Proof.Machine

open Sys2Proof.Safety

variable {s t : State}

/-! ### Accesses -/

/-- What a read may change: the output FIFOs, and the model's count of draws (R59). -/
theorem readIdle_frame (r : Region) (s : State) :
    (readIdle r s).2 =
      { s with
        encq := (readIdle r s).2.encq
        decq := (readIdle r s).2.decq
        draws := (readIdle r s).2.draws } := by
  cases r <;> try rfl
  · simp only [readIdle, readDecOutData]; split <;> rfl
  · simp only [readIdle, readNode]; split <;> rfl

theorem readBusy_frame (r : Region) (s : State) :
    (readBusy r s).2 = { s with draws := (readBusy r s).2.draws } := by
  cases r <;> rfl

/-- A read changes nothing but the output FIFOs and the model's count of draws (R59, R165). -/
theorem memRead_frame (off : Offset) (s : State) :
    (memRead off s).2 =
      { s with
        encq := (memRead off s).2.encq
        decq := (memRead off s).2.decq
        draws := (memRead off s).2.draws } := by
  rw [memRead]; split
  · rw [readBusy_frame]
  · exact readIdle_frame _ s

/-- Everything a write can do (R66, R166, R167, R177). -/
theorem memWrite_cases (off : Offset) (v : Word) (s : State) :
    (s.busy = true ∧ memWrite off v s = recordAccessError .busyErr off s) ∨
      (s.busy = false ∧
        ((∃ c, regionOf off = .freq c ∧ s.treeState = .empty ∧ memWrite off v s = writeFreq c v s) ∨
          (∃ c, regionOf off = .freq c ∧ s.treeState ≠ .empty ∧
            memWrite off v s = recordAccessError .sequence off s) ∨
          (regionOf off = .cmd ∧ memWrite off v s = latchCommand v s) ∨
          memWrite off v s = s)) := by
  cases hb : s.busy with
  | true => exact .inl ⟨rfl, by simp [memWrite, hb]⟩
  | false =>
    refine .inr ⟨rfl, ?_⟩
    have hw : memWrite off v s = writeIdle off v s := by simp [memWrite, hb]
    rw [hw, writeIdle]
    split
    · rename_i c hc
      rw [writeFreqIdle]
      split
      · rename_i he; exact .inl ⟨c, hc, he, rfl⟩
      · rename_i he; exact .inr (.inl ⟨c, hc, he, rfl⟩)
    · rename_i hc; exact .inr (.inr (.inl ⟨hc, rfl⟩))
    · exact .inr (.inr (.inr rfl))

/-- The FREQ window (R52). -/
theorem regionOf_freq {off : Offset} {c : Symbol} (h : regionOf off = .freq c) :
    0x0400 ≤ off.toNat ∧ off.toNat < 0x0800 := by
  unfold regionOf plainRegister at h
  simp only at h
  repeat' split at h
  all_goals first | omega | simp at h

/-! ### Host actions and steps -/

/-- Everything a host action can do: an access it makes, or the platform's Reset. `t.host` is what the host still has to do. -/
theorem hostStep_cases {a : HostAction} (h : hostStep a s = .next t) :
    (∃ off l,
        t = { (memRead off s).2 with reads := s.reads ++ [(memRead off s).1], host := l } ∧
          ∀ b ∈ l, b ∈ s.host ∨ actionOk b = true) ∨
      (∃ off v, a = .write 32 off v ∧ t = memWrite off v s) ∨
      (a = .reset ∧ t = platformReset s) := by
  have hread : ∀ off (more : Bool) b, (more = true → actionOk b = true) →
      ∃ l,
        repeatIf more b (hostRead off s).2 =
          { (memRead off s).2 with reads := s.reads ++ [(memRead off s).1], host := l } ∧
          ∀ b ∈ l, b ∈ s.host ∨ actionOk b = true := by
    intro off more b hb
    have hf := memRead_frame off s
    cases more with
    | true =>
      refine ⟨b :: s.host, ?_, ?_⟩
      · simp only [repeatIf, if_true, pushHost, hostRead]
        rw [hf]
      · intro x hx
        rcases List.mem_cons.1 hx with rfl | hx
        · exact .inr (hb rfl)
        · exact .inl hx
    | false =>
      refine ⟨s.host, ?_, fun x hx => .inl hx⟩
      simp only [repeatIf, hostRead]
      rw [hf]
      rfl
  cases a with
  | read width off =>
    simp only [hostStep] at h
    split at h
    · simp only [Host.Outcome.next.injEq] at h
      obtain ⟨l, hl, hm⟩ := hread off false .wait (by simp)
      exact .inl ⟨off, l, by rw [← h, ← hl]; rfl, hm⟩
    · simp at h
  | write width off v =>
    simp only [hostStep] at h
    split at h
    · rename_i hw
      simp only [WellFormed.access, Bool.and_eq_true, beq_iff_eq] at hw
      simp only [Host.Outcome.next.injEq] at h
      exact .inr (.inl ⟨off, v, by rw [hw.1], h.symm⟩)
    · simp at h
  | wait =>
    simp only [hostStep, Host.Outcome.next.injEq] at h
    obtain ⟨l, hl, hm⟩ := hread offStatus ((hostRead offStatus s).1.getLsbD 0) .wait (by simp [actionOk])
    exact .inl ⟨_, l, by rw [← h, ← hl], hm⟩
  | drainEnc =>
    simp only [hostStep, Host.Outcome.next.injEq] at h
    obtain ⟨l, hl, hm⟩ := hread offEncOutCount ((hostRead offEncOutCount s).1.toNat != 0)
      (.drainEncBits (hostRead offEncOutCount s).1.toNat) (by simp [actionOk])
    exact .inl ⟨_, l, by rw [← h, ← hl], hm⟩
  | drainEncBits c =>
    simp only [hostStep, Host.Outcome.next.injEq] at h
    obtain ⟨l, hl, hm⟩ := hread offEncOutData (c - min 32 c != 0) (.drainEncBits (c - min 32 c)) (by simp [actionOk])
    exact .inl ⟨_, l, by rw [← h, ← hl], hm⟩
  | drainDec =>
    simp only [hostStep, Host.Outcome.next.injEq] at h
    obtain ⟨l, hl, hm⟩ := hread offDecOutCount ((hostRead offDecOutCount s).1.toNat != 0)
      (.drainDecSyms (hostRead offDecOutCount s).1.toNat) (by simp [actionOk])
    exact .inl ⟨_, l, by rw [← h, ← hl], hm⟩
  | drainDecSyms c =>
    simp only [hostStep, Host.Outcome.next.injEq] at h
    obtain ⟨l, hl, hm⟩ := hread offDecOutData (c - 1 != 0) (.drainDecSyms (c - 1)) (by simp [actionOk])
    exact .inl ⟨_, l, by rw [← h, ← hl], hm⟩
  | reset =>
    simp only [hostStep, Host.Outcome.next.injEq] at h
    exact .inr (.inr ⟨rfl, h.symm⟩)

/-- At the host's move the next action of its program is done. -/
theorem step_of_host {a : HostAction} {rest : List HostAction} (h : engineTurn s = false) (hh : s.host = a :: rest) :
    step s = hostStep a (takeAction rest s) := by
  simp [step, h, hostTurn, hh]

/-- At the engine's move the latched word is executed. -/
theorem step_of_engine (h : engineTurn s = true) : step s = engineStep s := by simp [step, h]

/-- Everything a step can do: the engine's step, nothing at all, or a host action (R21, R62, R197). -/
theorem step_cases (h : step s = .next t) :
    (engineTurn s = true ∧ ∃ u, executeWord s.latch s = .next u ∧ t = finishCommand u) ∨
      (engineTurn s = false ∧ s.host = [] ∧ t = s) ∨
      (∃ a rest, hostMoves s a ∧ s.host = a :: rest ∧ hostStep a (takeAction rest s) = .next t) := by
  cases he : engineTurn s with
  | true =>
    simp only [step, he, if_true, engineStep] at h
    obtain ⟨u, hu, ht⟩ := andThen_eq_next.1 h
    simp only [Host.Outcome.next.injEq] at ht
    exact .inl ⟨rfl, u, hu, ht.symm⟩
  | false =>
    simp only [step, he, Bool.false_eq_true, if_false, hostTurn] at h
    split at h
    · rename_i hh
      simp only [Host.Outcome.next.injEq] at h
      exact .inr (.inl ⟨rfl, hh, h.symm⟩)
    · rename_i a rest hh
      exact .inr (.inr ⟨a, rest, ⟨he, by simp [hh]⟩, hh, h⟩)

/-- Runs of the machine, one step at a time. -/
theorem run_of_step {k : Nat} (h : step s = .next t) : core.run (k + 1) s = core.run k t := by
  have h' : core.step s = .next t := h
  simp only [Host.Core.run, h']

/-- The engine's step runs the latched command, or records ILLEGAL_COMMAND (R86, R87). -/
theorem executeWord_cases {w : Word} (h : executeWord w s = .next t) :
    (∃ i, decode w = .ok i ∧ exec i s = .next t) ∨
      (∃ e, decode w = .error e) ∧ t = recordCommandError .illegalCommand s := by
  rw [executeWord] at h
  split at h
  · rename_i i hi; exact .inl ⟨i, hi, h⟩
  · rename_i e hi; exact .inr ⟨⟨e, hi⟩, raise_eq_next.1 h⟩

end Sys2Proof.Machine
end

