-- ==== Sys2Proof/Laws/Counts.lean ====
section
/-! SUPPORT. Counting under the invariant: the present symbols and the listed entries, the sizes of the arena and the queue,
the root, the depth of a path, and the symbols that have a code. -/

namespace Sys2Proof.Safety

open Sys2Proof.Machine

/-- Every symbol is one of the 256. -/
theorem mem_range_sym (c : Symbol) : c ∈ (List.range 256).map (BitVec.ofNat 8) := by
  rw [List.mem_map]
  exact ⟨c.toNat, List.mem_range.2 c.isLt, by simp⟩

/-- In a canonical store a symbol is present exactly when it is listed. -/
theorem freqAt_ne_zero_of_wf {s : State} (hwf : Memory.wf s.freq = true) {c : Symbol} :
    freqAt s c ≠ 0 ↔ ∃ v, (c, v) ∈ s.freq := by
  have hw := (Memory.wf_iff _).1 hwf
  rw [freqAt, Memory.read]
  cases hg : tableGet s.freq c with
  | none =>
    simp only [Option.getD_none, ne_eq, not_true_eq_false, false_iff, not_exists]
    intro v hv; rw [← tableGet_eq_some_iff hw.1, hg] at hv; simp at hv
  | some v =>
    have := (tableGet_eq_some_iff hw.1).1 hg
    simp only [Option.getD_some]
    exact ⟨fun _ => ⟨v, this⟩, fun _ => hw.2 _ this⟩

/-- A symbol is present exactly when it is listed. -/
theorem Inv.freqAt_ne_zero {s : State} (h : Inv s) {c : Symbol} : freqAt s c ≠ 0 ↔ ∃ v, (c, v) ∈ s.freq :=
  freqAt_ne_zero_of_wf h.freqWf

/-- The symbols of a rising table, as a filter of all 256 in order. -/
theorem rising_toList {α} {t : List (Symbol × α)} (h : rising t) (f : Symbol → Bool)
    (hf : ∀ c, f c = true ↔ ∃ v, (c, v) ∈ t) :
    ((List.range 256).map (BitVec.ofNat 8)).filter f = t.map (·.1) := by
  have h1 : (((List.range 256).map (BitVec.ofNat 8)).filter f).Pairwise (fun a b : Symbol => a.toNat < b.toNat) := by
    refine List.Pairwise.filter _ ?_
    rw [List.pairwise_map]
    refine (List.pairwise_lt_range (n := 256)).imp_of_mem ?_
    intro a b ha hb hab
    simp at ha hb
    simp; omega
  have h2 : (t.map (·.1)).Pairwise (fun a b : Symbol => a.toNat < b.toNat) := by
    rw [List.pairwise_map]; exact h
  refine List.Perm.eq_of_pairwise (le := fun a b : Symbol => a.toNat < b.toNat) ?_ h1 h2 ?_
  · intro a b _ _ hab hba; omega
  · rw [List.perm_ext_iff_of_nodup]
    · intro c
      rw [List.mem_filter, hf]
      refine (and_congr_right fun _ => Iff.rfl).trans (Iff.trans ?_ List.mem_map.symm)
      constructor
      · intro ⟨_, v, hv⟩; exact ⟨(c, v), hv, rfl⟩
      · intro ⟨e, he, hec⟩; subst hec; exact ⟨mem_range_sym _, e.2, he⟩
    · exact h1.imp fun hab he => by subst he; omega
    · exact h2.imp fun hab he => by subst he; omega

/-- k is the number of listed entries. -/
theorem Inv.presentCount_eq {s : State} (h : Inv s) : presentCount s = s.freq.length := by
  have := rising_toList ((Memory.wf_iff _).1 h.freqWf).1 (fun c => freqAt s c != 0) (by
    intro c; rw [← h.freqAt_ne_zero]; simp)
  have := congrArg List.length this
  rw [List.length_map] at this
  rw [← this, presentCount, List.filter_map, List.length_map]
  rfl

/-- The sum over the 256 symbols is the sum over the listed entries. -/
theorem Inv.freqTotal_eq {s : State} (h : Inv s) : freqTotal s = listedTotal s.freq := by
  have hw := (Memory.wf_iff _).1 h.freqWf
  have h1 := rising_toList hw.1 (fun c => freqAt s c != 0) (by
    intro c; rw [← h.freqAt_ne_zero]; simp)
  have h2 : freqTotal s =
      ((((List.range 256).map (BitVec.ofNat 8)).filter (fun c => freqAt s c != 0)).map fun c => (freqAt s c).toNat).sum := by
    have : freqTotal s = (((List.range 256).map (BitVec.ofNat 8)).map fun c => (freqAt s c).toNat).sum := by
      rw [List.map_map]; rfl
    rw [this]
    generalize (List.range 256).map (BitVec.ofNat 8) = L
    induction L with
    | nil => rfl
    | cons c L ih =>
      rw [List.map_cons, List.sum_cons, ih]
      by_cases hc : freqAt s c = 0
      · rw [List.filter_cons_of_neg (by simp [hc])]; simp [hc]
      · rw [List.filter_cons_of_pos (by simpa using hc)]; simp
  rw [h2, h1, listedTotal, List.map_map]
  refine congrArg List.sum (List.map_congr_left fun e he => ?_)
  have : tableGet s.freq e.1 = some e.2 := (tableGet_eq_some_iff hw.1).2 he
  simp [freqAt, Memory.read, this]

/-- NSYM is the number of listed entries once the builder has seeded (R31). -/
theorem Inv.nsym_eq {s : State} (h : Inv s) (hne : s.treeState ≠ .empty) : s.nsym = s.freq.length := by
  rw [(h.seeded hne).1, seedLeaves, List.length_map, present_of_wf h.freqWf]

/-- Two children for each internal node. -/
theorem length_childrenOf (l : List Node) : (childrenOf l).length = 2 * (l.filter fun n => !n.isLeaf).length := by
  induction l with
  | nil => rfl
  | cons n l ih =>
    rw [childrenOf, List.flatMap_cons, List.length_append]
    rw [childrenOf] at ih
    rw [ih]
    cases n <;> simp [Node.isLeaf]; omega

/-- NODE_COUNT + PQ_COUNT = 2 NSYM once the builder has seeded (R42). -/
theorem Inv.count_nodes {s : State} (h : Inv s) (hne : s.treeState ≠ .empty) :
    s.nodes.length + s.pq.length = 2 * s.nsym := by
  have h1 := h.owned.length_eq
  rw [List.length_append, List.length_range, length_childrenOf] at h1
  obtain ⟨ha, hb, hc⟩ := h.seeded hne
  have h2 : (s.nodes.filter fun n => !n.isLeaf) = s.nodes.drop s.nsym := by
    conv_lhs => rw [← List.take_append_drop s.nsym s.nodes]
    rw [List.filter_append, hb]
    have : (seedLeaves s.freq).filter (fun n => !n.isLeaf) = [] := by
      rw [List.filter_eq_nil_iff]; intro n hn
      rw [seedLeaves, List.mem_map] at hn
      obtain ⟨e, -, rfl⟩ := hn
      simp [Node.isLeaf]
    rw [this, List.nil_append, List.filter_eq_self]
    simpa using hc
  rw [h2, List.length_drop] at h1
  have := h.nsym_le hne
  omega

/-- A path from node `i` has at most `i + 1 - NSYM` bits (R8). -/
theorem Inv.path_depth {s : State} (h : Inv s) {i j : Nat} {p : Bits} (hd : descend s.nodes i p = some j)
    (hi : i < s.nodes.length) (hne : s.treeState ≠ .empty) :
    p.length + s.nsym ≤ i + 1 ∨ p = [] := by
  induction p generalizing i with
  | nil => exact .inr rfl
  | cons b p ih =>
    left
    obtain ⟨w, l, r, hn, hd'⟩ := descend_cons_eq_some hd
    obtain ⟨hl, hr, -⟩ := arena_iff.1 h.arena i w l r hn
    have hge : s.nsym ≤ i := by
      by_contra hlt
      have hlt : i < s.nsym := by omega
      have : s.nodes[i]? = (seedLeaves s.freq)[i]? := by rw [← (h.seeded hne).2.1, List.getElem?_take_of_lt hlt]
      rw [hn] at this
      rw [seedLeaves, List.getElem?_map, eq_comm, Option.map_eq_some_iff] at this
      obtain ⟨e, -, he⟩ := this; simp at he
    rcases ih hd' (by cases b <;> simp <;> omega) with h1 | rfl
    · simp; cases b <;> simp at h1 <;> omega
    · simp; omega

/-- ROOT is allocated once BUILT. -/
theorem Inv.root_lt {s : State} (h : Inv s) (hb : s.treeState = .built) : s.root < s.nodes.length :=
  h.pq_lt (by rw [h.built hb]; exact List.mem_singleton_self _)

/-- ROOT is the last node allocated (R42). -/
theorem Inv.root_eq {s : State} (h : Inv s) (hb : s.treeState = .built) : s.root + 1 = s.nodes.length := by
  have hlt := h.root_lt hb
  have hmem : s.nodes.length - 1 ∈ s.pq ++ childrenOf s.nodes := h.owned.symm.subset (List.mem_range.2 (by omega))
  rw [h.built hb, List.singleton_append, List.mem_cons] at hmem
  rcases hmem with h1 | h1
  · omega
  · obtain ⟨i, b, hi⟩ := mem_childrenOf.1 h1
    obtain ⟨h2, h3⟩ := childAt_lt h.arena hi
    omega

/-- At most 256 symbols (R7). -/
theorem Inv.nsym_le_256 {s : State} (h : Inv s) (hne : s.treeState ≠ .empty) : s.nsym ≤ 256 := by
  rw [h.nsym_eq hne]; exact length_le_of_rising ((Memory.wf_iff _).1 h.freqWf).1

/-- A generated table has an entry. -/
theorem Inv.code_ne_nil {s : State} (h : Inv s) (hv : s.codeValid = true) : s.code ≠ [] := by
  obtain ⟨hb, -, -⟩ := h.hasCode hv
  by_cases hr : ∀ c w, s.nodes[s.root]? ≠ some (.leaf c w)
  · obtain ⟨d, j, c, w, hd, hj⟩ := exists_leaf_below h.arena (h.root_lt hb)
    exact List.ne_nil_of_mem ((h.mem_code hv hr).2 ⟨j, w, hd, hj⟩)
  · push Not at hr
    obtain ⟨c', w', hl⟩ := hr
    rw [h.code_of_leaf_root hv hl]; simp

/-- The symbols with a code are the present ones (R42). -/
theorem Inv.code_symbols {s : State} (h : Inv s) (hv : s.codeValid = true) (c : Symbol) :
    (∃ p, (c, p) ∈ s.code) ↔ ∃ v, (c, v) ∈ s.freq := by
  obtain ⟨hb, -, -⟩ := h.hasCode hv
  have hp := present_of_wf h.freqWf
  by_cases hr : ∀ c w, s.nodes[s.root]? ≠ some (.leaf c w)
  · constructor
    · rintro ⟨p, hp'⟩
      obtain ⟨j, w, -, hn⟩ := (h.mem_code hv hr).1 hp'
      obtain ⟨-, v, hv, -⟩ := (h.leaf_index (by simp [hb])).1 hn
      rw [hp] at hv
      exact ⟨v, List.mem_of_getElem? hv⟩
    · rintro ⟨v, hv'⟩
      obtain ⟨j, hj⟩ := List.mem_iff_getElem?.1 hv'
      have hjl := (List.getElem?_eq_some_iff.1 hj).1
      have hn := (h.leaf_index (j := j) (c := c) (w := v.setWidth 40) (by simp [hb])).2
        ⟨by rw [h.nsym_eq (by simp [hb])]; exact hjl, v, by rw [hp]; exact hj, rfl⟩
      obtain ⟨p, hp'⟩ := h.reached hb (List.getElem?_eq_some_iff.1 hn).1
      exact ⟨p, (h.mem_code hv hr).2 ⟨j, _, hp', hn⟩⟩
  · push Not at hr
    obtain ⟨c', w', hl⟩ := hr
    rw [h.code_of_leaf_root hv hl]
    have hroot := h.root_eq hb
    obtain ⟨h1, v, h2, -⟩ := (h.leaf_index (by simp [hb])).1 hl
    have h3 := h.count_nodes (by simp [hb])
    rw [h.built hb] at h3; simp at h3
    have h4 := h.nsym_eq (by simp [hb])
    rw [hp] at h2
    have : s.freq.length = 1 := by omega
    have hr0 : s.root = 0 := by omega
    rw [hr0] at h2
    match hf : s.freq, this with
    | [e], _ =>
      rw [hf] at h2; simp at h2; subst h2; simp

end Sys2Proof.Safety
end

