-- ==== Sys2Proof/Laws/Frames.lean ====
section
/-! SUPPORT. The frame of every command: what `exec` leaves unchanged, from any state. -/

namespace Sys2Proof.Machine

open Sys2Proof.Safety

variable {s t : State}

/-- A merge loop changes nothing but the tree builder's state, and only adds nodes (R28, R116). -/
theorem mergeAll_frame {tie : TieSelect} {fuel : Nat} (h : mergeAll tie fuel s = .next t) :
    t =
        { s with nodes := t.nodes, pq := t.pq, treeState := t.treeState, root := t.root, ties := t.ties } ∧
      s.nodes <+: t.nodes ∧ (t.treeState = s.treeState ∨ s.treeState = .building ∧ t.treeState = .built) := by
  induction fuel generalizing s with
  | zero =>
    rw [mergeAll] at h
    split at h
    · simp at h
    · simp only [Host.Outcome.next.injEq] at h; subst h; simp
  | succ fuel ih =>
    rw [mergeAll] at h
    split at h
    · rename_i hb
      obtain ⟨u, hu, h⟩ := andThen_eq_next.1 h
      obtain ⟨-, rfl⟩ := mergeStep_eq_next.1 hu
      obtain ⟨h1, h2, h3⟩ := ih h
      have hf := mergeNext_frame tie s
      refine ⟨?_, ?_, ?_⟩
      · rw [h1]; conv_lhs => rw [hf]
      · refine List.IsPrefix.trans ?_ h2
        rw [mergeNext, closeTree_eq]
        exact List.prefix_append _ _
      · have : (mergeNext tie s).treeState = .building ∨ (mergeNext tie s).treeState = .built := by
          rw [mergeNext, closeTree_eq]
          simp only
          split
          · exact .inr rfl
          · exact .inl hb
        rcases h3 with h3 | ⟨-, h4⟩
        · rcases this with h5 | h5
          · exact .inl (by rw [h3, h5, hb])
          · exact .inr ⟨hb, by rw [h3, h5]⟩
        · exact .inr ⟨hb, h4⟩
    · simp only [Host.Outcome.next.injEq] at h; subst h; simp

/-- Raising an error changes ERROR alone (R183). -/
theorem raise_frame {k : ErrorCode} (h : raise k s = .next t) : t = { s with error := t.error } := by
  rw [raise_eq_next.1 h]; rfl

/-- The error a command raises when none is pending (R182, R183). -/
theorem raise_of_clear (he : s.error.code = .none) (k : ErrorCode) :
    raise k s = .next { s with error := commandError k s } := by
  have : s.latch.setWidth 16 = s.latch.extractLsb' 0 16 := by
    apply BitVec.eq_of_getLsbD_eq; intro i hi; simp [hi]
  simp [raise, recordCommandError, recordError, ErrorReg.record, he, commandError, this]

/-- No command changes LATCH, BUSY, the host's side, or the model's own `delay` and `draws`. -/
theorem exec_keeps {i : Instr} (h : exec i s = .next t) :
    t.busy = s.busy ∧ t.latch = s.latch ∧ t.host = s.host ∧ t.reads = s.reads ∧ t.delay = s.delay ∧
      t.draws = s.draws := by
  by_cases hg : passesGate i = false ∧ s.error.code ≠ .none
  · rw [exec_of_pending hg.1 hg.2, Host.Outcome.next.injEq] at h; subst h; simp [rejectCommand]
  have he : passesGate i = false → s.error.code = .none := fun hp => by_contra fun hc => hg ⟨hp, hc⟩
  have hr : ∀ {k} {u : State}, raise k u = .next t → (u.busy, u.latch, u.host, u.reads, u.delay, u.draws) =
      (s.busy, s.latch, s.host, s.reads, s.delay, s.draws) → t.busy = s.busy ∧ t.latch = s.latch ∧ t.host = s.host ∧
      t.reads = s.reads ∧ t.delay = s.delay ∧ t.draws = s.draws := by
    intro k u hu hsu
    rw [raise_eq_next.1 hu]
    simpa using hsu
  have hm : ∀ {u : State} {fuel : Nat}, mergeAll openTie fuel u = .next t →
      (u.busy, u.latch, u.host, u.reads, u.delay, u.draws) = (s.busy, s.latch, s.host, s.reads, s.delay, s.draws) →
      t.busy = s.busy ∧ t.latch = s.latch ∧ t.host = s.host ∧ t.reads = s.reads ∧ t.delay = s.delay ∧
        t.draws = s.draws := by
    intro u fuel hu hsu
    rw [(mergeAll_frame hu).1]
    simpa using hsu
  cases i with
  | nop => simp only [exec, execNop, Host.Outcome.next.injEq] at h; subst h; simp
  | clearAll => simp only [exec, execClearAll, Host.Outcome.next.injEq] at h; subst h; simp
  | clearErr => simp only [exec, execClearErr, Host.Outcome.next.injEq] at h; subst h; simp
  | treeSeed =>
    rw [exec_treeSeed (he rfl)] at h
    split at h
    · rw [seedThen] at h
      split at h
      · exact hr h rfl
      · simp only [Host.Outcome.next.injEq] at h; subst h; simp [seedNext]
    · exact hr h rfl
  | treeMerge =>
    rw [exec_treeMerge (he rfl)] at h
    split at h
    · rw [(mergeStep_eq_next.1 h).2, mergeNext_frame]; simp
    · exact hr h rfl
  | treeBuild =>
    rw [exec_treeBuild (he rfl)] at h
    split at h
    · exact hr h rfl
    · rw [seedThen] at h
      split at h
      · exact hr h rfl
      · exact hm h rfl
    · exact hm h rfl
  | codegen =>
    rw [exec_codegen (he rfl)] at h
    split at h
    · split at h
      · simp only [Host.Outcome.next.injEq] at h; subst h; simp [writeCodes]
      · simp at h
    · exact hr h rfl
  | encSym c =>
    rw [exec_encSym (he rfl)] at h
    split at h
    · split at h
      · exact hr h rfl
      · split at h
        · simp only [Host.Outcome.next.injEq] at h; subst h; simp
        · exact hr h rfl
    · exact hr h rfl
  | decBit b =>
    rw [exec_decBit (he rfl)] at h
    split at h
    · split at h
      · exact hr h rfl
      · rw [decodeBuffer] at h
        split at h
        · simp only [Host.Outcome.next.injEq] at h; subst h; simp
        · split at h
          · exact hr h rfl
          · simp only [Host.Outcome.next.injEq] at h; subst h; simp
    · exact hr h rfl
  | decEnd =>
    rw [exec_decEnd (he rfl)] at h
    split at h
    · split at h
      · simp only [Host.Outcome.next.injEq] at h; subst h; simp
      · exact hr h rfl
    · exact hr h rfl

end Sys2Proof.Machine
end

