-- ==== Sys2Proof/Laws/PerInstr.lean ====
section
/-! SUPPORT. A statement about every command as syntax, command by command: its word is well formed and selects its own row
of the opcode map (30_encoding.md R81 to R85). -/

namespace Sys2Proof.Laws.Encoding

/-- The command is well formed, and its word is legal and selects a row of the opcode map under the command's name. -/
def Statement (i : Instr) : Prop :=
  WellFormed.instr i = true ∧ WellFormed.commandWord (encode i) = true ∧
    ∃ r ∈ opcodeMap, r.mnemonic = mnemonicOf i ∧ r.selects (encode i) = true

theorem nop : Statement .nop := by unfold Statement; decide
theorem clearAll : Statement .clearAll := by unfold Statement; decide
theorem clearErr : Statement .clearErr := by unfold Statement; decide
theorem treeSeed : Statement .treeSeed := by unfold Statement; decide
theorem treeMerge : Statement .treeMerge := by unfold Statement; decide
theorem treeBuild : Statement .treeBuild := by unfold Statement; decide
theorem codegen : Statement .codegen := by unfold Statement; decide
theorem decBit (bit : Bool) : Statement (.decBit bit) := by cases bit <;> (unfold Statement; decide)
theorem decEnd : Statement .decEnd := by unfold Statement; decide

theorem encSym (sym : Symbol) : Statement (.encSym sym) := by revert sym; unfold Statement; decide +kernel

end Sys2Proof.Laws.Encoding
end

