-- ==== Sys2Proof/Laws/Trees.lean ====
section
/-! SUPPORT. The tree below a node as a `SymTree`, and the codes of a tree: what the walk of CODEGEN finds (R130), and that
the table it writes is a reordering of them. -/

namespace Sys2Proof.Safety

open Sys2Proof.Machine

/-- The leaves of a tree with their paths, `p` being the path to its root. -/
def SymTree.codes : Bits → SymTree → List (Symbol × Bits)
  | p, .leaf c => [(c, p)]
  | p, .node l r => l.codes (p ++ [false]) ++ r.codes (p ++ [true])

@[simp] theorem SymTree.codes_leaf (p : Bits) (c : Symbol) : (SymTree.leaf c).codes p = [(c, p)] := rfl

@[simp] theorem SymTree.codes_node (p : Bits) (l r : SymTree) :
    (SymTree.node l r).codes p = l.codes (p ++ [false]) ++ r.codes (p ++ [true]) := rfl

/-- The codes of a tree name its leaves, left to right. -/
theorem SymTree.map_fst_codes (T : SymTree) (p : Bits) : (T.codes p).map Prod.fst = T.leaves := by
  induction T generalizing p with
  | leaf c => rfl
  | node l r hl hr => simp [SymTree.leaves, hl, hr]

theorem SymTree.prefix_codes {T : SymTree} {p : Bits} {e : Symbol × Bits} (h : e ∈ T.codes p) : p <+: e.2 := by
  induction T generalizing p with
  | leaf c => simp at h; subst h; simp
  | node l r hl hr =>
    rw [codes_node, List.mem_append] at h
    rcases h with h | h
    · exact (List.prefix_append _ _).trans (hl h)
    · exact (List.prefix_append _ _).trans (hr h)

/-- The codes of a tree are distinct bit strings. -/
theorem SymTree.nodup_codes (T : SymTree) (p : Bits) : ((T.codes p).map Prod.snd).Nodup := by
  induction T generalizing p with
  | leaf c => simp
  | node l r hl hr =>
    rw [codes_node, List.map_append, List.nodup_append]
    refine ⟨hl _, hr _, ?_⟩
    intro a ha b hb hab
    subst hab
    rw [List.mem_map] at ha hb
    obtain ⟨e, he, rfl⟩ := ha
    obtain ⟨e', he', hee⟩ := hb
    obtain ⟨u, hu⟩ := prefix_codes he
    obtain ⟨v, hv⟩ := prefix_codes he'
    rw [hee, ← hu] at hv
    simp at hv

/-- The walk finds the codes of the tree below its start (R130). -/
theorem walk_eq_codes (nodes : List Node) (fuel i : Nat) (p : Bits) :
    walk nodes fuel i p = (treeAt nodes fuel i).map (SymTree.codes p) := by
  induction fuel generalizing i p with
  | zero => rfl
  | succ fuel ih =>
    simp only [walk, treeAt]
    cases hn : nodes[i]? with
    | none => rfl
    | some n =>
      cases n with
      | leaf c w => rfl
      | internal w l r =>
        simp only [ih]
        cases treeAt nodes fuel l <;> cases treeAt nodes fuel r <;> rfl

/-- Where children come before their parents every node has a tree below it. -/
theorem treeAt_isSome {nodes : List Node} (ha : ((List.range nodes.length).all (nodeOk nodes)) = true)
    {fuel i : Nat} (hi : i < nodes.length) (hf : i < fuel) : ∃ T, treeAt nodes fuel i = some T := by
  obtain ⟨pairs, hp⟩ := walk_isSome ha hi hf []
  rw [walk_eq_codes, Option.map_eq_some_iff] at hp
  exact ⟨_, hp.choose_spec.1⟩

/-- The tree below a node weighs what the node weighs, when the leaves weigh their counts (R114). -/
theorem nodeKey_treeAt {nodes : List Node} (ha : ((List.range nodes.length).all (nodeOk nodes)) = true)
    {freq : Symbol → Nat} (hl : ∀ (j : Nat) c w, nodes[j]? = some (.leaf c w) → w.toNat = freq c)
    {fuel i : Nat} {T : SymTree} (h : treeAt nodes fuel i = some T) : nodeKey nodes i = T.weight freq := by
  induction fuel generalizing i T with
  | zero => simp [treeAt] at h
  | succ fuel ih =>
    simp only [treeAt] at h
    split at h
    · simp at h
    · rename_i c w hn
      simp at h; subst h
      simp only [nodeKey, hn, Node.weight, SymTree.weight]
      exact hl i c w hn
    · rename_i w l r hn
      split at h
      · rename_i a b h1 h2
        simp at h; subst h
        rw [SymTree.weight, ← ih h1, ← ih h2, ← (arena_iff.1 ha i w l r hn).2.2]
        simp [nodeKey, hn, Node.weight]
      · simp at h

/-- Under the invariant a leaf weighs its symbol's count (R110). -/
theorem Inv.leaf_weight {s : State} (h : Inv s) (hne : s.treeState ≠ .empty) {j : Nat} {c : Symbol} {w : Weight}
    (hn : s.nodes[j]? = some (.leaf c w)) : w.toNat = count s c := by
  obtain ⟨-, v, hv, rfl⟩ := (h.leaf_index hne).1 hn
  rw [present_of_wf h.freqWf] at hv
  have := (tableGet_eq_some_iff ((Memory.wf_iff _).1 h.freqWf).1).2 (List.mem_of_getElem? hv)
  have hlt := v.isLt
  simp only [count, freqAt, Memory.read, this, Option.getD_some, BitVec.toNat_setWidth]
  omega

/-- The built tree exists (R117). -/
theorem Inv.builtTree {s : State} (h : Inv s) (hb : s.treeState = .built) : ∃ T, builtTree s = some T :=
  treeAt_isSome h.arena (h.root_lt hb) (h.root_lt hb)

/-- With two or more symbols the root is internal. -/
theorem Inv.root_internal {s : State} (h : Inv s) (hb : s.treeState = .built) (h2 : 2 ≤ s.nsym) :
    ∀ c w, s.nodes[s.root]? ≠ some (.leaf c w) := by
  intro c w hn
  have := (h.leaf_index (by simp [hb])).1 hn
  have h1 := h.count_nodes (by simp [hb])
  have h3 := h.root_eq hb
  rw [h.built hb] at h1
  simp at h1
  omega

/-- With one symbol the root is its leaf. -/
theorem Inv.root_leaf {s : State} (h : Inv s) (hb : s.treeState = .built) (h2 : s.nsym = 1) :
    ∃ c w, s.nodes[s.root]? = some (.leaf c w) ∧ s.freq.map (·.1) = [c] := by
  have h1 := h.count_nodes (by simp [hb])
  have h3 := h.root_eq hb
  rw [h.built hb] at h1
  simp at h1
  have h4 := h.nsym_eq (by simp [hb])
  match hf : s.freq with
  | [e] =>
    refine ⟨e.1, e.2.setWidth 40, (h.leaf_index (by simp [hb])).2 ⟨by omega, e.2, ?_, rfl⟩, rfl⟩
    rw [present_of_wf h.freqWf, hf]
    have : s.root = 0 := by omega
    simp [this]
  | [] => rw [hf] at h4; simp at h4; omega
  | a :: b :: l => rw [hf] at h4; simp at h4; omega

/-- The table is a reordering of the codes of the built tree, when its root is internal (R130). -/
theorem Inv.code_perm {s : State} (h : Inv s) (hv : s.codeValid = true)
    (hr : ∀ c w, s.nodes[s.root]? ≠ some (.leaf c w)) {T : SymTree} (hT : Safety.builtTree s = some T) :
    s.code.Perm (T.codes []) := by
  obtain ⟨hb, hg, -⟩ := h.hasCode hv
  rw [generatedTable, Option.map_eq_some_iff] at hg
  obtain ⟨pairs, ha, hcode⟩ := hg
  have hpairs : pairs = T.codes [] := by
    have := ha
    rw [assignedCodes] at this
    split at this
    · rename_i c w hl; exact absurd hl (hr c w)
    · rw [walk_eq_codes] at this
      rw [Safety.builtTree] at hT
      rw [hT] at this
      simpa using this.symm
  have hnd : (T.codes []).Nodup := (T.nodup_codes []).of_map _
  have hnc : s.code.Nodup := h.rising_code.imp fun hab he => by rw [he] at hab; omega
  rw [List.perm_ext_iff_of_nodup hnc hnd]
  rintro ⟨c, p⟩
  rw [← hcode, mem_tableOfCodes (h.assigned_functional hb ha), hpairs]

end Sys2Proof.Safety
end

