-- ==== Sys2Proof/Machine/Assembler.lean ====
section
/-! DEFINITION. The notation for commands and host accesses (30_encoding.md R90) and the pseudo-instructions' expansions
(R91): from the text of a program to the host actions it stands for. Log entry 22. -/

namespace Sys2Proof.Machine

/-- A token of a line. -/
inductive Token where
  | word (w : List Char)
  | char (c : Char)
  | text (t : List Char)
  | comma
  | arrow
  deriving DecidableEq, Repr

/-- A word read so far as a token, if there is one. -/
def wordToken (acc : List Char) : List Token := if acc = [] then [] else [.word acc]

/-- The tokens of a line (R90: `;` starts a comment), `acc` being the word or the quoted text read so far; `none` when a
quotation is not closed. -/
def tokens : List Char → Bool → List Char → Option (List Token)
  | [], quoted, acc => if quoted then none else some (wordToken acc)
  | c :: rest, true, acc =>
    if c = '"' then (tokens rest false []).map (.text acc :: ·) else tokens rest true (acc ++ [c])
  | '\'' :: c :: '\'' :: rest, false, acc => (tokens rest false []).map (wordToken acc ++ .char c :: ·)
  | '-' :: '>' :: rest, false, acc => (tokens rest false []).map (wordToken acc ++ .arrow :: ·)
  | c :: rest, false, acc =>
    if c = ';' then some (wordToken acc)
    else if c = '"' then (tokens rest true []).map (wordToken acc ++ ·)
    else if c = ',' then (tokens rest false []).map (wordToken acc ++ .comma :: ·)
    else if c.isWhitespace then (tokens rest false []).map (wordToken acc ++ ·)
    else tokens rest false (acc ++ [c])

/-- A digit's value in a base up to 16. -/
def digitVal (base : Nat) (c : Char) : Option Nat :=
  let v :=
    if '0'.toNat ≤ c.toNat ∧ c.toNat ≤ '9'.toNat then c.toNat - '0'.toNat
    else if 'a'.toNat ≤ c.toNat ∧ c.toNat ≤ 'f'.toNat then c.toNat - 'a'.toNat + 10
    else if 'A'.toNat ≤ c.toNat ∧ c.toNat ≤ 'F'.toNat then c.toNat - 'A'.toNat + 10
    else base
  if v < base then some v else none

/-- The number a non-empty list of digits writes, the most significant first. -/
def digits (base : Nat) : List Char → Nat → Option Nat
  | [], acc => some acc
  | c :: rest, acc =>
    match digitVal base c with
    | some v => digits base rest (base * acc + v)
    | none => none

/-- A number: `0x...` in hexadecimal, otherwise decimal (R15). -/
def number : List Char → Option Nat
  | '0' :: 'x' :: d :: rest => digits 16 (d :: rest) 0
  | d :: rest => digits 10 (d :: rest) 0
  | [] => none

/-- A number below `2 ^ n` as a bit vector. -/
def sized (n : Nat) (w : List Char) : Option (BitVec n) :=
  match number w with
  | some v => if v < 2 ^ n then some (BitVec.ofNat n v) else none
  | none => none

/-- The byte a character stands for (R90). -/
def charByte (c : Char) : Option Symbol := if c.toNat < 256 then some (BitVec.ofNat 8 c.toNat) else none

/-- `<sym>`: a number up to 255 or a character literal (R90). -/
def symToken : Token → Option Symbol
  | .word w => sized 8 w
  | .char c => charByte c
  | .text _ | .comma | .arrow => none

/-- `<b>`: 0 or 1 (R90, R91). -/
def bitChar (c : Char) : Option Bool :=
  if c = '0' then some false else if c = '1' then some true else none

/-- Mnemonics are case-insensitive (R90). -/
def mnemonicIs (w : List Char) (m : List Char) : Bool := w.map Char.toUpper == m

/-- A bare command (R90). -/
def commandOf : List Token → Option Instr
  | [.word w] =>
    if mnemonicIs w ['N', 'O', 'P'] then some .nop
    else if mnemonicIs w ['C', 'L', 'E', 'A', 'R', '_', 'A', 'L', 'L'] then some .clearAll
    else if mnemonicIs w ['C', 'L', 'E', 'A', 'R', '_', 'E', 'R', 'R'] then some .clearErr
    else if mnemonicIs w ['T', 'R', 'E', 'E', '_', 'S', 'E', 'E', 'D'] then some .treeSeed
    else if mnemonicIs w ['T', 'R', 'E', 'E', '_', 'M', 'E', 'R', 'G', 'E'] then some .treeMerge
    else if mnemonicIs w ['T', 'R', 'E', 'E', '_', 'B', 'U', 'I', 'L', 'D'] then some .treeBuild
    else if mnemonicIs w ['C', 'O', 'D', 'E', 'G', 'E', 'N'] then some .codegen
    else if mnemonicIs w ['D', 'E', 'C', '_', 'E', 'N', 'D'] then some .decEnd
    else none
  | [.word w, a] =>
    if mnemonicIs w ['E', 'N', 'C', '_', 'S', 'Y', 'M'] then (symToken a).map .encSym
    else if mnemonicIs w ['D', 'E', 'C', '_', 'B', 'I', 'T'] then
      match a with
      | .word [c] => (bitChar c).map .decBit
      | _ => none
    else none
  | _ => none

/-- A host action with the value the line states for its read, if it states one (R90). -/
abbrev Line := List (HostAction × Option Word)

/-- Actions with no stated value. -/
def plain (l : List HostAction) : Line := l.map fun a => (a, none)

/-- What a line of one token stands for, other than a bare command (R91). -/
def lineOfOne (w : List Char) : Option Line :=
  if mnemonicIs w ['W', 'A', 'I', 'T'] then some (plain [.wait])
  else if mnemonicIs w ['D', 'R', 'A', 'I', 'N', '_', 'E', 'N', 'C'] then some (plain [.drainEnc])
  else if mnemonicIs w ['D', 'R', 'A', 'I', 'N', '_', 'D', 'E', 'C'] then some (plain [.drainDec])
  else if mnemonicIs w ['C', 'H', 'E', 'C', 'K', '_', 'O', 'K'] then some [(checkOk, some 0)]
  else none

/-- What a line of a mnemonic and a quoted text stands for (R91). -/
def lineOfText (w t : List Char) : Option Line :=
  if mnemonicIs w ['E', 'N', 'C', '_', 'S', 'T', 'R'] then (t.mapM charByte).map fun cs => plain (encStr cs)
  else if mnemonicIs w ['D', 'E', 'C', '_', 'S', 'T', 'R'] then (t.mapM bitChar).map fun bs => plain (decStr bs)
  else none

/-- What a line of a mnemonic and two operands stands for (R90, R91). -/
def lineOfPair (w : List Char) (a : Token) (v : List Char) : Option Line :=
  if mnemonicIs w ['W', 'R'] then
    match a with
    | .word off =>
      match sized 16 off, sized 32 v with
      | some off, some v => some (plain [wr off v])
      | _, _ => none
    | _ => none
  else if mnemonicIs w ['S', 'E', 'T', 'F', 'R', 'E', 'Q'] then
    match symToken a, sized 32 v with
    | some c, some n => some (plain [setFreq c n])
    | _, _ => none
  else none

/-- `RD <offset>`, with or without a stated value (R90). -/
def lineOfRead (w off : List Char) (v : Option Word) : Option Line :=
  if mnemonicIs w ['R', 'D'] then (sized 16 off).map fun off => [(rd off, v)] else none

/-- What a line's tokens stand for, other than a bare command (R90, R91). -/
def lineOf : List Token → Option Line
  | [] => some []
  | [.word w] => lineOfOne w
  | [.word w, .text t] => lineOfText w t
  | [.word w, a, .comma, .word v] => lineOfPair w a v
  | [.word w, .word off, .arrow, .word v] =>
    match sized 32 v with
    | some v => lineOfRead w off (some v)
    | none => none
  | [.word w, .word off] => lineOfRead w off none
  | _ => none

/-- `DO <command>`, a bare command, or another line (R90, R91). -/
def lineOfTokens : List Token → Option Line
  | .word w :: rest =>
    if mnemonicIs w ['D', 'O'] then (commandOf rest).map fun i => plain (doCommand i)
    else
      match commandOf (.word w :: rest) with
      | some i => some (plain [command i])
      | none => lineOf (.word w :: rest)
  | ts => lineOf ts

/-- The host actions one line stands for; `none` for a line outside the notation. -/
def assembleLine (l : List Char) : Option Line := (tokens l false []).bind lineOfTokens

/-- The lines of a text. -/
def splitLines : List Char → List Char → List (List Char)
  | [], acc => [acc]
  | c :: rest, acc => if c = '\n' then acc :: splitLines rest [] else splitLines rest (acc ++ [c])

/-- The host actions a program's text stands for (R90, R91). -/
def assemble (text : List Char) : Option Line := ((splitLines text []).mapM assembleLine).map List.flatten

/-- The actions of a program, without the stated values: a host program (R227). -/
def Line.actions (l : Line) : List HostAction := l.map Prod.fst

end Sys2Proof.Machine
end

