-- ==== Sys2Proof/Tests/Slice0.lean ====
section
/-! SUPPORT. The model's own tests: ill-formed terms refused, words written out from the spec, one step of each command and
access against the vectors of 95_test_vectors.md, and a witness for the hypotheses of every obligation. -/

namespace Sys2Proof.Tests

open Sys2Proof.Machine Sys2Proof.Safety

/-! ### Ill-formed terms (R50, R81 to R84, R87) -/

theorem test_reserved_bit_n_refused : WellFormed.commandWord 0x00000100 = false := by decide
theorem test_reserved_bit_s_refused : WellFormed.commandWord 0x00010030 = false := by decide
theorem test_reserved_bit_b_refused : WellFormed.commandWord 0x00000240 = false := by decide
theorem test_unmapped_opcode_refused : WellFormed.commandWord 0x00000003 = false := by decide
theorem test_half_word_access_refused : WellFormed.access 16 0x0000 = false := by decide
theorem test_misaligned_access_refused : WellFormed.access 32 0x0002 = false := by decide
theorem test_last_operands_well_formed :
    WellFormed.instr (.encSym 0xFF) = true ∧ WellFormed.instr (.decBit true) = true := by decide

/-! ### Words written out from R81 to R85: reserved bits, operand, opcode -/

/-- Format N: [31:8] = 0, OP. -/
def wordN (op : BitVec 8) : Word := 0#24 ++ op

/-- Format S: [31:16] = 0, SYM, OP. -/
def wordS (sym op : BitVec 8) : Word := 0#16 ++ sym ++ op

/-- Format B: [31:9] = 0, BIT, OP. -/
def wordB (bit : BitVec 1) (op : BitVec 8) : Word := 0#23 ++ bit ++ op

theorem test_decode_nop : decode (wordN 0b00000000) = .ok .nop := by rfl
theorem test_decode_clearAll : decode (wordN 0b00000001) = .ok .clearAll := by rfl
theorem test_decode_clearErr : decode (wordN 0b00000010) = .ok .clearErr := by rfl
theorem test_decode_treeSeed : decode (wordN 0b00010000) = .ok .treeSeed := by rfl
theorem test_decode_treeMerge : decode (wordN 0b00010001) = .ok .treeMerge := by rfl
theorem test_decode_treeBuild : decode (wordN 0b00010010) = .ok .treeBuild := by rfl
theorem test_decode_codegen : decode (wordN 0b00100000) = .ok .codegen := by rfl
theorem test_decode_encSym : decode (wordS 0b01100001 0b00110000) = .ok (.encSym 0x61) := by rfl
theorem test_decode_decBit : decode (wordB 0b1 0b01000000) = .ok (.decBit true) := by rfl
theorem test_decode_decEnd : decode (wordN 0b01000001) = .ok .decEnd := by rfl

/-- 95_test_vectors.md section 8: words with a reserved bit or outside the map. -/
theorem test_decode_illegal :
    decode 0x80000012 = .error .reservedBitSet ∧ decode 0x00000240 = .error .reservedBitSet ∧
      decode 0x00010030 = .error .reservedBitSet ∧ decode 0x000000FF = .error .unmappedOpcode ∧
      decode 0x00000013 = .error .unmappedOpcode := ⟨rfl, rfl, rfl, rfl, rfl⟩

theorem test_table_word :
    decodeTableWord 32 0x6130 = some (.encSym 0x61) ∧ decodeTableWord 32 0x03 = none ∧
      decodeTableWord 16 0x16130 = some (.encSym 0x61) := ⟨rfl, rfl, rfl⟩

/-! ### States the tests and the witnesses start from -/

/-- The next state of an answer that is one. -/
def after (o : Answer) : State :=
  match o with
  | .next t => t
  | .fault _ => State.reset
  | .refused _ => State.reset

/-- An answer is a next state. -/
def goesOn (o : Answer) : Bool :=
  match o with
  | .next _ => true
  | .fault _ => false
  | .refused _ => false

theorem eq_after {o : Answer} (h : goesOn o = true) : o = .next (after o) := by
  cases o with
  | next t => rfl
  | fault r => simp [goesOn] at h
  | refused r => simp [goesOn] at h

/-- The next state of a command. -/
def run (i : Instr) (s : State) : State := after (exec i s)

/-- EMPTY with FREQ {A:1, B:2, C:4, D:8} (vector T-6): no extraction meets a tie. -/
def skew : State := { State.reset with freq := [(0x41, 1), (0x42, 2), (0x43, 4), (0x44, 8)] }

/-- EMPTY with FREQ {a:2, b:3, c:2} (vector T-1). -/
def abc : State := { State.reset with freq := [(0x61, 2), (0x62, 3), (0x63, 2)] }

/-- EMPTY with one present symbol (vector T-4). -/
def lone : State := { State.reset with freq := [(0x61, 5)] }

def skewSeeded : State := run .treeSeed skew
def skewLastMerge : State := run .treeMerge (run .treeMerge skewSeeded)
def skewBuilt : State := run .treeBuild skew
def skewCode : State := run .codegen skewBuilt
def loneBuilt : State := run .treeBuild lone
def loneCode : State := run .codegen loneBuilt

/-- The table of vector C-1: b 0, a 10, c 11, built under LOWEST_INDEX. -/
def abcCode : State := run .codegen (after (treeBuildWith lowestIndex abc))

/-- A state with the word `w` latched and the engine's step due. -/
def due (s : State) (w : Word) : State := { s with busy := true, latch := w }

/-- A state with UNKNOWN_SYMBOL pending (vector E-3). -/
def pending (s : State) : State :=
  { s with error := { code := .unknownSymbol, multi := false, src := .command, info := 0x7A30 } }

/-- A state whose host is about to do `a`. -/
def about (s : State) (a : HostAction) : State := { s with host := [a] }

/-- A state whose host is about to do `a` while a command is in flight. -/
def aboutBusy (s : State) (a : HostAction) : State := { s with busy := true, delay := 2, host := [a] }

/-! ### One step of each command -/

/-- K-2: NOP with an error pending leaves it. -/
theorem test_nop_keeps_error : run .nop (pending abc) = pending abc := by decide +kernel

/-- K-6: CLEAR_ALL ends a session. -/
theorem test_clearAll_ends_session :
    let t := run .clearAll (run (.encSym 0x41) skewCode)
    statusWord t = 0x00 ∧ t.encq = [] ∧ t.freq = [] ∧ t.nodes = [] ∧ t.code = [] := by decide +kernel

/-- K-4: CLEAR_ERR keeps the tables. -/
theorem test_clearErr_keeps_tables :
    errorWord (pending abcCode).error = 0x7A300002 ∧ run .clearErr (pending abcCode) = abcCode ∧
      statusWord abcCode = 0x18 := by decide +kernel

/-- T-1: TREE_SEED allocates the leaves in ascending symbol order. -/
theorem test_treeSeed_allocates :
    let t := run .treeSeed abc
    (statusWord t, t.nsym, t.nodes, t.pq) =
      (0x04, 3, [.leaf 0x61 2, .leaf 0x62 3, .leaf 0x63 2], [0, 1, 2]) := by decide +kernel

/-- T-4: one present symbol is BUILT at once. -/
theorem test_treeSeed_one_symbol :
    let t := run .treeSeed lone
    (statusWord t, t.nsym, t.root, t.nodes, t.pq) = (0x08, 1, 0, [.leaf 0x61 5], [0]) := by decide +kernel

/-- T-2: the first merge under LOWEST_INDEX takes nodes 0 and 2. -/
theorem test_treeMerge_first :
    let t := after (treeMergeWith lowestIndex (run .treeSeed abc))
    (statusWord t, t.nodes[3]?, t.pq) = (0x04, some (.internal 4 0 2), [1, 3]) := by decide +kernel

/-- P3: the last merge of vector T-6 makes node 6 of nodes 5 and 3, and the tree is BUILT. -/
theorem test_treeMerge_last :
    let t := run .treeMerge skewLastMerge
    (statusWord t, t.root, t.nodes[6]?, t.pq) = (0x08, 6, some (.internal 15 5 3), [6]) := by decide +kernel

/-- T-6: the whole build. -/
theorem test_treeBuild_skew :
    (skewBuilt.root, skewBuilt.nodes.drop 4) =
      (6, [.internal 3 0 1, .internal 7 4 2, .internal 15 5 3]) := by decide +kernel

/-- T-9: the largest counts do not overflow. -/
theorem test_treeBuild_largest_counts :
    let t := after (treeBuildWith lowestIndex { abc with freq := [(0x78, 0xFFFFFFFF), (0x79, 0xFFFFFFFF)] })
    t.nodes[2]? = some (.internal 0x1FFFFFFFE 0 1) := by decide +kernel

/-- T-7: both tie choices of the vector, LOWEST_INDEX and HIGHEST_INDEX. -/
theorem test_ties :
    let s := { abc with freq := [(0x61, 1), (0x62, 1), (0x63, 2), (0x64, 2)] }
    (after (treeBuildWith lowestIndex s)).nodes.drop 4 = [.internal 2 0 1, .internal 4 2 3, .internal 6 4 5] ∧
      (after (treeBuildWith (fun _ c => c.max?.getD 0) s)).nodes.drop 4 =
        [.internal 2 1 0, .internal 4 4 3, .internal 6 2 5] := by decide +kernel

/-- T-6: the codes A 000, B 001, C 01, D 1. -/
theorem test_codegen_paths :
    (skewCode.maxLen, skewCode.code) =
      (3, [(0x41, [false, false, false]), (0x42, [false, false, true]), (0x43, [false, true]), (0x44, [true])]) := by
  decide +kernel

/-- C-3: the fallback code of a single symbol. -/
theorem test_codegen_fallback : (loneCode.maxLen, loneCode.code) = (1, [(0x61, [false])]) := by decide +kernel

/-- E-1: ENC_SYM 'a' appends "10". -/
theorem test_encSym_appends : (run (.encSym 0x61) abcCode).encq = [true, false] := by decide +kernel

/-- E-3 and E-4: an unknown symbol, and no table. -/
theorem test_encSym_errors :
    errorWord (run (.encSym 0x7A) (due abcCode 0x00007A30)).error = 0x7A300002 ∧
      errorWord (run (.encSym 0x61) (due State.reset 0x00006130)).error = 0x61300011 := by decide +kernel

/-- D-1: 1 then 0 decode to 'a'. -/
theorem test_decBit_matches :
    let t := run (.decBit true) abcCode
    let u := run (.decBit false) t
    (t.dbuf, t.decq, u.dbuf, u.decq) = ([true], [], [], [0x61]) := by decide +kernel

/-- D-4: a 1 bit against the fallback table. -/
theorem test_decBit_unknown_code :
    let t := run (.decBit true) (due loneCode 0x00000140)
    (errorWord t.error, t.dbuf) = (0x01400004, []) := by decide +kernel

/-- D-3: DEC_END with a bit left over. -/
theorem test_decEnd_truncated :
    let t := run .decEnd (due (run (.decBit true) abcCode) 0x00000041)
    (errorWord t.error, t.dbuf) = (0x00410003, []) := by decide +kernel

/-- D-2's last command: DEC_END with nothing left over. -/
theorem test_decEnd_ok : run .decEnd abcCode = abcCode := by decide +kernel

/-! ### Accesses and steps -/

/-- H-1: constants and reserved offsets at reset. -/
theorem test_constants :
    ([0x0000, 0x0004, 0x0008, 0x003C, 0x8000].map fun o => (memRead o State.reset).1) =
      [0x48554646, 0x20100200, 0, 0, 0] := by decide +kernel

/-- H-4: a FREQ write after seeding is dropped with SEQUENCE. -/
theorem test_freq_write_after_seeding :
    let t := memWrite 0x0584 9 (run .treeSeed abc)
    (errorWord t.error, statusWord t, freqAt t 0x61) = (0x05840211, 0x06, 2) := by decide +kernel

/-- H-6: a write while TREE_BUILD is in flight cancels it. -/
theorem test_busy_write_cancels :
    let t := memWrite 0x0588 9 (due abc 0x00000012)
    let u := after (engineStep t)
    (errorWord t.error, statusWord t) = (0x05880213, 0x03) ∧
      (errorWord u.error, statusWord u, freqAt u 0x62) = (0x05880313, 0x02, 3) := by decide +kernel

/-- E-2: the packed output of "aabbbcc", then an empty read. -/
theorem test_encOutData :
    let bits := [true, false, true, false, false, false, false, true, true, true, true]
    let r := memRead 0x002C { abcCode with encq := bits }
    (r.1, r.2.encq, (memRead 0x002C r.2).1) = (0xA1E00000, [], 0) := by decide +kernel

/-- T-2 and T-3: words of the NODE window. -/
theorem test_node_window :
    let t := after (treeMergeWith lowestIndex (run .treeSeed abc))
    ([0x1000, 0x1030, 0x1034, 0x103C].map fun o => (memRead o t).1) =
      [0x00006101, 0x00000002, 0x00000004, 0x00020000] := by decide +kernel

/-- C-1: words of the CODE window. -/
theorem test_code_window :
    ([0x5840, 0x5844, 0x5880, 0x5884, 0x58C0, 0x58C4, 0x5900].map fun o => (memRead o abcCode).1) =
      [0x00000201, 0x00000002, 0x00000101, 0x00000000, 0x00000201, 0x00000003, 0] := by decide +kernel

/-- Section 8: an illegal word runs to ILLEGAL_COMMAND through a whole step. -/
theorem test_step_illegal_word :
    let t := after (step (State.withFetchWord State.reset 32 0x80000012))
    (errorWord t.error, statusWord t) = (0x00120010, 0x02) := by decide +kernel

/-- H-8: a misaligned access is refused. -/
theorem test_step_refuses_bad_access :
    step (about State.reset (.read 32 0x0002)) = .refused .badAccess := by rfl

/-- DRAIN_ENC of 33 bits: the count, then two reads (R91). -/
theorem test_drain_enc :
    (after (core.run 3 (about { abcCode with encq := List.replicate 33 true } .drainEnc))).reads =
      [33, 0xFFFFFFFF, 0x80000000] := by decide +kernel

/-- R90, R91: lines of the notation, with the words the spec prints for them. -/
theorem test_assembler :
    assembleLine "enc_sym 'a' ; comment".toList = some [(.write 32 0x0008 0x00006130, none)] ∧
      assembleLine "DEC_BIT 1".toList = some [(.write 32 0x0008 0x00000140, none)] ∧
      assembleLine "DO TREE_BUILD".toList = some [(.write 32 0x0008 0x00000012, none), (.wait, none)] ∧
      assembleLine "SETFREQ 'a', 2".toList = some [(.write 32 0x0584 2, none)] ∧
      assembleLine "RD 0x0010 -> 0x42300002".toList = some [(.read 32 0x0010, some 0x42300002)] ∧
      assembleLine "RD 0x10000".toList = none := by decide +kernel

/-! ### The invariant holds in the states the witnesses use -/

theorem inv_reset : Inv State.reset := by constructor <;> decide +kernel
theorem inv_skew : Inv skew := by constructor <;> decide +kernel
theorem inv_abc : Inv abc := by constructor <;> decide +kernel
theorem inv_lone : Inv lone := by constructor <;> decide +kernel
theorem inv_skewSeeded : Inv skewSeeded := by constructor <;> decide +kernel
theorem inv_skewLastMerge : Inv skewLastMerge := by constructor <;> decide +kernel
theorem inv_skewBuilt : Inv skewBuilt := by constructor <;> decide +kernel
theorem inv_skewCode : Inv skewCode := by constructor <;> decide +kernel
theorem inv_loneBuilt : Inv loneBuilt := by constructor <;> decide +kernel
theorem inv_loneCode : Inv loneCode := by constructor <;> decide +kernel
theorem inv_abcCode : Inv abcCode := by constructor <;> decide +kernel

/-! ### Witnesses: a state and operands that meet each obligation's hypotheses, clause by clause -/

theorem witness_DecodeAfterEncode :
    WellFormed.instr (.encSym 0x00) = true ∧ WellFormed.instr (.encSym 0xFF) = true ∧
      WellFormed.instr (.decBit false) = true := by decide

theorem witness_EncodeAfterDecode : decode 0x0000FF30 = .ok (.encSym 0xFF) ∧ decode 0x00000140 = .ok (.decBit true) :=
  ⟨rfl, rfl⟩

theorem witness_WordSelectsOneRow :
    (⟨"ENC_SYM", 0x00000030, 0xFFFF00FF⟩ : OpcodeRow) ∈ opcodeMap ∧
      (0x0000FF30 : Word) &&& 0xFFFF00FF = 0x00000030 := by decide

theorem witness_IllegalWordIsRecorded :
    engineTurn (due State.reset 0x00000042) = true ∧
      ∀ r ∈ opcodeMap, (due State.reset 0x00000042).latch &&& r.mask ≠ r.pattern := by decide +kernel

theorem witness_StepRunsLatchedCommand :
    let s := due State.reset 0x00000010
    let u := { due State.reset 0x00000010 with delay := 5 }
    s.busy = true ∧ s.delay = 0 ∧ decode s.latch = .ok .treeSeed ∧
      u.busy = true ∧ u.delay ≠ 0 ∧ u.host = [] ∧ decode u.latch = .ok .treeSeed := by
  exact ⟨rfl, rfl, rfl, rfl, by decide, rfl, rfl⟩

theorem witness_ClearErrClearsError : errorWord State.reset.error = 0 := by decide

theorem witness_TreeSeedAllocatesLeaves :
    (lone.error.code = .none ∧ lone.treeState = .empty ∧ Memory.wf lone.freq = true ∧ freqAt lone 0x61 ≠ 0) ∧
      (abc.error.code = .none ∧ abc.treeState = .empty ∧ Memory.wf abc.freq = true ∧ freqAt abc 0x63 ≠ 0) := by
  decide +kernel

/-- With exactly two nodes in the queue, and with more. -/
theorem witness_TreeMergeJoinsTwoMinima :
    (skewLastMerge.error.code = .none ∧ skewLastMerge.treeState = .building ∧ skewLastMerge.pq.length = 2 ∧
      (∀ i ∈ skewLastMerge.pq, i < skewLastMerge.nodes.length) ∧ skewLastMerge.pq.Pairwise (· < ·)) ∧
      (skewSeeded.error.code = .none ∧ skewSeeded.treeState = .building ∧ skewSeeded.pq.length = 4 ∧
        (∀ i ∈ skewSeeded.pq, i < skewSeeded.nodes.length) ∧ skewSeeded.pq.Pairwise (· < ·)) := by
  decide +kernel

theorem witness_TreeBuildFinishesTree :
    (Inv lone ∧ lone.error.code = .none ∧ lone.treeState = .empty ∧ ∃ c, freqAt lone c ≠ 0) ∧
      (Inv skewLastMerge ∧ skewLastMerge.error.code = .none ∧ skewLastMerge.treeState = .building) :=
  ⟨⟨inv_lone, rfl, rfl, 0x61, by decide⟩, inv_skewLastMerge, by decide +kernel, by decide +kernel⟩

theorem witness_TreeBuildIsSeedThenMerges :
    (Inv skew ∧ skew.error.code = .none ∧ skew.treeState = .empty ∧ ∃ c, freqAt skew c ≠ 0) ∧
      (Inv skewSeeded ∧ skewSeeded.error.code = .none ∧ skewSeeded.treeState = .building) :=
  ⟨⟨inv_skew, rfl, rfl, 0x44, by decide⟩, inv_skewSeeded, by decide +kernel, by decide +kernel⟩

theorem witness_TreeCommandErrors :
    (skewSeeded.error.code = .none ∧ skewSeeded.treeState ≠ .empty ∧ skewSeeded.treeState ≠ .built) ∧
      (skewBuilt.error.code = .none ∧ skewBuilt.treeState = .built) ∧
      (State.reset.error.code = .none ∧ State.reset.treeState ≠ .building ∧ State.reset.treeState = .empty ∧
        Memory.wf State.reset.freq = true) := by decide +kernel

theorem witness_TreeCommandErrors_empty : ∀ c, freqAt State.reset c = 0 := fun _ => rfl

theorem witness_EveryTieIsAdmitted : 2 ∈ [0, 2] := by decide

theorem witness_BuiltTreeShape :
    (Inv skewBuilt ∧ skewBuilt.treeState = .built ∧ 6 < skewBuilt.nodes.length ∧
      skewBuilt.nodes[6]? = some (.internal 15 5 3)) ∧
      (Inv loneBuilt ∧ loneBuilt.treeState = .built) :=
  ⟨⟨inv_skewBuilt, by decide +kernel⟩, inv_loneBuilt, by decide +kernel⟩

theorem witness_WeightsAreExactSums :
    Inv skewBuilt ∧ skewBuilt.treeState ≠ .empty ∧ skewBuilt.nodes[4]? = some (.internal 3 0 1) ∧
      treeAt skewBuilt.nodes skewBuilt.nodes.length 4 = some (.node (.leaf 0x41) (.leaf 0x42)) :=
  ⟨inv_skewBuilt, by decide +kernel⟩

theorem lawful_lowest : LawfulTie (fun _ c => c.head?.getD 0) := by
  intro n c hc
  cases c with
  | nil => exact absurd rfl hc
  | cons i rest => simp

theorem witness_BuiltTreeIsOptimal :
    LawfulTie (fun _ c => c.head?.getD 0) ∧ Inv skew ∧ skew.error.code = .none ∧ skew.treeState = .empty ∧
      ∃ c, freqAt skew c ≠ 0 := ⟨lawful_lowest, inv_skew, rfl, rfl, 0x41, by decide⟩

/-- With an internal root, with a root that is a leaf, and with a table already there. -/
theorem witness_CodegenWritesPaths :
    (Inv skewBuilt ∧ skewBuilt.error.code = .none ∧ skewBuilt.treeState = .built ∧
      skewBuilt.nodes[skewBuilt.root]? = some (.internal 15 5 3)) ∧
      (Inv loneBuilt ∧ loneBuilt.error.code = .none ∧ loneBuilt.treeState = .built ∧
        loneBuilt.nodes[loneBuilt.root]? = some (.leaf 0x61 5)) ∧
      (Inv skewCode ∧ skewCode.error.code = .none ∧ skewCode.treeState = .built ∧ skewCode.codeValid = true) :=
  ⟨⟨inv_skewBuilt, by decide +kernel⟩, ⟨inv_loneBuilt, by decide +kernel⟩, inv_skewCode, by decide +kernel⟩

/-- A text with the counts of vector L1-1. -/
theorem witness_WeightedCodeLength_text :
    Inv abcCode ∧ abcCode.codeValid = true ∧
      ∀ c, [0x61, 0x61, 0x62, 0x62, 0x62, 0x63, 0x63].count c = count abcCode c :=
  ⟨inv_abcCode, by decide +kernel⟩

theorem witness_SingleSymbolGetsFallback : Inv loneCode ∧ loneCode.codeValid = true ∧ loneCode.nsym = 1 :=
  ⟨inv_loneCode, by decide +kernel⟩

theorem witness_CodeLengthsAreBounded : Inv skewCode ∧ codeAt skewCode 0x44 = some [true] :=
  ⟨inv_skewCode, by decide +kernel⟩

theorem witness_CodesArePrefixFree :
    Inv skewCode ∧ codeAt skewCode 0x43 = some [false, true] ∧ [false, true] <+: [false, true] :=
  ⟨inv_skewCode, by decide +kernel⟩

theorem witness_CodesAreComplete :
    (Inv skewCode ∧ skewCode.codeValid = true ∧ 2 ≤ skewCode.nsym ∧ [true, false, true].length = skewCode.maxLen) ∧
      (Inv loneCode ∧ loneCode.codeValid = true ∧ loneCode.nsym = 1) :=
  ⟨⟨inv_skewCode, by decide +kernel⟩, inv_loneCode, by decide +kernel⟩

theorem witness_WeightedCodeLength :
    (Inv skewCode ∧ skewCode.codeValid = true ∧ 2 ≤ skewCode.nsym) ∧
      (Inv loneCode ∧ loneCode.codeValid = true ∧ loneCode.nsym = 1) :=
  ⟨⟨inv_skewCode, by decide +kernel⟩, inv_loneCode, by decide +kernel⟩

/-- Room for exactly the code. -/
theorem witness_EncSymAppendsCode :
    let s := { abcCode with encq := List.replicate 510 false }
    s.error.code = .none ∧ s.codeValid = true ∧ codeAt s 0x61 = some [true, false] ∧
      s.encq.length + [true, false].length = 512 := by decide +kernel

theorem witness_EncoderConcatenatesInOrder :
    abcCode.error.code = .none ∧ abcCode.codeValid = true ∧
      (∀ c ∈ [(0x61 : Symbol), 0x62, 0x63], (codeAt abcCode c).isSome = true) ∧
      abcCode.encq.length + ([(0x61 : Symbol), 0x62, 0x63].flatMap fun c => (codeAt abcCode c).getD []).length ≤ 512 := by
  decide +kernel

/-- A match, an extension, and no match at MAXLEN. -/
theorem witness_DecBitMatchesOrExtends :
    (abcCode.error.code = .none ∧ abcCode.codeValid = true ∧ abcCode.decq.length ≠ 16 ∧ rising abcCode.code ∧
      codeAt abcCode 0x62 = some (abcCode.dbuf ++ [false])) ∧
      ((∀ e ∈ abcCode.code, e.2 ≠ abcCode.dbuf ++ [true]) ∧ abcCode.dbuf.length + 1 < abcCode.maxLen) ∧
      (loneCode.error.code = .none ∧ loneCode.codeValid = true ∧ loneCode.decq.length ≠ 16 ∧ rising loneCode.code ∧
        (∀ e ∈ loneCode.code, e.2 ≠ loneCode.dbuf ++ [true]) ∧ loneCode.maxLen ≤ loneCode.dbuf.length + 1) := by
  decide +kernel

theorem witness_DecBitMatchesOrExtends_match : ∀ d, codeAt abcCode d = some (abcCode.dbuf ++ [false]) ↔ d = 0x62 := by
  decide +kernel

theorem witness_DecBitMatchesOrExtends_none :
    (∀ d, codeAt abcCode d ≠ some (abcCode.dbuf ++ [true])) ∧ ∀ d, codeAt loneCode d ≠ some (loneCode.dbuf ++ [true]) := by
  decide +kernel

theorem witness_DecEndChecksLeftover :
    let s := run (.decBit true) abcCode
    (skewBuilt.error.code = .none ∧ skewBuilt.codeValid = false) ∧
      (abcCode.error.code = .none ∧ abcCode.codeValid = true ∧ abcCode.dbuf = []) ∧
      (s.error.code = .none ∧ s.codeValid = true ∧ s.dbuf ≠ []) := by decide +kernel

theorem witness_StreamCommandErrors :
    let full := { abcCode with encq := List.replicate 511 false }
    let fullOut := { abcCode with decq := List.replicate 16 0x62 }
    (skewBuilt.error.code = .none ∧ skewBuilt.codeValid = false) ∧
      (abcCode.error.code = .none ∧ abcCode.codeValid = true ∧ codeAt abcCode 0x7A = none) ∧
      (full.error.code = .none ∧ full.codeValid = true ∧ codeAt full 0x61 = some [true, false] ∧
        512 < full.encq.length + [true, false].length) ∧
      (fullOut.error.code = .none ∧ fullOut.codeValid = true ∧ fullOut.decq.length = 16) := by decide +kernel

theorem witness_DecodingInvertsEncoding :
    Inv abcCode ∧ abcCode.error.code = .none ∧ abcCode.codeValid = true ∧ abcCode.dbuf = [] ∧
      (∀ c ∈ [(0x61 : Symbol), 0x62], (codeAt abcCode c).isSome = true) ∧
      [some true, none, some false, some false].filterMap id =
        ([(0x61 : Symbol), 0x62].flatMap fun c => (codeAt abcCode c).getD []) :=
  ⟨inv_abcCode, by decide +kernel⟩

/-- With one symbol and with more, and one place left in DECQ. -/
theorem witness_UnknownCodeOnlyForOneSymbol :
    (Inv loneCode ∧ loneCode.error.code = .none ∧ loneCode.codeValid = true ∧ loneCode.decq.length ≠ 16 ∧
      loneCode.nsym = 1) ∧
      (Inv skewCode ∧ skewCode.error.code = .none ∧ skewCode.codeValid = true ∧ skewCode.decq.length ≠ 16 ∧
        skewCode.nsym ≠ 1) :=
  ⟨⟨inv_loneCode, by decide +kernel⟩, inv_skewCode, by decide +kernel⟩

theorem witness_FirstErrorIsKept : abc.error.code = .none ∧ (pending abc).error.code ≠ .none := by decide

theorem witness_PendingErrorGatesCommands :
    (pending abc).error.code ≠ .none ∧ Instr.decEnd ≠ .nop ∧ Instr.decEnd ≠ .clearAll ∧ Instr.decEnd ≠ .clearErr := by
  decide

/-- An error that changes nothing else, and the two that empty DBUF. -/
theorem witness_ErrorsArePrecise :
    let leftover := run (.decBit true) abcCode
    (abc.error.code = .none ∧ exec .treeMerge abc = .next (run .treeMerge abc) ∧
      (run .treeMerge abc).error.code = .sequence) ∧
      (loneCode.error.code = .none ∧ exec (.decBit true) loneCode = .next (run (.decBit true) loneCode) ∧
        (run (.decBit true) loneCode).error.code = .unknownCode) ∧
      (leftover.error.code = .none ∧ exec .decEnd leftover = .next (run .decEnd leftover) ∧
        (run .decEnd leftover).error.code = .truncatedOrCorruptInput) :=
  ⟨⟨rfl, eq_after (by decide +kernel), by decide +kernel⟩, ⟨by decide +kernel, eq_after (by decide +kernel), by decide +kernel⟩,
    by decide +kernel, eq_after (by decide +kernel), by decide +kernel⟩

/-- Each way an error ends, and a step that keeps it. -/
theorem witness_RecordedErrorStays :
    let p := pending abc
    (step (due p 0x00000010) = .next (after (step (due p 0x00000010))) ∧ (due p 0x00000010).error.code ≠ .none) ∧
      engineRuns (due p 0x00000002) .clearErr ∧ engineRuns (due p 0x00000001) .clearAll ∧
      hostMoves (about p .reset) .reset ∧ step (about p .reset) = .next (after (step (about p .reset))) :=
  ⟨⟨eq_after (by decide +kernel), by decide⟩, ⟨by decide, rfl⟩, ⟨by decide, rfl⟩, ⟨by decide, rfl⟩, eq_after (by decide +kernel)⟩

theorem witness_BusyWriteCancelsCommand :
    (due abc 0x00000012).busy = true ∧ (due abc 0x00000012).error.code = .none ∧ Instr.treeBuild ≠ .nop ∧
      Instr.treeBuild ≠ .clearAll ∧ Instr.treeBuild ≠ .clearErr := by decide

theorem witness_BadAccessIsRefused :
    hostMoves (about abc (.read 16 0x0000)) (.read 16 0x0000) ∧ (16 : Nat) ≠ 32 ∧
      hostMoves (about abc (.write 32 0x0003 1)) (.write 32 0x0003 1) ∧ (0x0003 : Offset).toNat % 4 ≠ 0 :=
  ⟨⟨rfl, rfl⟩, by decide, ⟨rfl, rfl⟩, by decide⟩

/-- Each action, the last offset of the space, and an action while a command is in flight. -/
theorem witness_StepPerformsAccess :
    engineTurn (about abc (.read 32 0xFFFC)) = false ∧ (0xFFFC : Offset).toNat % 4 = 0 ∧
      (about abc (.read 32 0xFFFC)).host = [.read 32 0xFFFC] ∧
      engineTurn (about abc (.write 32 0x0008 0)) = false ∧
      (about abc (.write 32 0x0008 0)).host = [.write 32 0x0008 0] ∧
      engineTurn (aboutBusy abc .wait) = false ∧ (aboutBusy abc .wait).host = [.wait] := by decide

/-- Each of the four actions, with a full queue and with an empty one. -/
theorem witness_DrainsReadTheirCount :
    let s := { abcCode with encq := List.replicate 512 true, decq := List.replicate 16 0x61 }
    s.busy = false ∧ s.encq.length ≤ 512 ∧ s.decq.length ≤ 16 ∧ (about s .drainEnc).host = [.drainEnc] ∧
      (about s (.drainEncBits 32)).host = [.drainEncBits 32] ∧ (about s .drainDec).host = [.drainDec] ∧
      (about s (.drainDecSyms 1)).host = [.drainDecSyms 1] ∧ abcCode.busy = false ∧ abcCode.encq.length ≤ 512 ∧
      abcCode.decq.length ≤ 16 := by decide +kernel

theorem witness_PlainRegistersRead : State.reset.busy = false ∧ skewCode.busy = false := by decide +kernel

theorem witness_AccessesWhileBusy :
    (due abc 0x00000012).busy = true ∧ (0x0000 : Offset).toNat % 4 = 0 ∧ (0x0010 : Offset).toNat % 4 = 0 ∧
      (0x0014 : Offset).toNat % 4 = 0 ∧ (0x0014 : Offset) ≠ 0x0000 ∧ (0x0014 : Offset) ≠ 0x0004 ∧
      (0x0014 : Offset) ≠ 0x000C ∧ (0x0014 : Offset) ≠ 0x0010 := by decide

/-- The first and the last entry, while EMPTY and after seeding. -/
theorem witness_FreqWriteAndRead :
    abc.busy = false ∧ (0x0400 : Offset).toNat = 0x0400 + 4 * (0x00 : Symbol).toNat ∧
      (0x07FC : Offset).toNat = 0x0400 + 4 * (0xFF : Symbol).toNat ∧ abc.treeState = .empty ∧
      Memory.wf abc.freq = true ∧ skewSeeded.busy = false ∧ skewSeeded.treeState ≠ .empty := by decide +kernel

/-- CMD, and the offsets beside CMD and the FREQ window. -/
theorem witness_CmdWriteLatchesOthersIgnored :
    abc.busy = false ∧ (0x0008 : Offset).toNat % 4 = 0 ∧ (0x000C : Offset).toNat % 4 = 0 ∧ (0x000C : Offset) ≠ 0x0008 ∧
      (0x03FC : Offset).toNat < 0x0400 ∧ (0x03FC : Offset).toNat % 4 = 0 ∧ 0x0800 ≤ (0x0800 : Offset).toNat ∧
      (0x0800 : Offset).toNat % 4 = 0 := by decide

/-- The ends of the reserved ranges. -/
theorem witness_CmdWriteLatchesOthersIgnored_reserved :
    (0x0060 ≤ (0x0060 : Offset).toNat ∧ (0x0060 : Offset).toNat < 0x0400) ∧
      (0x0800 ≤ (0x0FFC : Offset).toNat ∧ (0x0FFC : Offset).toNat < 0x1000) ∧
      (0x2FF0 ≤ (0x2FF0 : Offset).toNat ∧ (0x2FF0 : Offset).toNat < 0x4000) ∧
      0x8000 ≤ (0x8000 : Offset).toNat ∧ 0x8000 ≤ (0xFFFC : Offset).toNat := by decide

theorem witness_OutputReadsPop :
    abc.busy = false ∧ abc.decq = [] ∧ { abc with decq := [0x00] }.busy = false ∧
      { abc with decq := [0x00] }.decq = 0x00 :: [] := by decide

/-- A leaf and an internal node, the first and the last word of each, and the last word of the arena, not allocated. -/
theorem witness_NodeWindow :
    skewBuilt.busy = false ∧ skewBuilt.nodes[0]? = some (.leaf 0x41 1) ∧
      (0x1000 : Offset).toNat = 0x1000 + 16 * 0 + 4 * 0 ∧ (0x100C : Offset).toNat = 0x1000 + 16 * 0 + 4 * 3 ∧
      skewBuilt.nodes[6]? = some (.internal 15 5 3) ∧ (0x1060 : Offset).toNat = 0x1000 + 16 * 6 + 4 * 0 ∧
      (0x106C : Offset).toNat = 0x1000 + 16 * 6 + 4 * 3 ∧ (3 = 3 → 5 < 512 ∧ 3 < 512) ∧ skewBuilt.nodes.length ≤ 510 ∧
      (0x2FEC : Offset).toNat = 0x1000 + 16 * 510 + 4 * 3 := by decide +kernel

/-- The first and the last word of the CODE window and of DEC_BUF_BITS. -/
theorem witness_BitStringWindows :
    abcCode.busy = false ∧ (0x4000 : Offset).toNat = 0x4000 + 64 * (0x00 : Symbol).toNat + 4 * 0 ∧
      (0x7FFC : Offset).toNat = 0x4000 + 64 * (0xFF : Symbol).toNat + 4 * 15 ∧ codeAt abcCode 0x00 = none ∧
      codeAt abcCode 0x61 = some [true, false] ∧ [true, false].length ≤ 255 ∧ abcCode.dbuf.length ≤ 254 ∧
      (0x0040 : Offset).toNat = 0x0040 + 4 * 0 ∧ (0x005C : Offset).toNat = 0x0040 + 4 * 7 := by decide +kernel

theorem witness_ReadSideEffects :
    abc.busy = false ∧ (0x002C : Offset).toNat % 4 = 0 ∧ (0x0034 : Offset).toNat % 4 = 0 ∧
      (0x0030 : Offset).toNat % 4 = 0 := by decide

/-- Idle, and with a command in flight. -/
theorem witness_PlatformReset :
    engineTurn (about abc .reset) = false ∧ (about abc .reset).host = [.reset] ∧
      engineTurn (aboutBusy abc .reset) = false ∧ (aboutBusy abc .reset).host = [.reset] := by decide

theorem witness_StepKeepsInvariant : Inv abc ∧ step abc = .next abc := ⟨inv_abc, rfl⟩

theorem witness_ReachableStatesMeetR42 : Reachable (loadProgram [setFreq 0x61 5] State.reset) := .start _

/-- A host move that goes on, and the one kind that is refused. -/
theorem witness_BlockNeverStops :
    Inv abc ∧ hostMoves (about abc (.read 8 0x0000)) (.read 8 0x0000) ∧ actionOk (.read 8 0x0000) = false :=
  ⟨inv_abc, ⟨rfl, rfl⟩, rfl⟩

theorem inv_inFlight : Inv (aboutBusy abc .wait) := { inv_abc with idleDelay := fun h => by simp [aboutBusy] at h }

theorem witness_CommandsComplete :
    Inv (aboutBusy abc .wait) ∧ (aboutBusy abc .wait).busy = true ∧
      ∀ a ∈ (aboutBusy abc .wait).host, actionOk a = true := ⟨inv_inFlight, by decide⟩

theorem witness_IdleBlockStays : abc.busy = false ∧ abc.host = [] := by decide

/-- A step that allocates nodes, and the two that take them away. -/
theorem witness_AllocatedNodesStay :
    Inv abc ∧ step abc = .next abc ∧ engineRuns (due skewBuilt 0x00000001) .clearAll ∧
      hostMoves (about skewBuilt .reset) .reset :=
  ⟨inv_abc, rfl, ⟨by decide +kernel, rfl⟩, by decide +kernel, by decide +kernel⟩

/-- Each way FREQ changes. -/
theorem witness_FreqChangesOnlyWhileEmpty :
    step (about abc (setFreq 0x61 5)) = .next (after (step (about abc (setFreq 0x61 5)))) ∧
      hostMoves (about abc (setFreq 0x61 5)) (.write 32 0x0584 5) ∧ abc.treeState = .empty ∧ abc.busy = false ∧
      engineRuns (due abc 0x00000001) .clearAll ∧ hostMoves (about abc .reset) .reset :=
  ⟨eq_after (by decide +kernel), ⟨by decide, by decide⟩, rfl, rfl, ⟨by decide, rfl⟩, by decide, by decide⟩

/-- Each transition: to EMPTY, from EMPTY by TREE_SEED, and from BUILDING to BUILT. -/
theorem witness_TreeStateTransitions :
    (after (step (due skewLastMerge 0x00000001))).treeState = .empty ∧
      (after (step (due abc 0x00000010))).treeState = .building ∧
      (after (step (due lone 0x00000012))).treeState = .built ∧
      (after (step (due skewLastMerge 0x00000011))).treeState = .built ∧
      step (due abc 0x00000010) = .next (after (step (due abc 0x00000010))) :=
  ⟨by decide +kernel, by decide +kernel, by decide +kernel, by decide +kernel, eq_after (by decide +kernel)⟩

/-- CODEGEN writes the table, CLEAR_ALL empties it. -/
theorem witness_OnlyCodegenWritesCode :
    (after (step (due skewBuilt 0x00000020))).codeValid = true ∧
      (after (step (due skewCode 0x00000001))).codeValid = false ∧ step skewCode = .next (after (step skewCode)) :=
  ⟨by decide +kernel, by decide +kernel, eq_after (by decide +kernel)⟩

end Sys2Proof.Tests
end

section
/-! PROOFS. The statements of 00_scope.md: the tie selections (R13), `val` (R16) and the length of a code (R8). -/

namespace Sys2Proof.Machine

open Sys2Proof.Safety

/-! ### Tie selections (R13, R112) -/

/-- A choice of a place inside the candidate set picks the candidate at that place. -/
theorem tieSelectOf_eq_getElem {choice : Nat → List Nat → Nat} {n : Nat} {cs : List Nat} (h : choice n cs < cs.length) :
    tieSelectOf choice n cs = cs[choice n cs] := by
  match cs, h with
  | [i], h =>
    have h0 : choice n [i] = 0 := Nat.lt_one_iff.1 h
    simp only [tieSelectOf, h0, List.getElem_cons_zero]
  | i :: j :: rest, h =>
    simp only [tieSelectOf]
    rw [Nat.mod_eq_of_lt h, List.getD_eq_getElem _ _ h]

/-- The choice of the place at which the index `i` stands among the candidates. -/
def choosePlaceOf (i : Nat) : Nat → List Nat → Nat := fun _ cs => cs.idxOf i

/-- Choosing the place of a candidate picks that candidate. -/
theorem tieSelectOf_choosePlaceOf {i : Nat} {cs : List Nat} (hi : i ∈ cs) (n : Nat) :
    tieSelectOf (choosePlaceOf i) n cs = i := by
  have hlt : choosePlaceOf i n cs < cs.length := List.idxOf_lt_length_of_mem hi
  rw [tieSelectOf_eq_getElem hlt]
  exact List.getElem_idxOf hlt

/-- Settles O15: the commands use the open TIE_SELECT by definition, a place modulo the number of candidates is a member,
and the place of a member picks it. -/
theorem everyTieIsAdmitted : Obligations.EveryTieIsAdmitted := by
  unfold Obligations.EveryTieIsAdmitted
  exact ⟨fun _ => rfl, fun _ => rfl, tieSelectOf_lawful, fun n _ i hi =>
    ⟨choosePlaceOf i, tieSelectOf_choosePlaceOf hi n⟩⟩

/-! ### The number of a bit string (R16) -/

@[simp] theorem bitsVal_nil : bitsVal [] = 0 := rfl

/-- Reading more bits after the number `acc` shifts `acc` up by as many places. -/
theorem foldl_bits (p : Bits) (acc : Nat) :
    p.foldl (fun acc b => 2 * acc + b.toNat) acc = acc * 2 ^ p.length + bitsVal p := by
  induction p generalizing acc with
  | nil => simp
  | cons b p ih =>
    rw [bitsVal, List.foldl_cons, List.foldl_cons, ih, ih, List.length_cons, pow_succ]
    ring

/-- The first bit is the most significant. -/
theorem bitsVal_cons (b : Bool) (p : Bits) : bitsVal (b :: p) = b.toNat * 2 ^ p.length + bitsVal p := by
  rw [bitsVal, List.foldl_cons, foldl_bits, Nat.mul_zero, Nat.zero_add]

theorem bitsVal_lt (p : Bits) : bitsVal p < 2 ^ p.length := by
  induction p with
  | nil => simp
  | cons b p ih =>
    have hb : b.toNat * 2 ^ p.length ≤ 1 * 2 ^ p.length := Nat.mul_le_mul_right _ b.toNat_le
    rw [bitsVal_cons, List.length_cons, pow_succ]
    omega

/-- The bit at place `i` has the weight `2 ^ (len - 1 - i)`. -/
theorem bitsVal_eq_sum (p : Bits) :
    bitsVal p = ((List.range p.length).map fun i => ((p[i]?).getD false).toNat * 2 ^ (p.length - 1 - i)).sum := by
  induction p with
  | nil => rfl
  | cons b p ih =>
    have hexp (i : Nat) : p.length - 1 - i = p.length - (i + 1) := by omega
    rw [bitsVal_cons, ih, List.length_cons, List.range_succ_eq_map, List.map_cons, List.sum_cons, List.map_map]
    simp [Function.comp_def, hexp]

/-- Settles O47, by induction on the bit string from its most significant bit. -/
theorem valIsBinaryNumber : Obligations.ValIsBinaryNumber := by
  unfold Obligations.ValIsBinaryNumber
  exact fun p => ⟨bitsVal_lt p, bitsVal_eq_sum p⟩

end Sys2Proof.Machine

namespace Sys2Proof.Safety

open Sys2Proof.Machine

/-! ### The length of a code (R8, R32) -/

/-- CODE[c] is valid with bits `p` exactly when the table lists the pair. -/
theorem Inv.codeAt_eq_some_iff {s : State} (h : Inv s) {c : Symbol} {p : Bits} :
    codeAt s c = some p ↔ (c, p) ∈ s.code :=
  tableGet_eq_some_iff h.rising_code

/-- A table lists codes only while CODE_VALID is 1 (R42). -/
theorem Inv.codeValid_of_mem {s : State} (h : Inv s) {e : Symbol × Bits} (he : e ∈ s.code) : s.codeValid = true := by
  cases hv : s.codeValid with
  | false => rw [(h.noCode hv).1] at he; exact absurd he List.not_mem_nil
  | true => rfl

/-- A path down from ROOT of a built tree has fewer bits than there are symbols (R8). -/
theorem Inv.root_path_lt_nsym {s : State} (h : Inv s) (hb : s.treeState = .built) {p : Bits} {j : Nat}
    (hp : descend s.nodes s.root p = some j) (hne : p ≠ []) : p.length + 1 ≤ s.nsym := by
  have hseeded : s.treeState ≠ .empty := by simp [hb]
  have hdepth := (h.path_depth hp (h.root_lt hb) hseeded).resolve_right hne
  have hroot := h.root_eq hb
  have hcount := h.count_nodes hseeded
  rw [h.built hb, List.length_singleton] at hcount
  omega

/-- A code is the fallback "0" (R131), or a path of at least one bit from ROOT to a leaf, which has fewer bits than there
are symbols (R130). -/
theorem Inv.code_length {s : State} (h : Inv s) {c : Symbol} {p : Bits} (hc : (c, p) ∈ s.code) :
    p = [false] ∨ (1 ≤ p.length ∧ p.length + 1 ≤ s.nsym) := by
  have hv := h.codeValid_of_mem hc
  have hb := (h.hasCode hv).1
  by_cases hr : ∃ c' w, s.nodes[s.root]? = some (.leaf c' w)
  · obtain ⟨c', w, hleaf⟩ := hr
    rw [h.code_of_leaf_root hv hleaf, List.mem_singleton, Prod.mk.injEq] at hc
    exact .inl hc.2
  · push Not at hr
    obtain ⟨j, w, hpath, hleaf⟩ := (h.mem_code hv hr).1 hc
    have hne : p ≠ [] := by
      rintro rfl
      rw [descend_nil, Option.some.injEq] at hpath
      exact hr c w (hpath ▸ hleaf)
    exact .inr ⟨List.length_pos_of_ne_nil hne, h.root_path_lt_nsym hb hpath hne⟩

/-- Settles O21: a code that is not the fallback has fewer bits than there are symbols, and there are at most 256. -/
theorem codeLengthsAreBounded : Obligations.CodeLengthsAreBounded := by
  unfold Obligations.CodeLengthsAreBounded
  intro s h c p hc
  have hmem := h.codeAt_eq_some_iff.1 hc
  have hb := (h.hasCode (h.codeValid_of_mem hmem)).1
  have hsym := h.nsym_le_256 (by simp [hb])
  obtain rfl | ⟨hpos, hlt⟩ := h.code_length hmem
  · simp
  · omega

end Sys2Proof.Safety
end

section
/-! PROOFS. The statements of 10_state.md: the invariant at reset and under every step (R41, R42), and which steps change the
error record, the arena, FREQ, TREE_STATE and the code table (R24 to R32). -/

namespace Sys2Proof.Machine

open Sys2Proof.Safety

/-! ### What a command can do (R86) -/

/-- Everything the command `i` can answer from `s`: one constructor per way the command ends, with the checks of its rule
that led there. -/
inductive ExecEffect (s : State) : Instr → State → Prop where
  | nop : ExecEffect s .nop s
  | clearAll : ExecEffect s .clearAll (clearUnits s)
  | clearErr : ExecEffect s .clearErr (clearError s)
  /-- An error is pending, so the gate rejects the command (R185). -/
  | rejected {i} (pending : s.error.code ≠ .none) : ExecEffect s i (rejectCommand s)
  /-- A check of the command's rule fails (R181). -/
  | raised {i k} (clear : s.error.code = .none) (isError : k ≠ .none) : ExecEffect s i (recordCommandError k s)
  /-- The two errors of the decoder that also empty DBUF (R151, R152). -/
  | raisedEmptying {i k} (clear : s.error.code = .none) (isError : k ≠ .none) :
      ExecEffect s i (recordCommandError k (setDbuf [] s))
  | seeded (empty : s.treeState = .empty) (found : present s.freq ≠ []) : ExecEffect s .treeSeed (seedNext s)
  | merged (building : s.treeState = .building) : ExecEffect s .treeMerge (mergeNext openTie s)
  | builtFromEmpty {t} (empty : s.treeState = .empty) (found : present s.freq ≠ [])
      (merges : mergeAll openTie (seedNext s).pq.length (seedNext s) = .next t) : ExecEffect s .treeBuild t
  | builtFromBuilding {t} (building : s.treeState = .building) (merges : mergeAll openTie s.pq.length s = .next t) :
      ExecEffect s .treeBuild t
  | generated {tab} (built : s.treeState = .built) (table : generatedTable s.nodes s.root = some tab) :
      ExecEffect s .codegen (writeCodes tab s)
  | encoded {c p} (valid : s.codeValid = true) (listed : codeAt s c = some p)
      (room : s.encq.length + p.length ≤ Config.encFifoBits) : ExecEffect s (.encSym c) (pushEnc p s)
  | decoded {bit c} (valid : s.codeValid = true) (room : s.decq.length ≠ Config.decFifoDepth)
      (isCode : matchSet s.code (s.dbuf ++ [bit]) = [c]) : ExecEffect s (.decBit bit) (setDbuf [] (pushDec c s))
  | buffered {bit} (valid : s.codeValid = true) (noMatch : ∀ c, matchSet s.code (s.dbuf ++ [bit]) ≠ [c])
      (short : (s.dbuf ++ [bit]).length < s.maxLen) : ExecEffect s (.decBit bit) (setDbuf (s.dbuf ++ [bit]) s)
  | streamEnded (valid : s.codeValid = true) (emptyBuffer : s.dbuf = []) : ExecEffect s .decEnd s

section Commands

variable {s t : State}

/-- A failed check ends a command that passed the gate. -/
theorem ExecEffect.of_raise {i : Instr} {k : ErrorCode} (he : s.error.code = .none) (hk : k ≠ .none)
    (h : raise k s = .next t) : ExecEffect s i t :=
  raise_eq_next.1 h ▸ .raised he hk

theorem ExecEffect.of_raise_emptying {i : Instr} {k : ErrorCode} (he : s.error.code = .none) (hk : k ≠ .none)
    (h : raise k (setDbuf [] s) = .next t) : ExecEffect s i t :=
  raise_eq_next.1 h ▸ .raisedEmptying he hk

theorem treeSeed_effect (he : s.error.code = .none) (h : exec .treeSeed s = .next t) : ExecEffect s .treeSeed t := by
  rw [exec_treeSeed he, seedThen] at h
  split at h
  · rename_i hempty
    split at h
    · exact .of_raise he (by decide) h
    · rename_i hfound
      cases h
      exact .seeded hempty hfound
  · exact .of_raise he (by decide) h

theorem treeMerge_effect (he : s.error.code = .none) (h : exec .treeMerge s = .next t) : ExecEffect s .treeMerge t := by
  rw [exec_treeMerge he] at h
  split at h
  · rename_i hbuilding
    obtain ⟨-, rfl⟩ := mergeStep_eq_next.1 h
    exact .merged hbuilding
  · exact .of_raise he (by decide) h

theorem treeBuild_effect (he : s.error.code = .none) (h : exec .treeBuild s = .next t) : ExecEffect s .treeBuild t := by
  rw [exec_treeBuild he] at h
  split at h
  · exact .of_raise he (by decide) h
  · rename_i hempty
    rw [seedThen] at h
    split at h
    · exact .of_raise he (by decide) h
    · rename_i hfound
      exact .builtFromEmpty hempty hfound h
  · rename_i hbuilding
    exact .builtFromBuilding hbuilding h

theorem codegen_effect (he : s.error.code = .none) (h : exec .codegen s = .next t) : ExecEffect s .codegen t := by
  rw [exec_codegen he] at h
  split at h
  · rename_i hbuilt
    split at h
    · rename_i tab htab
      cases h
      exact .generated hbuilt htab
    · cases h
  · exact .of_raise he (by decide) h

theorem encSym_effect {c : Symbol} (he : s.error.code = .none) (h : exec (.encSym c) s = .next t) :
    ExecEffect s (.encSym c) t := by
  rw [exec_encSym he] at h
  split at h
  · rename_i hv
    split at h
    · exact .of_raise he (by decide) h
    · rename_i p hp
      split at h
      · rename_i hroom
        cases h
        exact .encoded hv hp hroom
      · exact .of_raise he (by decide) h
  · exact .of_raise he (by decide) h

/-- One accepted bit (R151): a symbol comes out, the buffer can match no more and is dropped, or it is kept. -/
theorem decodeBuffer_effect {bit : Bool} (he : s.error.code = .none) (hv : s.codeValid = true)
    (hroom : s.decq.length ≠ Config.decFifoDepth) (h : decodeBuffer (s.dbuf ++ [bit]) s = .next t) :
    ExecEffect s (.decBit bit) t := by
  rw [decodeBuffer] at h
  split at h
  · rename_i c hc
    cases h
    exact .decoded hv hroom hc
  · rename_i hnone
    split at h
    · exact .of_raise_emptying he (by decide) h
    · rename_i hshort
      cases h
      exact .buffered hv hnone (by omega)

theorem decBit_effect {bit : Bool} (he : s.error.code = .none) (h : exec (.decBit bit) s = .next t) :
    ExecEffect s (.decBit bit) t := by
  rw [exec_decBit he] at h
  split at h
  · rename_i hv
    split at h
    · exact .of_raise he (by decide) h
    · rename_i hroom
      exact decodeBuffer_effect he hv hroom h
  · exact .of_raise he (by decide) h

theorem decEnd_effect (he : s.error.code = .none) (h : exec .decEnd s = .next t) : ExecEffect s .decEnd t := by
  rw [exec_decEnd he] at h
  split at h
  · rename_i hv
    split at h
    · rename_i hbuf
      cases h
      exact .streamEnded hv hbuf
    · exact .of_raise_emptying he (by decide) h
  · exact .of_raise he (by decide) h

/-- Every command, from any state, answers one of its effects: the gate first, then the command's own rule. -/
theorem exec_effect {i : Instr} (h : exec i s = .next t) : ExecEffect s i t := by
  by_cases hg : passesGate i = false ∧ s.error.code ≠ .none
  · rw [exec_of_pending hg.1 hg.2] at h
    cases h
    exact .rejected hg.2
  have he : passesGate i = false → s.error.code = .none := fun hp => by_contra fun hc => hg ⟨hp, hc⟩
  cases i with
  | nop => cases h; exact .nop
  | clearAll => cases h; exact .clearAll
  | clearErr => cases h; exact .clearErr
  | treeSeed => exact treeSeed_effect (he rfl) h
  | treeMerge => exact treeMerge_effect (he rfl) h
  | treeBuild => exact treeBuild_effect (he rfl) h
  | codegen => exact codegen_effect (he rfl) h
  | encSym c => exact encSym_effect (he rfl) h
  | decBit bit => exact decBit_effect (he rfl) h
  | decEnd => exact decEnd_effect (he rfl) h

end Commands

/-! ### What a step can do (R21, R62) -/

/-- Everything a step can do. A read, and a drain or WAIT that makes one, is its frame: the output FIFOs get no longer. -/
inductive StepEffect (s : State) : State → Prop where
  | command {i u} (runs : engineRuns s i) (effect : ExecEffect s i u) : StepEffect s (finishCommand u)
  | illegal (turn : engineTurn s = true) : StepEffect s (finishCommand (recordCommandError .illegalCommand s))
  | idle (turn : engineTurn s = false) : StepEffect s s
  | read {e d n l r} (encShorter : e.length ≤ s.encq.length) (decShorter : d.length ≤ s.decq.length) :
      StepEffect s { s with encq := e, decq := d, draws := n, host := l, reads := r, delay := s.delay - 1 }
  /-- A write that is ignored (R53, R54). -/
  | ignored {rest off v} (moves : hostMoves s (.write 32 off v)) : StepEffect s (takeAction rest s)
  /-- A write that is dropped with BUSY_ERR or SEQUENCE (R66, R167). -/
  | refused {rest off v k} (moves : hostMoves s (.write 32 off v)) (isError : k ≠ .none) :
      StepEffect s (recordAccessError k off (takeAction rest s))
  | freqWritten {rest off v c} (moves : hostMoves s (.write 32 off v)) (idle : s.busy = false)
      (region : regionOf off = .freq c) (empty : s.treeState = .empty) : StepEffect s (writeFreq c v (takeAction rest s))
  | latched {rest off w} (moves : hostMoves s (.write 32 off w)) (idle : s.busy = false) :
      StepEffect s (latchCommand w (takeAction rest s))
  | reset {rest} (moves : hostMoves s .reset) : StepEffect s (platformReset (takeAction rest s))

section Steps

variable {s t : State}

/-- What a read takes from an output FIFO it takes from its head (R170, R172). -/
theorem readIdle_suffix (r : Region) (s : State) :
    (readIdle r s).2.encq <:+ s.encq ∧ (readIdle r s).2.decq <:+ s.decq := by
  cases r with
  | encOutData => exact ⟨List.drop_suffix _ _, List.suffix_refl _⟩
  | decOutData =>
    simp only [readIdle, readDecOutData]
    split
    · exact ⟨List.suffix_refl _, List.suffix_refl _⟩
    · exact ⟨List.suffix_refl _, List.drop_suffix _ _⟩
  | node i k =>
    simp only [readIdle, readNode]
    split <;> exact ⟨List.suffix_refl _, List.suffix_refl _⟩
  | _ => exact ⟨List.suffix_refl _, List.suffix_refl _⟩

theorem memRead_suffix (off : Offset) (s : State) :
    (memRead off s).2.encq <:+ s.encq ∧ (memRead off s).2.decq <:+ s.decq := by
  rw [memRead]
  split
  · rw [readBusy_frame]
    exact ⟨List.suffix_refl _, List.suffix_refl _⟩
  · exact readIdle_suffix _ s

/-- A read made by a host action, with what the host still has to do. -/
theorem read_effect (off : Offset) (rest l : List HostAction) (r : List Word) :
    StepEffect s { (memRead off (takeAction rest s)).2 with reads := r, host := l } := by
  obtain ⟨henc, hdec⟩ := memRead_suffix off (takeAction rest s)
  rw [memRead_frame]
  exact .read henc.length_le hdec.length_le

theorem write_effect {off : Offset} {v : Word} (hm : hostMoves s (.write 32 off v)) (rest : List HostAction) :
    StepEffect s (memWrite off v (takeAction rest s)) := by
  obtain ⟨-, h⟩ | ⟨hidle, ⟨c, hc, hempty, h⟩ | ⟨c, -, -, h⟩ | ⟨-, h⟩ | h⟩ :=
    memWrite_cases off v (takeAction rest s) <;> rw [h]
  · exact .refused hm (by decide)
  · exact .freqWritten hm hidle hc hempty
  · exact .refused hm (by decide)
  · exact .latched hm hidle
  · exact .ignored hm

theorem executeWord_effect {u : State} (ht : engineTurn s = true) (h : executeWord s.latch s = .next u) :
    StepEffect s (finishCommand u) := by
  obtain ⟨i, hi, hu⟩ | ⟨-, rfl⟩ := executeWord_cases h
  · exact .command ⟨ht, hi⟩ (exec_effect hu)
  · exact .illegal ht

/-- Every step, from any state, is one of the effects. -/
theorem step_effect (h : step s = .next t) : StepEffect s t := by
  obtain ⟨hturn, u, hu, rfl⟩ | ⟨hturn, -, rfl⟩ | ⟨a, rest, hm, -, ha⟩ := step_cases h
  · exact executeWord_effect hturn hu
  · exact .idle hturn
  · obtain ⟨off, l, rfl, -⟩ | ⟨off, v, rfl, rfl⟩ | ⟨rfl, rfl⟩ := hostStep_cases ha
    · exact read_effect off rest l _
    · exact write_effect hm rest
    · exact .reset hm

end Steps

end Sys2Proof.Machine

namespace Sys2Proof.Safety

open Sys2Proof.Machine

/-! ### The invariant (R41, R42) -/

/-- Settles O51: every unit is empty, so each clause is about empty lists or has a false premise. -/
theorem resetMeetsInvariant : Obligations.ResetMeetsInvariant := by
  unfold Obligations.ResetMeetsInvariant
  exact fun _ =>
    { freqWf := Memory.wf_nil
      errorClear := fun _ => rfl
      idleDelay := fun _ => rfl
      emptyTree := fun _ => ⟨rfl, rfl, rfl, rfl, rfl⟩
      seeded := fun hne => absurd rfl hne
      arena := rfl
      queueRising := List.Pairwise.nil
      owned := List.Perm.nil
      total := fun hne => absurd rfl hne
      building := nofun
      built := nofun
      noCode := fun _ => ⟨rfl, rfl, rfl⟩
      hasCode := nofun
      buffer := fun hne => absurd rfl hne
      encBound := Nat.zero_le _
      decBound := Nat.zero_le _ }

/-- The merge loop as TREE_BUILD runs it keeps the invariant. -/
theorem Inv.of_mergeAll {s t : State} (h : Inv s) (hne : s.treeState ≠ .empty)
    (hm : Machine.mergeAll openTie s.pq.length s = .next t) : Inv t := by
  obtain ⟨t', hm', hinv, -⟩ := h.mergeAll openTie_lawful hne le_rfl
  cases hm.symm.trans hm'
  exact hinv

/-- DBUF with a further bit that matches no code and is shorter than MAXLEN again begins some code and is not the whole of
it (R151). Under a root that is a leaf MAXLEN is 1, so no bit is kept there. -/
theorem Inv.keepBit {s : State} (h : Inv s) (hv : s.codeValid = true) {bit : Bool}
    (hno : ∀ c, matchSet s.code (s.dbuf ++ [bit]) ≠ [c]) (hshort : (s.dbuf ++ [bit]).length < s.maxLen) :
    Inv (setDbuf (s.dbuf ++ [bit]) s) := by
  have hroot : ∀ c w, s.nodes[s.root]? ≠ some (.leaf c w) := by
    intro c w hleaf
    obtain ⟨-, -, hmax⟩ := h.hasCode hv
    rw [h.code_of_leaf_root hv hleaf] at hmax
    have hone : s.maxLen = 1 := hmax
    simp [hone] at hshort
  obtain ⟨e, he, hprefix, hne⟩ := h.extend_buffer hv bit (fun c hc => hno c (h.matchSet_eq.2 hc)) hroot
  exact h.setBuffer hv he hprefix hne

/-- Every command keeps the invariant. -/
theorem Inv.of_execEffect {s t : State} {i : Instr} (h : Inv s) (heff : ExecEffect s i t) : Inv t := by
  cases heff with
  | nop => exact h
  | clearAll => exact h.clearUnits
  | clearErr => exact h.clearError
  | rejected hpending => exact h.rejectCommand hpending
  | raised _ hk => exact h.recordError hk _ _
  | raisedEmptying _ hk => exact h.emptyBuffer.recordError hk _ _
  | seeded hempty hfound => exact (h.seed hempty hfound).1
  | merged hbuilding => exact (h.merge openTie_lawful hbuilding).1
  | builtFromEmpty hempty hfound hm =>
    obtain ⟨hinv, hne⟩ := h.seed hempty hfound
    exact hinv.of_mergeAll hne hm
  | builtFromBuilding hbuilding hm => exact h.of_mergeAll (by simp [hbuilding]) hm
  | generated hbuilt htab => exact h.writeCodes hbuilt htab
  | encoded _ _ hroom => exact h.pushEnc hroom
  | decoded _ hroom => exact (h.pushDec _ hroom).emptyBuffer
  | buffered hv hno hshort => exact h.keepBit hv hno hshort
  | streamEnded => exact h

/-- Every step keeps the invariant. -/
theorem Inv.of_stepEffect {s t : State} (h : Inv s) (heff : StepEffect s t) : Inv t := by
  cases heff with
  | command _ hexec => exact (h.of_execEffect hexec).finishCommand
  | illegal => exact (h.recordError (by decide) _ _).finishCommand
  | idle => exact h
  | read henc hdec =>
    exact
      { h with
        idleDelay := fun hb => by simp only [h.idleDelay hb]
        encBound := henc.trans h.encBound
        decBound := hdec.trans h.decBound }
  | ignored => exact h.takeAction _
  | refused _ hk => exact (h.takeAction _).recordError hk _ _
  | freqWritten _ _ _ hempty => exact (h.takeAction _).writeFreq hempty _ _
  | latched => exact (h.takeAction _).latchCommand _
  | reset => exact (h.takeAction _).platformReset

/-- Settles O52: a step is one of the effects, and each effect keeps the invariant. -/
theorem stepKeepsInvariant : Obligations.StepKeepsInvariant := by
  unfold Obligations.StepKeepsInvariant
  exact fun _ _ h hstep => h.of_stepEffect (step_effect hstep)

/-! ### The properties of R42 -/

/-- The invariant holds after reset and every step keeps it. -/
theorem Reachable.inv {s : State} (h : Reachable s) : Inv s := by
  induction h with
  | start program => exact resetMeetsInvariant program
  | step _ hstep ih => exact stepKeepsInvariant _ _ ih hstep

/-- A symbol has a code exactly when it is present. -/
theorem Inv.codeAt_isSome_iff {s : State} (h : Inv s) (hv : s.codeValid = true) (c : Symbol) :
    (codeAt s c).isSome ↔ freqAt s c ≠ 0 := by
  simp only [Option.isSome_iff_exists, h.codeAt_eq_some_iff, h.code_symbols hv, h.freqAt_ne_zero]

/-- CODE has one valid entry per present symbol: both tables list the same symbols in rising order. -/
theorem Inv.length_code {s : State} (h : Inv s) (hv : s.codeValid = true) : s.code.length = s.nsym := by
  have hfreq := rising_toList ((Memory.wf_iff _).1 h.freqWf).1 (fun c => freqAt s c != 0) fun c => by
    rw [bne_iff_ne, h.freqAt_ne_zero]
  have hcode := rising_toList h.rising_code (fun c => freqAt s c != 0) fun c => by
    rw [bne_iff_ne, h.freqAt_ne_zero, h.code_symbols hv]
  have hlen := congrArg List.length (hcode.symm.trans hfreq)
  rw [List.length_map, List.length_map] at hlen
  rw [hlen, h.nsym_eq (by simp [(h.hasCode hv).1])]

/-- Some code has MAXLEN bits. -/
theorem Inv.exists_longest {s : State} (h : Inv s) (hv : s.codeValid = true) :
    ∃ c p, codeAt s c = some p ∧ p.length = s.maxLen := by
  obtain ⟨⟨c, p⟩, hmem, hlen⟩ := exists_maxCodeLen (h.code_ne_nil hv)
  obtain ⟨-, -, hmax⟩ := h.hasCode hv
  exact ⟨c, p, h.codeAt_eq_some_iff.2 hmem, hlen.trans hmax.symm⟩

/-- DBUF is shorter than some code, and no code is longer than 255 bits (R8, R36). -/
theorem Inv.length_dbuf_le {s : State} (h : Inv s) : s.dbuf.length ≤ 254 := by
  by_cases hd : s.dbuf = []
  · simp [hd]
  · obtain ⟨-, ⟨c, p⟩, hmem, hprefix, hne⟩ := h.buffer hd
    have hle : p.length ≤ 255 := (codeLengthsAreBounded s h c p (h.codeAt_eq_some_iff.2 hmem)).2
    have hlt : s.dbuf.length < p.length := lt_of_le_of_ne hprefix.length_le fun hl => hne (hprefix.eq_of_length hl)
    omega

theorem Inv.runProperties {s : State} (h : Inv s) : RunProperties s where
  empty hempty := by
    obtain ⟨hnodes, hrest⟩ := h.emptyTree hempty
    exact ⟨congrArg List.length hnodes, hrest⟩
  building hbuilding := by
    have hne : s.treeState ≠ .empty := by simp [hbuilding]
    have hcount := h.count_nodes hne
    have hle := h.nsym_le hne
    exact ⟨(h.building hbuilding).1, by omega, hcount, h.codeValid_false (by simp [hbuilding])⟩
  built hbuilt := by
    have hcount := h.count_nodes (by simp [hbuilt])
    rw [h.built hbuilt, List.length_singleton] at hcount
    exact ⟨h.built hbuilt, hcount, h.root_eq hbuilt⟩
  rootWeight hbuilt := by
    rw [h.freqTotal_eq, ← h.total (by simp [hbuilt]), queueWeight, h.built hbuilt, List.map_singleton,
      List.sum_singleton]
  codeValid hv :=
    ⟨(h.hasCode hv).1, h.length_code hv, h.codeAt_isSome_iff hv,
      fun _ _ hc => h.length_le_maxLen (h.codeAt_eq_some_iff.1 hc), h.exists_longest hv⟩
  codeInvalid hv := by
    obtain ⟨hcode, hmax, -⟩ := h.noCode hv
    exact ⟨fun c => by rw [codeAt, hcode, tableGet], hmax⟩
  buffer hd := by
    obtain ⟨hlt, ⟨c, p⟩, hmem, hprefix, hne⟩ := h.buffer hd
    exact ⟨h.codeValid_of_mem hmem, hlt, c, p, h.codeAt_eq_some_iff.2 hmem, hprefix, hne⟩
  encBound := h.encBound
  decBound := h.decBound
  bufferBound := h.length_dbuf_le

/-- Settles O53: a reachable state has the invariant, and the invariant gives each clause of R42. -/
theorem reachableStatesMeetR42 : Obligations.ReachableStatesMeetR42 := by
  unfold Obligations.ReachableStatesMeetR42
  exact fun _ h => h.inv.runProperties

end Sys2Proof.Safety

namespace Sys2Proof.Machine

open Sys2Proof.Safety

variable {s t : State} {i : Instr}

/-! ### Which commands and steps change the error record (R24, R188) -/

/-- Recording a further error keeps CODE, SRC and INFO (R183). -/
theorem ErrorReg.record_keeps {e : ErrorReg} (he : e.code ≠ .none) (k : ErrorCode) (src : ErrorSource) (x : BitVec 16) :
    (e.record k src x).code = e.code ∧ (e.record k src x).src = e.src ∧ (e.record k src x).info = e.info := by
  simp [ErrorReg.record_of_pending he]

theorem ExecEffect.error_of_pending (h : ExecEffect s i t) (he : s.error.code ≠ .none) :
    (t.error.code = s.error.code ∧ t.error.src = s.error.src ∧ t.error.info = s.error.info) ∨
      i = .clearErr ∨ i = .clearAll := by
  cases h with
  | clearAll => exact .inr (.inr rfl)
  | clearErr => exact .inr (.inl rfl)
  | raised hclear => exact absurd hclear he
  | raisedEmptying hclear => exact absurd hclear he
  | merged => rw [mergeNext_frame]; exact .inl ⟨rfl, rfl, rfl⟩
  | builtFromEmpty _ _ hm => rw [(mergeAll_frame hm).1]; exact .inl ⟨rfl, rfl, rfl⟩
  | builtFromBuilding _ hm => rw [(mergeAll_frame hm).1]; exact .inl ⟨rfl, rfl, rfl⟩
  | _ => exact .inl ⟨rfl, rfl, rfl⟩

/-- Settles O35: a command records no second error past the gate, and an illegal word or a refused write only sets MULTI. -/
theorem recordedErrorStays : Obligations.RecordedErrorStays := by
  unfold Obligations.RecordedErrorStays
  intro s t h he
  cases step_effect h with
  | command hruns hexec =>
    obtain hkeep | rfl | rfl := hexec.error_of_pending he
    · exact .inl hkeep
    · exact .inr (.inl hruns)
    · exact .inr (.inr (.inl hruns))
  | illegal => exact .inl (ErrorReg.record_keeps he _ _ _)
  | refused => exact .inl (ErrorReg.record_keeps he _ _ _)
  | reset hmoves => exact .inr (.inr (.inr hmoves))
  | _ => exact .inl ⟨rfl, rfl, rfl⟩

/-! ### Which commands and steps change the arena (R28) -/

theorem nodes_prefix_mergeNext (tie : TieSelect) (s : State) : s.nodes <+: (mergeNext tie s).nodes := by
  rw [mergeNext, closeTree_eq]
  exact List.prefix_append _ _

/-- Seeding writes the arena, but under the invariant only while it is empty. -/
theorem ExecEffect.nodes_prefix (h : ExecEffect s i t) (hinv : Inv s) : s.nodes <+: t.nodes ∨ i = .clearAll := by
  cases h with
  | clearAll => exact .inr rfl
  | seeded hempty => rw [(hinv.emptyTree hempty).1]; exact .inl List.nil_prefix
  | merged => exact .inl (nodes_prefix_mergeNext _ _)
  | builtFromEmpty hempty => rw [(hinv.emptyTree hempty).1]; exact .inl List.nil_prefix
  | builtFromBuilding _ hm =>
    obtain ⟨-, hprefix, -⟩ := mergeAll_frame hm
    exact .inl hprefix
  | _ => exact .inl List.prefix_rfl

/-- Settles O57: commands but CLEAR_ALL only add nodes at the end, and host accesses leave the arena alone. -/
theorem allocatedNodesStay : Obligations.AllocatedNodesStay := by
  unfold Obligations.AllocatedNodesStay
  intro s t hinv h
  cases step_effect h with
  | command hruns hexec =>
    obtain hkeep | rfl := hexec.nodes_prefix hinv
    · exact .inl hkeep
    · exact .inr (.inl hruns)
  | reset hmoves => exact .inr (.inr hmoves)
  | _ => exact .inl List.prefix_rfl

/-! ### Which commands and steps change FREQ (R27) -/

theorem ExecEffect.freq_eq (h : ExecEffect s i t) : t.freq = s.freq ∨ i = .clearAll := by
  cases h with
  | clearAll => exact .inr rfl
  | merged => rw [mergeNext_frame]; exact .inl rfl
  | builtFromEmpty _ _ hm => rw [(mergeAll_frame hm).1]; exact .inl rfl
  | builtFromBuilding _ hm => rw [(mergeAll_frame hm).1]; exact .inl rfl
  | _ => exact .inl rfl

/-- Settles O58: of the commands only CLEAR_ALL writes FREQ, and of the accesses only a write in its window while EMPTY. -/
theorem freqChangesOnlyWhileEmpty : Obligations.FreqChangesOnlyWhileEmpty := by
  unfold Obligations.FreqChangesOnlyWhileEmpty
  intro s t h
  cases step_effect h with
  | command hruns hexec =>
    obtain hkeep | rfl := hexec.freq_eq
    · exact .inl hkeep
    · exact .inr (.inl hruns)
  | freqWritten hmoves hidle hregion hempty =>
    exact .inr (.inr (.inr ⟨hempty, hidle, _, _, hmoves, regionOf_freq hregion⟩))
  | reset hmoves => exact .inr (.inr (.inl hmoves))
  | _ => exact .inl rfl

/-! ### Which commands and steps change TREE_STATE (R25) -/

/-- A merge step goes on BUILDING, or ends in BUILT (R113). -/
theorem treeState_mergeNext (tie : TieSelect) (s : State) :
    (mergeNext tie s).treeState = s.treeState ∨ (mergeNext tie s).treeState = .built := by
  rw [mergeNext, closeTree_eq]
  simp only
  split
  · exact .inr rfl
  · exact .inl rfl

theorem ExecEffect.treeState_cases (h : ExecEffect s i t) :
    t.treeState = s.treeState ∨ (t.treeState = .empty ∧ i = .clearAll) ∨
      (s.treeState = .empty ∧ (i = .treeSeed ∨ i = .treeBuild)) ∨
      (s.treeState = .building ∧ t.treeState = .built ∧ (i = .treeMerge ∨ i = .treeBuild)) := by
  cases h with
  | clearAll => exact .inr (.inl ⟨rfl, rfl⟩)
  | seeded hempty => exact .inr (.inr (.inl ⟨hempty, .inl rfl⟩))
  | merged hbuilding =>
    obtain hkeep | hbuilt := treeState_mergeNext openTie s
    · exact .inl hkeep
    · exact .inr (.inr (.inr ⟨hbuilding, hbuilt, .inl rfl⟩))
  | builtFromEmpty hempty => exact .inr (.inr (.inl ⟨hempty, .inr rfl⟩))
  | builtFromBuilding hbuilding hm =>
    obtain ⟨-, -, hkeep | ⟨-, hbuilt⟩⟩ := mergeAll_frame hm
    · exact .inl hkeep
    · exact .inr (.inr (.inr ⟨hbuilding, hbuilt, .inr rfl⟩))
  | _ => exact .inl rfl

/-- Settles O59: the transitions are those of the four commands that write TREE_STATE, and of Reset. -/
theorem treeStateTransitions : Obligations.TreeStateTransitions := by
  unfold Obligations.TreeStateTransitions
  intro s t h
  cases step_effect h with
  | command hruns hexec =>
    obtain hkeep | ⟨hempty, rfl⟩ | ⟨hfrom, rfl | rfl⟩ | ⟨hfrom, hto, rfl | rfl⟩ := hexec.treeState_cases
    · exact .inl hkeep
    · exact .inr (.inl ⟨hempty, .inl hruns⟩)
    · exact .inr (.inr (.inl ⟨hfrom, .inl hruns⟩))
    · exact .inr (.inr (.inl ⟨hfrom, .inr hruns⟩))
    · exact .inr (.inr (.inr ⟨hfrom, hto, .inl hruns⟩))
    · exact .inr (.inr (.inr ⟨hfrom, hto, .inr hruns⟩))
  | reset hmoves => exact .inr (.inl ⟨rfl, .inr hmoves⟩)
  | _ => exact .inl rfl

/-! ### Which commands and steps change the code table (R26, R32) -/

theorem ExecEffect.code_eq (h : ExecEffect s i t) :
    (t.code = s.code ∧ t.maxLen = s.maxLen ∧ t.codeValid = s.codeValid) ∨ i = .codegen ∨ i = .clearAll := by
  cases h with
  | clearAll => exact .inr (.inr rfl)
  | generated => exact .inr (.inl rfl)
  | merged => rw [mergeNext_frame]; exact .inl ⟨rfl, rfl, rfl⟩
  | builtFromEmpty _ _ hm => rw [(mergeAll_frame hm).1]; exact .inl ⟨rfl, rfl, rfl⟩
  | builtFromBuilding _ hm => rw [(mergeAll_frame hm).1]; exact .inl ⟨rfl, rfl, rfl⟩
  | _ => exact .inl ⟨rfl, rfl, rfl⟩

/-- Settles O60: of the commands only CODEGEN and CLEAR_ALL write the table, and no host access does. -/
theorem onlyCodegenWritesCode : Obligations.OnlyCodegenWritesCode := by
  unfold Obligations.OnlyCodegenWritesCode
  intro s t h
  cases step_effect h with
  | command hruns hexec =>
    obtain hkeep | rfl | rfl := hexec.code_eq
    · exact .inl hkeep
    · exact .inr (.inl hruns)
    · exact .inr (.inr (.inl hruns))
  | reset hmoves => exact .inr (.inr (.inr hmoves))
  | _ => exact .inl ⟨rfl, rfl, rfl⟩

end Sys2Proof.Machine
end

section
/-! PROOFS. The statements of 20_memory.md: the side effects of a read (R59), the bus byte order (R51), refused accesses
(R50), the host's move (R62) and accesses while a command is in flight (R66). -/

namespace Sys2Proof

/-! ### The bus byte order (R51) -/

/-- The four bytes of a word, put together again, are the word. -/
theorem wordOfBusBytes_busBytes (w : Word) : wordOfBusBytes (busBytes w) = some w := by
  have hjoin : w.extractLsb' 24 8 ++ w.extractLsb' 16 8 ++ w.extractLsb' 8 8 ++ w.extractLsb' 0 8 = w := by
    rw [BitVec.extractLsb'_append_extractLsb'_eq_extractLsb' (start₁ := 16) (len₁ := 8) rfl,
      BitVec.extractLsb'_append_extractLsb'_eq_extractLsb' (start₁ := 8) (len₁ := 8) rfl,
      BitVec.extractLsb'_append_extractLsb'_eq_extractLsb' (start₁ := 0) (len₁ := 8) rfl]
    exact BitVec.extractLsb'_eq_self
  simp only [busBytes, wordOfBusBytes, hjoin]

/-- Bus byte `k` carries the eight bits from bit `8 * k` up. -/
theorem busBytes_getElem? (w : Word) {k : Nat} (hk : k < 4) : (busBytes w)[k]? = some (w.extractLsb' (8 * k) 8) := by
  match k, hk with
  | 0, _ | 1, _ | 2, _ | 3, _ => rfl

/-- Settles O49: the byte at offset `k` is the word's bits from `8 * k` up, and the bytes join to the word. -/
theorem busBytesAreLittleEndian : Obligations.BusBytesAreLittleEndian := by
  unfold Obligations.BusBytesAreLittleEndian
  refine fun w => ⟨wordOfBusBytes_busBytes w, fun k hk => ?_⟩
  rw [busBytes_getElem? w hk, Option.map_some, BitVec.extractLsb'_toNat, Nat.shiftRight_eq_div_pow]

end Sys2Proof

namespace Sys2Proof.Machine

open Sys2Proof.Safety

variable {s : State} {off : Offset}

/-! ### The offset of a plain register (R52) -/

/-- No word of a window is a plain register, and a reserved word is none either. -/
theorem window_ne_plainRegister {n : Nat} (hn : n < 15) :
    (∀ j, .decBufBits j ≠ plainRegister n) ∧ (∀ c, .freq c ≠ plainRegister n) ∧ (∀ i k, .node i k ≠ plainRegister n) ∧
      (∀ c k, .code c k ≠ plainRegister n) ∧ .reserved ≠ plainRegister n := by
  interval_cases n <;> simp [plainRegister]

/-- The fifteen plain registers are distinct, and word 15 is none of them. -/
theorem plainRegister_inj {m n : Nat} (hm : m < 16) (hn : n < 15) (h : plainRegister m = plainRegister n) : m = n := by
  have hall : ∀ m < 16, ∀ n < 15, plainRegister m = plainRegister n → m = n := by decide
  exact hall m hm n hn h

theorem regionOf_of_lt (h : off.toNat < 0x0040) : regionOf off = plainRegister (off.toNat / 4) := by
  simp [regionOf, h]

/-- From 0x0040 up there is no plain register. -/
theorem lt_of_regionOf_eq_plainRegister {n : Nat} (hn : n < 15) (h : regionOf off = plainRegister n) :
    off.toNat < 0x0040 := by
  obtain ⟨hbuf, hfreq, hnode, hcode, hres⟩ := window_ne_plainRegister hn
  by_contra hoff
  revert h
  simp only [regionOf, hoff, if_false]
  split_ifs <;> simp [hbuf, hfreq, hnode, hcode, hres]

/-- Among the multiples of 4, plain register `n` is exactly the word at offset `4 * n`. -/
theorem regionOf_eq_plainRegister_iff (ha : off.toNat % 4 = 0) {n : Nat} (hn : n < 15) :
    regionOf off = plainRegister n ↔ off = BitVec.ofNat 16 (4 * n) := by
  have hmod : 4 * n % 2 ^ 16 = 4 * n := Nat.mod_eq_of_lt (by omega)
  rw [← BitVec.toNat_inj, BitVec.toNat_ofNat, hmod]
  constructor
  · intro h
    have hlt := lt_of_regionOf_eq_plainRegister hn h
    rw [regionOf_of_lt hlt] at h
    have hword := plainRegister_inj (by omega) hn h
    omega
  · intro h
    rw [regionOf_of_lt (by omega), h, Nat.mul_div_cancel_left n (by decide)]

/-! ### What a read leaves unchanged (R59) -/

/-- Only a read of ENC_OUT_DATA takes bits from ENCQ. -/
theorem readIdle_encq {r : Region} (h : r ≠ .encOutData) (s : State) : (readIdle r s).2.encq = s.encq := by
  cases r with
  | encOutData => exact absurd rfl h
  | decOutData => simp only [readIdle, readDecOutData]; split <;> rfl
  | node => simp only [readIdle, readNode]; split <;> rfl
  | _ => rfl

/-- Only a read of DEC_OUT_DATA takes a symbol from DECQ. -/
theorem readIdle_decq {r : Region} (h : r ≠ .decOutData) (s : State) : (readIdle r s).2.decq = s.decq := by
  cases r with
  | decOutData => exact absurd rfl h
  | node => simp only [readIdle, readNode]; split <;> rfl
  | _ => rfl

theorem memRead_of_idle (hb : s.busy = false) (off : Offset) : memRead off s = readIdle (regionOf off) s := by
  simp [memRead, hb]

/-- Settles O48: a read is its frame, and only the two data registers, each at its one offset, take from a FIFO. -/
theorem readSideEffects : Obligations.ReadSideEffects := by
  unfold Obligations.ReadSideEffects
  intro s off hb ha
  have henc : regionOf off = .encOutData → off = 0x002C := (regionOf_eq_plainRegister_iff ha (n := 11) (by decide)).1
  have hdec : regionOf off = .decOutData → off = 0x0034 := (regionOf_eq_plainRegister_iff ha (n := 13) (by decide)).1
  rw [memRead_of_idle hb]
  exact ⟨_, _, _, readIdle_frame _ s, fun h => readIdle_encq (mt henc h) s, fun h => readIdle_decq (mt hdec h) s⟩

/-! ### Accesses while a command is in flight (R66) -/

/-- A register whose read BUSY does not change reads the same in every state. -/
theorem memRead_of_readBusy_eq {w : Word} (hidle : readIdle (regionOf off) s = (w, s))
    (hbusy : readBusy (regionOf off) s = readIdle (regionOf off) s) : memRead off s = (w, s) := by
  rw [memRead, hbusy, ite_self, hidle]

theorem memRead_id (s : State) : memRead 0x0000 s = (Config.idWord, s) := memRead_of_readBusy_eq rfl rfl

theorem memRead_params (s : State) : memRead 0x0004 s = (paramsWord, s) := memRead_of_readBusy_eq rfl rfl

theorem memRead_status (s : State) : memRead 0x000C s = (statusWord s, s) := memRead_of_readBusy_eq rfl rfl

theorem memRead_error (s : State) : memRead 0x0010 s = (errorWord s.error, s) := memRead_of_readBusy_eq rfl rfl

/-- Every register but the four that read as ever draws an unspecified value while BUSY = 1. -/
theorem readBusy_of_ne {r : Region} (hid : r ≠ .id) (hparams : r ≠ .params) (hstatus : r ≠ .status)
    (herror : r ≠ .error) (s : State) : readBusy r s = drawWord s := by
  cases r with
  | id => exact absurd rfl hid
  | params => exact absurd rfl hparams
  | status => exact absurd rfl hstatus
  | error => exact absurd rfl herror
  | _ => rfl

theorem memRead_of_busy (hb : s.busy = true) (off : Offset) : memRead off s = readBusy (regionOf off) s := by
  simp [memRead, hb]

theorem memWrite_of_busy (hb : s.busy = true) (off : Offset) (v : Word) :
    memWrite off v s = recordAccessError .busyErr off s := by
  simp [memWrite, hb]

/-- Settles O41: the four registers read as in every state, and the offset of any other region is none of theirs. -/
theorem accessesWhileBusy : Obligations.AccessesWhileBusy := by
  unfold Obligations.AccessesWhileBusy
  intro s off v hb ha
  have hplain {n : Nat} (hn : n < 15) := (regionOf_eq_plainRegister_iff ha hn).1
  refine ⟨?_, ?_, ?_, ?_, fun hid hparams hstatus herror => ?_, memWrite_of_busy hb off v⟩
  · rintro rfl; exact memRead_id s
  · rintro rfl; exact memRead_params s
  · rintro rfl; exact memRead_status s
  · rintro rfl; exact memRead_error s
  · rw [memRead_of_busy hb]
    exact readBusy_of_ne (mt (hplain (n := 0) (by decide)) hid) (mt (hplain (n := 1) (by decide)) hparams)
      (mt (hplain (n := 3) (by decide)) hstatus) (mt (hplain (n := 4) (by decide)) herror) s

/-! ### The host's move (R50, R62) -/

/-- An access has a meaning when it is 32 bits wide and at a multiple of 4. -/
theorem access_iff (width : Nat) (off : Offset) :
    WellFormed.access width off = true ↔ width = 32 ∧ off.toNat % 4 = 0 := by
  simp [WellFormed.access]

theorem access_eq_false {width : Nat} (h : width ≠ 32 ∨ off.toNat % 4 ≠ 0) : WellFormed.access width off = false := by
  rw [← Bool.not_eq_true, access_iff]
  tauto

/-- An action that is a bad access is refused before it touches the state. -/
theorem hostStep_of_not_actionOk {a : HostAction} (h : actionOk a = false) (s : State) :
    hostStep a s = .refused .badAccess := by
  cases a with
  | read width off => rw [actionOk] at h; simp [hostStep, h]
  | write width off v => rw [actionOk] at h; simp [hostStep, h]
  | _ => cases h

/-- At the host's move a bad access ends the run. -/
theorem step_of_not_actionOk {a : HostAction} (hmoves : hostMoves s a) (h : actionOk a = false) :
    step s = .refused .badAccess := by
  obtain ⟨hturn, hhead⟩ := hmoves
  obtain ⟨rest, hhost⟩ := List.head?_eq_some_iff.1 hhead
  rw [step_of_host hturn hhost, hostStep_of_not_actionOk h]

/-- Settles O37: a read or a write of a bad width or alignment is a bad access. -/
theorem badAccessIsRefused : Obligations.BadAccessIsRefused := by
  unfold Obligations.BadAccessIsRefused
  intro s width off v hbad
  have haccess : WellFormed.access width off = false := access_eq_false hbad
  exact ⟨fun hmoves => step_of_not_actionOk hmoves haccess, fun hmoves => step_of_not_actionOk hmoves haccess⟩

/-- The value of a host's read joins the values its reads returned: the access itself leaves them alone. -/
theorem hostRead_eq (off : Offset) (s : State) :
    hostRead off s = ((memRead off s).1, { (memRead off s).2 with reads := s.reads ++ [(memRead off s).1] }) := by
  have hreads : (memRead off s).2.reads = s.reads := by rw [memRead_frame]
  simp only [hostRead, hreads]

/-- BUSY is bit 0 of STATUS (R23). -/
theorem statusWord_getLsbD_zero (s : State) : (statusWord s).getLsbD 0 = s.busy := by
  rw [statusWord, BitVec.getLsbD_append]
  simp

/-- WAIT reads STATUS and stays the next action while BUSY reads 1 (R91). -/
theorem hostStep_wait (s : State) :
    hostStep .wait s =
      .next { s with host := if s.busy then .wait :: s.host else s.host, reads := s.reads ++ [statusWord s] } := by
  have hread : hostRead offStatus s = (statusWord s, { s with reads := s.reads ++ [statusWord s] }) := by
    rw [hostRead_eq, offStatus, memRead_status]
  simp only [hostStep, hread, statusWord_getLsbD_zero, repeatIf, pushHost]
  split <;> rfl

/-- Settles O38: the next action is taken off the program, and then the access is made. -/
theorem stepPerformsAccess : Obligations.StepPerformsAccess := by
  unfold Obligations.StepPerformsAccess
  intro s off v rest hturn ha
  have haccess : WellFormed.access 32 off = true := (access_iff 32 off).2 ⟨rfl, ha⟩
  refine ⟨fun hhost => ⟨takeAction rest s, rfl, ?_⟩, fun hhost => ?_, fun hhost => ?_⟩
  · rw [step_of_host hturn hhost, hostStep, if_pos haccess, hostRead_eq]
    rfl
  · rw [step_of_host hturn hhost, hostStep, if_pos haccess]
    rfl
  · rw [step_of_host hturn hhost, hostStep_wait]
    rfl

end Sys2Proof.Machine
end

section
/-! PROOFS. The statements of 30_encoding.md: decoding and encoding (R80 to R85), the opcode map (R85), illegal words (R87),
the engine's step (R86) and the drains of the host's programs (R91). -/

namespace Sys2Proof

/-! ### The fields of a word (R80 to R83) -/

/-- A word of format N is its upper bits over its opcode. -/
theorem append_formN_fields (w : Word) : w.extractLsb' 8 24 ++ opField w = w :=
  (BitVec.extractLsb'_append_extractLsb'_eq_extractLsb' (start₁ := 0) rfl).trans BitVec.extractLsb'_eq_self

/-- A word of format S is its upper bits over its symbol over its opcode. -/
theorem append_formS_fields (w : Word) : w.extractLsb' 16 16 ++ symField w ++ opField w = w := by
  rw [symField, BitVec.extractLsb'_append_extractLsb'_eq_extractLsb' (start₁ := 8) (len₁ := 8) rfl]
  exact append_formN_fields w

theorem ofBool_bitField (w : Word) : BitVec.ofBool (bitField w) = w.extractLsb' 8 1 := by
  ext k hk
  simp [bitField, BitVec.getElem_extractLsb', Nat.lt_one_iff.1 hk]

/-- A word of format B is its upper bits over its bit over its opcode. -/
theorem append_formB_fields (w : Word) : w.extractLsb' 9 23 ++ BitVec.ofBool (bitField w) ++ opField w = w := by
  rw [ofBool_bitField, BitVec.extractLsb'_append_extractLsb'_eq_extractLsb' (start₁ := 8) (len₁ := 1) rfl]
  exact append_formN_fields w

/-- The opcode is the low byte, whatever stands above it. -/
theorem opField_append (high : BitVec 24) (op : BitVec 8) : opField (high ++ op) = op :=
  BitVec.extractLsb'_append_eq_right

/-- A word of format S with clear reserved bits names its symbol. -/
theorem formS_append (sym : Symbol) (op : BitVec 8) (f : Symbol → Instr) : formS (0#16 ++ sym ++ op) f = .ok (f sym) := by
  have hreserved : (0#16 ++ sym ++ op).extractLsb' 16 16 = 0#16 :=
    (BitVec.extractLsb'_append_eq_of_le (by decide)).trans BitVec.extractLsb'_append_eq_left
  have hsym : symField (0#16 ++ sym ++ op) = sym :=
    (BitVec.extractLsb'_append_eq_of_le (by decide)).trans BitVec.extractLsb'_append_eq_right
  rw [formS, if_pos hreserved, hsym]

/-! ### Decoding and encoding (R81 to R85) -/

theorem encode_encSym (sym : Symbol) : encode (.encSym sym) = 0#16 ++ sym ++ 0x30#8 := by
  have hsym : sym.toNat % 2 ^ 32 = sym.toNat := Nat.mod_eq_of_lt (by omega)
  have hfits : sym.toNat <<< 8 % 2 ^ 32 = sym.toNat <<< 8 := Nat.mod_eq_of_lt (by omega)
  apply BitVec.eq_of_toNat_eq
  calc (encode (.encSym sym)).toNat
      = 0x30 ||| sym.toNat <<< 8 := by
        rw [encode, BitVec.toNat_or, BitVec.toNat_shiftLeft, BitVec.toNat_setWidth, hsym, hfits]; rfl
    _ = (0#16 ++ sym ++ 0x30#8).toNat := by
        rw [BitVec.toNat_append, BitVec.toNat_append, Nat.or_comm]; simp

theorem encode_decBit (bit : Bool) : encode (.decBit bit) = 0#23 ++ BitVec.ofBool bit ++ 0x40#8 := by
  cases bit <;> rfl

/-- The decoder takes the word of a command apart again. -/
theorem decode_encode (i : Instr) : decode (encode i) = .ok i := by
  cases i with
  | encSym sym =>
    rw [encode_encSym, decode, opField_append (0#16 ++ sym)]
    exact formS_append sym _ _
  | decBit bit => cases bit <;> rfl
  | _ => rfl

variable {w : Word} {i j : Instr} {op : Nat}

theorem opField_eq_of_toNat (hop : (opField w).toNat = op) : opField w = BitVec.ofNat 8 op := by
  rw [← hop, BitVec.ofNat_toNat, BitVec.setWidth_eq]

/-- A word read in format N is the word of the command whose opcode it carries. -/
theorem encode_of_formN (hop : (opField w).toNat = op) (hi : encode i = 0#24 ++ BitVec.ofNat 8 op)
    (h : formN w i = .ok j) : encode j = w := by
  rw [formN] at h
  split at h
  next hreserved =>
    cases h
    rw [hi, ← opField_eq_of_toNat hop, ← hreserved]
    exact append_formN_fields w
  next => cases h

theorem encode_of_formS (hop : (opField w).toNat = 0x30) (h : formS w .encSym = .ok j) : encode j = w := by
  rw [formS] at h
  split at h
  next hreserved =>
    cases h
    rw [encode_encSym, ← opField_eq_of_toNat hop, ← hreserved]
    exact append_formS_fields w
  next => cases h

theorem encode_of_formB (hop : (opField w).toNat = 0x40) (h : formB w .decBit = .ok j) : encode j = w := by
  rw [formB] at h
  split at h
  next hreserved =>
    cases h
    rw [encode_decBit, ← opField_eq_of_toNat hop, ← hreserved]
    exact append_formB_fields w
  next => cases h

/-- The opcode fixes the format, and the format's reserved bits are 0 in a word that decodes. -/
theorem encode_of_decode (h : decode w = .ok i) : encode i = w := by
  unfold decode at h
  split at h
  case h_8 hop => exact encode_of_formS hop h
  case h_9 hop => exact encode_of_formB hop h
  case h_11 => cases h
  all_goals exact encode_of_formN ‹_› rfl h

/-- Settles O1: no operand is out of its field's range, so well-formedness asks nothing more. -/
theorem decodeAfterEncode : Obligations.DecodeAfterEncode := by
  unfold Obligations.DecodeAfterEncode
  exact fun i _ => decode_encode i

/-- Settles O2: a word that decodes is its fields joined, and so is the word of the command. -/
theorem encodeAfterDecode : Obligations.EncodeAfterDecode := by
  unfold Obligations.EncodeAfterDecode
  exact fun _ _ => encode_of_decode

/-- Settles O5: the legal words are the words of their commands, and the others are decoded as they stand. -/
theorem specWordsDecode : Obligations.SpecWordsDecode := by
  unfold Obligations.SpecWordsDecode
  exact ⟨decode_encode .nop, decode_encode .clearAll, decode_encode .clearErr, decode_encode .treeSeed,
    decode_encode .treeMerge, decode_encode .treeBuild, decode_encode .codegen, decode_encode (.encSym 0x61),
    decode_encode (.decBit true), decode_encode (.decBit false), decode_encode .decEnd, rfl, rfl, rfl, rfl⟩

/-! ### The opcode map (R85) -/

/-- The rows' names are distinct. -/
theorem mnemonic_injective_opcodeMap : ∀ r ∈ opcodeMap, ∀ r' ∈ opcodeMap, r.mnemonic = r'.mnemonic → r = r' := by decide

/-- Where the mask of a row has only ones, a word that selects the row has the row's bits. -/
theorem extract_of_selects {mask pattern : Word} {start len : Nat} (h : w &&& mask = pattern)
    (hones : mask.extractLsb' start len = BitVec.allOnes len) :
    w.extractLsb' start len = pattern.extractLsb' start len := by
  rw [← h, BitVec.extractLsb'_and, hones, BitVec.and_allOnes]

/-- Every command's word selects a row of the opcode map under the command's name. -/
theorem statement_encoding (i : Instr) : Laws.Encoding.Statement i := by
  cases i with
  | nop => exact Laws.Encoding.nop
  | clearAll => exact Laws.Encoding.clearAll
  | clearErr => exact Laws.Encoding.clearErr
  | treeSeed => exact Laws.Encoding.treeSeed
  | treeMerge => exact Laws.Encoding.treeMerge
  | treeBuild => exact Laws.Encoding.treeBuild
  | codegen => exact Laws.Encoding.codegen
  | encSym sym => exact Laws.Encoding.encSym sym
  | decBit bit => exact Laws.Encoding.decBit bit
  | decEnd => exact Laws.Encoding.decEnd

/-- The rows by format: in format N the mask is the whole word, and the row's own word names the row. -/
theorem opcodeMap_formats : ∀ r ∈ opcodeMap,
    (r.mask = BitVec.allOnes 32 ∧ (decode r.pattern).map mnemonicOf = .ok r.mnemonic) ∨
      r = ⟨"ENC_SYM", 0x00000030, 0xFFFF00FF⟩ ∨ r = ⟨"DEC_BIT", 0x00000040, 0xFFFFFEFF⟩ := by decide

/-- A word that selects a row decodes to the row's command: its opcode and its reserved bits are the row's. -/
theorem decode_of_selects {r : OpcodeRow} (hr : r ∈ opcodeMap) (h : w &&& r.mask = r.pattern) :
    ∃ i, decode w = .ok i ∧ mnemonicOf i = r.mnemonic := by
  obtain ⟨hmask, hpattern⟩ | rfl | rfl := opcodeMap_formats r hr
  · have hw : w = r.pattern := by rw [← h, hmask, BitVec.and_allOnes]
    rw [← hw] at hpattern
    cases hd : decode w with
    | ok i => exact ⟨i, rfl, by simpa [hd, Except.map] using hpattern⟩
    | error e => simp [hd, Except.map] at hpattern
  · have hop : opField w = 0x30#8 := extract_of_selects h (by decide)
    have hreserved : w.extractLsb' 16 16 = 0#16 := extract_of_selects h (by decide)
    exact ⟨.encSym (symField w), by simp [decode, hop, formS, hreserved], rfl⟩
  · have hop : opField w = 0x40#8 := extract_of_selects h (by decide)
    have hreserved : w.extractLsb' 9 23 = 0#23 := extract_of_selects h (by decide)
    exact ⟨.decBit (bitField w), by simp [decode, hop, formB, hreserved], rfl⟩

/-- A word that decodes selects the row of its command. -/
theorem exists_row_of_decode (h : decode w = .ok i) :
    ∃ r ∈ opcodeMap, r.mnemonic = mnemonicOf i ∧ w &&& r.mask = r.pattern := by
  obtain ⟨-, -, r, hr, hname, hselects⟩ := statement_encoding i
  rw [encode_of_decode h] at hselects
  exact ⟨r, hr, hname, eq_of_beq hselects⟩

/-- A word that selects no row is illegal (R87). -/
theorem decode_error_of_selects_none (h : ∀ r ∈ opcodeMap, w &&& r.mask ≠ r.pattern) :
    ∃ e, decode w = .error e := by
  cases hd : decode w with
  | error e => exact ⟨e, rfl⟩
  | ok i =>
    obtain ⟨r, hr, -, hselects⟩ := exists_row_of_decode hd
    exact absurd hselects (h r hr)

/-- A row is selected exactly by the words of its command (R85). -/
theorem selects_iff_decode {r : OpcodeRow} (hr : r ∈ opcodeMap) :
    w &&& r.mask = r.pattern ↔ ∃ i, decode w = .ok i ∧ mnemonicOf i = r.mnemonic := by
  refine ⟨decode_of_selects hr, fun ⟨i, hi, hname⟩ => ?_⟩
  obtain ⟨r', hr', hname', hselects⟩ := exists_row_of_decode hi
  rwa [mnemonic_injective_opcodeMap r hr r' hr' (hname.symm.trans hname'.symm)]

/-- Settles O3: two rows that a word selects carry the name of the one command it decodes to. -/
theorem wordSelectsOneRow : Obligations.WordSelectsOneRow := by
  unfold Obligations.WordSelectsOneRow
  refine fun w r hr => ⟨selects_iff_decode hr, fun r' hr' h h' => ?_⟩
  obtain ⟨i, hi, hname⟩ := (selects_iff_decode hr).1 h
  obtain ⟨j, hj, hname'⟩ := (selects_iff_decode hr').1 h'
  have hij : i = j := Except.ok.inj (hi.symm.trans hj)
  exact mnemonic_injective_opcodeMap r hr r' hr' (by rw [← hname, ← hname', hij])

end Sys2Proof

namespace Sys2Proof.Machine

variable {s : State}

/-! ### The engine's step (R86, R87) -/

/-- The engine's step on a legal word is its command, and then BUSY <- 0. -/
theorem step_of_decode_ok {i : Instr} (hturn : engineTurn s = true) (hi : decode s.latch = .ok i) :
    step s = andThen (exec i s) fun t => .next (finishCommand t) := by
  rw [step_of_engine hturn, engineStep, executeWord, hi]

/-- The engine's step on an illegal word records ILLEGAL_COMMAND, and then BUSY <- 0. -/
theorem step_of_decode_error {e : DecodeError} (hturn : engineTurn s = true) (he : decode s.latch = .error e) :
    step s = .next (finishCommand (recordCommandError .illegalCommand s)) := by
  rw [step_of_engine hturn, engineStep, executeWord, he]
  rfl

theorem engineTurn_iff : engineTurn s = true ↔ s.busy = true ∧ (s.delay = 0 ∨ s.host = []) := by
  simp [engineTurn]

/-- Settles O4: a word that selects no row does not decode. -/
theorem illegalWordIsRecorded : Obligations.IllegalWordIsRecorded := by
  unfold Obligations.IllegalWordIsRecorded
  intro s hturn hnone
  obtain ⟨e, he⟩ := decode_error_of_selects_none hnone
  rw [step_of_decode_error hturn he, ← BitVec.setWidth_eq_extractLsb' (by decide)]
  rfl

/-- Settles O6: it is the engine's turn, and the latched word is its command. -/
theorem stepRunsLatchedCommand : Obligations.StepRunsLatchedCommand := by
  unfold Obligations.StepRunsLatchedCommand
  intro s i hbusy hdue hi
  rw [step_of_decode_ok (engineTurn_iff.2 ⟨hbusy, hdue⟩) hi]
  cases exec i s <;> rfl

/-! ### The drains (R91) -/

theorem engineTurn_of_idle (hb : s.busy = false) : engineTurn s = false := by simp [engineTurn, hb]

theorem memRead_encOutCount (hb : s.busy = false) : memRead 0x0028 s = (BitVec.ofNat 32 s.encq.length, s) :=
  memRead_of_idle hb _

theorem memRead_encOutData (hb : s.busy = false) :
    memRead 0x002C s = (packMsb (s.encq.take 32), popEnc 32 s) := by
  have hpop : popEnc (min 32 s.encq.length) s = popEnc 32 s := by rw [popEnc, ← List.drop_eq_drop_min, popEnc]
  rw [← hpop]
  exact memRead_of_idle hb _

theorem memRead_decOutCount (hb : s.busy = false) : memRead 0x0030 s = (BitVec.ofNat 32 s.decq.length, s) :=
  memRead_of_idle hb _

/-- A read of DEC_OUT_DATA pops DECQ, which an empty DECQ does not notice. -/
theorem readDecOutData_state (s : State) : (readDecOutData s).2 = popDec s := by
  rw [readDecOutData]
  split
  next hempty => rw [popDec, hempty, List.drop_nil, ← hempty]
  next => rfl

theorem memRead_decOutData (hb : s.busy = false) : memRead 0x0034 s = readDecOutData s :=
  memRead_of_idle hb _

/-- A drain goes on with what is left to take, if anything is. -/
theorem repeatIf_ne_zero (n : Nat) (a : HostAction) (s : State) :
    repeatIf (n != 0) a s = { s with host := if n = 0 then s.host else a :: s.host } := by
  cases n <;> rfl

/-- DRAIN_ENC reads its count, and takes its bits if there are any (R91). -/
theorem hostStep_drainEnc (hb : s.busy = false) (hlen : s.encq.length < 2 ^ 32) :
    hostStep .drainEnc s =
      .next
        { s with
          host := if s.encq = [] then s.host else .drainEncBits s.encq.length :: s.host
          reads := s.reads ++ [BitVec.ofNat 32 s.encq.length] } := by
  simp only [hostStep, hostRead_eq, offEncOutCount, memRead_encOutCount hb, BitVec.toNat_ofNat, Nat.mod_eq_of_lt hlen,
    repeatIf_ne_zero, List.length_eq_zero_iff]

/-- DRAIN_ENC takes up to 32 bits in a read (R170). -/
theorem hostStep_drainEncBits (hb : s.busy = false) (c : Nat) :
    hostStep (.drainEncBits c) s =
      .next
        { s with
          encq := s.encq.drop 32
          host := if c ≤ 32 then s.host else .drainEncBits (c - 32) :: s.host
          reads := s.reads ++ [(memRead 0x002C s).1] } := by
  have hleft : c - min 32 c = c - 32 := by omega
  simp only [hostStep, hostRead_eq, offEncOutData, memRead_encOutData hb, hleft, repeatIf_ne_zero, Nat.sub_eq_zero_iff_le,
    popEnc]

/-- DRAIN_DEC reads its count, and makes its reads if there are any (R91). -/
theorem hostStep_drainDec (hb : s.busy = false) (hlen : s.decq.length < 2 ^ 32) :
    hostStep .drainDec s =
      .next
        { s with
          host := if s.decq = [] then s.host else .drainDecSyms s.decq.length :: s.host
          reads := s.reads ++ [BitVec.ofNat 32 s.decq.length] } := by
  simp only [hostStep, hostRead_eq, offDecOutCount, memRead_decOutCount hb, BitVec.toNat_ofNat, Nat.mod_eq_of_lt hlen,
    repeatIf_ne_zero, List.length_eq_zero_iff]

/-- DRAIN_DEC takes one symbol in a read (R172). -/
theorem hostStep_drainDecSyms (hb : s.busy = false) (c : Nat) :
    hostStep (.drainDecSyms c) s =
      .next
        { s with
          decq := s.decq.drop 1
          host := if c ≤ 1 then s.host else .drainDecSyms (c - 1) :: s.host
          reads := s.reads ++ [(memRead 0x0034 s).1] } := by
  simp only [hostStep, hostRead_eq, offDecOutData, memRead_decOutData hb, readDecOutData_state, repeatIf_ne_zero,
    Nat.sub_eq_zero_iff_le, popDec]

/-- The value of a read does not depend on the host's program. -/
theorem memRead_takeAction (rest : List HostAction) (off : Offset) (s : State) :
    (memRead off (takeAction rest s)).1 = (memRead off s).1 := by
  have hidle (r : Region) : (readIdle r (takeAction rest s)).1 = (readIdle r s).1 := by
    cases r with
    | decOutData => simp only [readIdle, readDecOutData, takeAction_decq]; split <;> rfl
    | node i k => simp only [readIdle, readNode, takeAction_nodes]; split <;> rfl
    | _ => rfl
  have hbusy (r : Region) : (readBusy r (takeAction rest s)).1 = (readBusy r s).1 := by cases r <;> rfl
  rw [memRead, memRead, takeAction_busy, apply_ite Prod.fst, apply_ite Prod.fst, hidle, hbusy]

/-- Settles O39: the host moves, and each action is its one read and what it leaves to do. -/
theorem drainsReadTheirCount : Obligations.DrainsReadTheirCount := by
  unfold Obligations.DrainsReadTheirCount
  intro s c rest hb henc hdec
  have hturn : engineTurn s = false := engineTurn_of_idle hb
  have htaken : (takeAction rest s).busy = false := hb
  refine ⟨fun hhost => ?_, fun hhost => ?_, fun hhost => ?_, fun hhost => ?_⟩
  · rw [step_of_host hturn hhost, hostStep_drainEnc htaken (henc.trans_lt (by decide))]
    rfl
  · rw [step_of_host hturn hhost, hostStep_drainEncBits htaken, memRead_takeAction]
    rfl
  · rw [step_of_host hturn hhost, hostStep_drainDec htaken (hdec.trans_lt (by decide))]
    rfl
  · rw [step_of_host hturn hhost, hostStep_drainDecSyms htaken, memRead_takeAction]
    rfl

end Sys2Proof.Machine
end

section
/-! PROOFS. The statements of 40_control.md: NOP, CLEAR_ALL and CLEAR_ERR (R100 to R102). -/

namespace Sys2Proof

/-- A word is 0 only when each of its fields is 0. -/
theorem eq_zero_of_append_eq_zero {v w : Nat} {x : BitVec v} {y : BitVec w} (h : x ++ y = 0#(v + w)) :
    x = 0#v ∧ y = 0#w := by
  constructor
  · rw [← BitVec.extractLsb'_append_eq_left (a := x) (b := y), h, BitVec.extractLsb'_zero]
  · rw [← BitVec.extractLsb'_append_eq_right (a := x) (b := y), h, BitVec.extractLsb'_zero]

end Sys2Proof

namespace Sys2Proof.Machine

variable {s : State}

/-! ### The ERROR word (R24) -/

/-- Only NONE has the number 0 (R180). -/
theorem ErrorCode.eq_none_of_number_eq_zero {c : ErrorCode} (h : c.number = 0) : c = .none := by
  cases c with
  | none => rfl
  | _ => exact absurd h (by decide)

theorem ErrorSource.eq_command_of_bit_eq_zero {src : ErrorSource} (h : src.bit = 0) : src = .command := by
  cases src with
  | command => rfl
  | access => exact absurd h (by decide)

/-- ERROR reads 0 only when it is clear: no field is hidden from the word. -/
theorem eq_clear_of_errorWord_eq_zero {e : ErrorReg} (h : errorWord e = 0) : e = ErrorReg.clear := by
  obtain ⟨h, hcode⟩ := eq_zero_of_append_eq_zero h
  obtain ⟨h, hmulti⟩ := eq_zero_of_append_eq_zero h
  obtain ⟨h, hsrc⟩ := eq_zero_of_append_eq_zero h
  obtain ⟨hinfo, -⟩ := eq_zero_of_append_eq_zero h
  have hmulti : e.multi = false := BitVec.ofBool_eq_iff_eq.1 hmulti
  obtain ⟨code, multi, src, info⟩ := e
  rw [ErrorReg.clear, ErrorReg.mk.injEq]
  exact ⟨ErrorCode.eq_none_of_number_eq_zero hcode, hmulti, ErrorSource.eq_command_of_bit_eq_zero hsrc, hinfo⟩

/-! ### The control commands (R100 to R102) -/

theorem exec_nop (s : State) : exec .nop s = .next s := rfl

theorem exec_clearAll (s : State) : exec .clearAll s = .next (clearUnits s) := rfl

theorem exec_clearErr (s : State) : exec .clearErr s = .next (clearError s) := rfl

/-- CLEAR_ALL's assignments leave the reset state, but for the fields that R101 does not name. -/
theorem clearUnits_eq_reset (s : State) :
    clearUnits s =
      { State.reset with
        busy := s.busy, latch := s.latch, host := s.host, reads := s.reads, delay := s.delay, draws := s.draws,
        ties := s.ties } := rfl

/-- With ERROR clear there is nothing to clear. -/
theorem clearError_of_clear (h : s.error = ErrorReg.clear) : clearError s = s := by rw [clearError, ← h]

/-- Settles O7: NOP passes the error gate and has no assignments. -/
theorem nopChangesNothing : Obligations.NopChangesNothing := by
  unfold Obligations.NopChangesNothing
  exact exec_nop

/-- Settles O8: CLEAR_ALL passes the error gate and assigns every unit its reset value. -/
theorem clearAllResetsUnits : Obligations.ClearAllResetsUnits := by
  unfold Obligations.ClearAllResetsUnits
  intro s
  rw [exec_clearAll, clearUnits_eq_reset]

/-- Settles O9: CLEAR_ERR passes the error gate and clears ERROR, which is clear already when it reads 0. -/
theorem clearErrClearsError : Obligations.ClearErrClearsError := by
  unfold Obligations.ClearErrClearsError
  refine fun s => ⟨exec_clearErr s, fun hzero => ?_⟩
  rw [exec_clearErr, clearError_of_clear (eq_clear_of_errorWord_eq_zero hzero)]

end Sys2Proof.Machine
end

section
/-! PROOFS. The statements of 41_tree_builder.md about the commands and the arena: TREE_SEED, TREE_MERGE and TREE_BUILD
(R110 to R116), exact weights (R114) and the shape of the built tree (R117). -/

namespace Sys2Proof.Machine

open Sys2Proof.Safety

/-! ### TREE_SEED (R110) -/

/-- In a canonical store some entry is listed when some symbol is present. -/
theorem present_ne_nil {s : State} (hwf : Memory.wf s.freq = true) (h : ∃ c, freqAt s c ≠ 0) : present s.freq ≠ [] := by
  obtain ⟨c, hc⟩ := h
  obtain ⟨v, hv⟩ := (freqAt_ne_zero_of_wf hwf).1 hc
  rw [present_of_wf hwf]
  exact List.ne_nil_of_mem hv

theorem seedThen_of_present {s : State} (h : present s.freq ≠ []) (run : State → Answer) :
    seedThen s run = run (seedNext s) := if_neg h

/-- A listed entry is what FREQ reads at its symbol. -/
theorem freqAt_of_mem {s : State} (hwf : Memory.wf s.freq = true) {e : Symbol × Word} (he : e ∈ s.freq) :
    freqAt s e.1 = e.2 :=
  (Memory.read_eq_iff hwf (((Memory.wf_iff _).1 hwf).2 e he)).2 he

theorem seedLeaves_eq_map_freqAt {s : State} (hwf : Memory.wf s.freq = true) :
    seedLeaves s.freq = (s.freq.map Prod.fst).map fun c => .leaf c ((freqAt s c).setWidth 40) := by
  rw [seedLeaves, present_of_wf hwf, List.map_map]
  exact List.map_congr_left fun e he => by rw [Function.comp_apply, freqAt_of_mem hwf he]

/-- Settles O10: the present symbols in ascending order are those that the canonical store lists. -/
theorem treeSeedAllocatesLeaves : Obligations.TreeSeedAllocatesLeaves := by
  unfold Obligations.TreeSeedAllocatesLeaves
  intro s he hempty hwf hfound
  refine ⟨s.freq.map Prod.fst, ?_, fun c => ?_, ?_⟩
  · exact List.pairwise_map.2 ((Memory.wf_iff _).1 hwf).1
  · rw [freqAt_ne_zero_of_wf hwf]
    simp
  · have hlen : (seedLeaves s.freq).length = (s.freq.map Prod.fst).length := by
      rw [seedLeaves_eq_map_freqAt hwf, List.length_map]
    rw [exec_treeSeed he, if_pos hempty, seedThen_of_present (present_ne_nil hwf hfound), seedNext, hlen,
      seedLeaves_eq_map_freqAt hwf]

/-! ### TREE_MERGE (R113, R115) -/

/-- Two extractions from a queue without duplicates leave every other index. -/
theorem erase_erase_eq_filter {q : List Nat} (hq : q.Nodup) (l r : Nat) :
    (q.erase l).erase r = q.filter fun i => i != l && i != r := by
  rw [(hq.erase l).erase_eq_filter, hq.erase_eq_filter, List.filter_filter]
  exact List.filter_congr fun i _ => Bool.and_comm _ _

theorem length_erase_erase {q : List Nat} {l r : Nat} (hl : l ∈ q) (hr : r ∈ q.erase l) :
    ((q.erase l).erase r).length + 2 = q.length := by
  have h1 := List.length_erase_of_mem hl
  have h2 := List.length_erase_of_mem hr
  have h3 := List.length_pos_of_mem hl
  have h4 := List.length_pos_of_mem hr
  omega

/-- Settles O11: the queue is strictly rising, so the two extractions are of different nodes, and every allocated index
comes before the new one. -/
theorem treeMergeJoinsTwoMinima : Obligations.TreeMergeJoinsTwoMinima := by
  unfold Obligations.TreeMergeJoinsTwoMinima
  intro s he hb hlen halloc hrising
  have hnodup : s.pq.Nodup := hrising.imp Nat.ne_of_lt
  obtain ⟨l, r, hl, hlmin, hr, hrmin, hnext⟩ := mergeNext_spec openTie_lawful hlen
  obtain ⟨hrl, hrq⟩ := (hnodup.mem_erase_iff).1 hr
  refine ⟨l, r, hl, hlmin, hrq, hrl, fun j hj hjl => hrmin j ((hnodup.mem_erase_iff).2 ⟨hjl, hj⟩), ?_⟩
  have hinsert : insertIndex s.nodes.length ((s.pq.erase l).erase r) =
      (s.pq.filter fun i => i != l && i != r) ++ [s.nodes.length] := by
    rw [insertIndex_of_lt fun i hi => halloc i (List.mem_of_mem_erase (List.mem_of_mem_erase hi)),
      erase_erase_eq_filter hnodup]
  have hlast : ((s.pq.filter fun i => i != l && i != r) ++ [s.nodes.length]).length = 1 ↔ s.pq.length = 2 := by
    rw [← length_erase_erase hl hr, erase_erase_eq_filter hnodup, List.length_append, List.length_singleton]
    omega
  rw [exec_treeMerge he, if_pos hb, mergeStep_of_ready ⟨hlen, halloc⟩, hnext, closeTree_eq]
  simp only [hinsert, hlast, hb]
  rfl

/-! ### TREE_BUILD (R116, R119) -/

variable {s : State}

theorem treeBuildWith_of_empty (tie : TieSelect) (he : s.error.code = .none) (hempty : s.treeState = .empty)
    (hfound : present s.freq ≠ []) :
    treeBuildWith tie s = mergeAll tie (seedNext s).pq.length (seedNext s) := by
  rw [treeBuildWith, gated_of_clear he, hempty]
  exact seedThen_of_present hfound _

theorem treeBuildWith_of_building (tie : TieSelect) (he : s.error.code = .none) (hb : s.treeState = .building) :
    treeBuildWith tie s = mergeAll tie s.pq.length s := by
  rw [treeBuildWith, gated_of_clear he, hb]

/-- A built tree is merged no further. -/
theorem mergeAll_of_built (tie : TieSelect) (fuel : Nat) (hb : s.treeState = .built) : mergeAll tie fuel s = .next s := by
  cases fuel <;> simp [mergeAll, hb]

theorem mergeAll_of_building (tie : TieSelect) (fuel : Nat) (hb : s.treeState = .building) :
    mergeAll tie (fuel + 1) s = andThen (mergeStep tie s) (mergeAll tie fuel) := by
  rw [mergeAll, if_pos hb]

end Sys2Proof.Machine

namespace Sys2Proof.Safety

open Sys2Proof.Machine

variable {s t : State}

/-- A seeded queue has one node exactly when the tree is built, and two or more before (R42). -/
theorem Inv.queue_cases (h : Inv s) (hne : s.treeState ≠ .empty) :
    (s.treeState = .built ∧ s.pq.length = 1) ∨ (s.treeState = .building ∧ 2 ≤ s.pq.length) := by
  cases hts : s.treeState with
  | empty => exact absurd hts hne
  | building => exact .inr ⟨rfl, (h.building hts).1⟩
  | built => exact .inl ⟨rfl, by rw [h.built hts, List.length_singleton]⟩

/-- The queue TREE_SEED leaves has one node for each present symbol. -/
theorem Inv.length_pq_seedNext (h : Inv s) : (seedNext s).pq.length = presentCount s := by
  rw [h.presentCount_eq, seedNext_pq, List.length_range, seedLeaves, List.length_map, present_of_wf h.freqWf]

/-- What TREE_BUILD makes of a seeded queue: the merge loop ends in BUILT, with the counts of R119. -/
theorem Inv.mergeAll_finishes (h : Inv s) (hne : s.treeState ≠ .empty) :
    ∃ t, Machine.mergeAll openTie s.pq.length s = .next t ∧ t.treeState = .built ∧ t.nsym = presentCount s ∧
      t.nodes.length + 1 = 2 * t.nsym ∧ t.root + 1 = t.nodes.length ∧ t.pq = [t.root] ∧ s.nodes <+: t.nodes ∧
      t.ties = s.ties + 2 * (s.pq.length - 1) ∧
      t = { s with nodes := t.nodes, pq := t.pq, treeState := t.treeState, root := t.root, ties := t.ties } := by
  obtain ⟨t, hm, hinv, hbuilt, -, hties, hframe⟩ := h.mergeAll openTie_lawful hne le_rfl
  obtain ⟨-, hprefix, -⟩ := mergeAll_frame hm
  have hseeded : t.treeState ≠ .empty := by simp [hbuilt]
  have hcount := hinv.count_nodes hseeded
  rw [hinv.built hbuilt, List.length_singleton] at hcount
  have hfreq : t.freq = s.freq := by rw [hframe]
  have hnsym : t.nsym = presentCount s := by rw [hinv.nsym_eq hseeded, hfreq, h.presentCount_eq]
  have hpos : 1 ≤ s.pq.length := by
    obtain ⟨-, hlen⟩ | ⟨-, hlen⟩ := h.queue_cases hne <;> omega
  exact ⟨t, hm, hbuilt, hnsym, hcount, hinv.root_eq hbuilt, hinv.built hbuilt, hprefix, by omega, hframe⟩

/-- Settles O12: TREE_BUILD seeds when the tree is EMPTY, and then runs the merge loop to its end. -/
theorem treeBuildFinishesTree : Obligations.TreeBuildFinishesTree := by
  unfold Obligations.TreeBuildFinishesTree
  intro s h he hnotBuilt hfound
  cases hts : s.treeState with
  | built => exact absurd hts hnotBuilt
  | building =>
    obtain ⟨t, hm, hbuilt, hnsym, hcount, hroot, hpq, hprefix, hties, hframe⟩ := h.mergeAll_finishes (by simp [hts])
    refine ⟨t, (treeBuildWith_of_building openTie he hts).trans hm, hbuilt, hnsym, hcount, hroot, hpq, hprefix, nofun,
      fun _ => hties, ?_⟩
    have hkeep : t.nsym = s.nsym := by rw [hframe]
    rw [hkeep]
    exact hframe
  | empty =>
    have hpresent := present_ne_nil h.freqWf (hfound hts)
    obtain ⟨hseed, hne⟩ := h.seed hts hpresent
    obtain ⟨t, hm, hbuilt, hnsym, hcount, hroot, hpq, -, hties, hframe⟩ := hseed.mergeAll_finishes hne
    have hkeep : t.nsym = (seedNext s).nsym := by rw [hframe]
    have hk : t.nsym = (seedNext s).pq.length := by rw [h.length_pq_seedNext]; exact hnsym
    refine ⟨t, (treeBuildWith_of_empty openTie he hts hpresent).trans hm, hbuilt, hnsym, hcount, hroot, hpq, ?_,
      fun _ => hk ▸ hties, nofun, ?_⟩
    · rw [(h.emptyTree hts).1]
      exact List.nil_prefix
    · rw [hkeep]
      exact hframe

/-- The merge loop from a seeded queue of `n + 1` nodes is `n` TREE_MERGE commands: each one step of the loop, and the
tree is built exactly when one node is left. -/
theorem Inv.mergeAll_eq_runCommands {n fuel : Nat} (h : Inv s) (hne : s.treeState ≠ .empty) (he : s.error.code = .none)
    (hlen : s.pq.length = n + 1) (hfuel : n ≤ fuel) :
    Machine.mergeAll openTie fuel s = runCommands (List.replicate n .treeMerge) s := by
  induction n generalizing s fuel with
  | zero =>
    obtain ⟨hbuilt, -⟩ | ⟨-, htwo⟩ := h.queue_cases hne
    · exact mergeAll_of_built openTie fuel hbuilt
    · omega
  | succ n ih =>
    obtain ⟨-, hone⟩ | ⟨hb, -⟩ := h.queue_cases hne
    · omega
    · obtain ⟨hinv, hne', hpq, -⟩ := h.merge openTie_lawful hb
      obtain ⟨fuel, rfl⟩ := Nat.exists_eq_add_one_of_ne_zero (show fuel ≠ 0 by omega)
      have herror : (mergeNext openTie s).error = s.error := by rw [mergeNext_frame]
      rw [mergeAll_of_building openTie fuel hb, List.replicate_succ, runCommands, exec_treeMerge he, if_pos hb,
        mergeStep_of_ready (h.queueReady hb), andThen_next, andThen_next]
      exact ih hinv hne' (herror ▸ he) (by omega) (by omega)

/-- Settles O13: the merge loop is its TREE_MERGE commands, and from EMPTY TREE_SEED comes first. -/
theorem treeBuildIsSeedThenMerges : Obligations.TreeBuildIsSeedThenMerges := by
  unfold Obligations.TreeBuildIsSeedThenMerges
  have hmerges {u : State} (h : Inv u) (hne : u.treeState ≠ .empty) (he : u.error.code = .none) :
      Machine.mergeAll openTie u.pq.length u = runCommands (List.replicate (u.pq.length - 1) .treeMerge) u := by
    refine h.mergeAll_eq_runCommands hne he ?_ (Nat.sub_le _ _)
    obtain ⟨-, hlen⟩ | ⟨-, hlen⟩ := h.queue_cases hne <;> omega
  intro s h he
  refine ⟨fun hts hfound => ?_, fun hts => ?_⟩
  · have hpresent := present_ne_nil h.freqWf hfound
    obtain ⟨hseed, hne⟩ := h.seed hts hpresent
    rw [runCommands, exec_treeSeed he, if_pos hts, seedThen_of_present hpresent, andThen_next, ← h.length_pq_seedNext,
      ← hmerges hseed hne he]
    exact treeBuildWith_of_empty openTie he hts hpresent
  · rw [← hmerges h (by simp [hts]) he]
    exact treeBuildWith_of_building openTie he hts

/-! ### The shape of the built tree (R117) -/

/-- The codes of the tree below a node are the paths from it to leaves. -/
theorem mem_codes_treeAt {nodes : List Node} {fuel i : Nat} {T : SymTree} (hT : treeAt nodes fuel i = some T)
    {c : Symbol} {p : Bits} :
    (c, p) ∈ T.codes [] ↔ ∃ j w, descend nodes i p = some j ∧ nodes[j]? = some (.leaf c w) := by
  have hwalk : walk nodes fuel i [] = some (T.codes []) := by rw [walk_eq_codes, hT, Option.map_some]
  simp [mem_walk hwalk]

/-- A symbol is present exactly when some allocated node is its leaf. -/
theorem Inv.freqAt_ne_zero_iff_leaf (h : Inv s) (hne : s.treeState ≠ .empty) {c : Symbol} :
    freqAt s c ≠ 0 ↔ ∃ (j : Nat) (w : Weight), s.nodes[j]? = some (.leaf c w) := by
  simp only [h.leaf_index hne, h.freqAt_ne_zero, present_of_wf h.freqWf, h.nsym_eq hne]
  constructor
  · rintro ⟨v, hv⟩
    obtain ⟨j, hj⟩ := List.mem_iff_getElem?.1 hv
    exact ⟨j, v.setWidth 40, (List.getElem?_eq_some_iff.1 hj).1, v, hj, rfl⟩
  · rintro ⟨j, -, -, v, hv, -⟩
    exact ⟨v, List.mem_of_getElem? hv⟩

/-- The leaves of the built tree are the present symbols: every leaf of the arena is reached from ROOT. -/
theorem Inv.mem_leaves_builtTree (h : Inv s) (hb : s.treeState = .built) {T : SymTree} (hT : Safety.builtTree s = some T)
    {c : Symbol} : c ∈ T.leaves ↔ freqAt s c ≠ 0 := by
  rw [h.freqAt_ne_zero_iff_leaf (by simp [hb]), ← T.map_fst_codes [], List.mem_map]
  constructor
  · rintro ⟨⟨c, p⟩, hmem, rfl⟩
    obtain ⟨j, w, -, hj⟩ := (mem_codes_treeAt hT).1 hmem
    exact ⟨j, w, hj⟩
  · rintro ⟨j, w, hj⟩
    obtain ⟨p, hp⟩ := h.reached hb (List.getElem?_eq_some_iff.1 hj).1
    exact ⟨(c, p), (mem_codes_treeAt hT).2 ⟨j, w, hp, hj⟩, rfl⟩

/-- No symbol is twice a leaf of the built tree: it has one leaf in the arena, and one path leads there. -/
theorem Inv.nodup_leaves_builtTree (h : Inv s) (hb : s.treeState = .built) {T : SymTree}
    (hT : Safety.builtTree s = some T) : T.leaves.Nodup := by
  rw [← T.map_fst_codes []]
  refine List.Nodup.map_on ?_ (T.nodup_codes []).of_map
  rintro ⟨c, p⟩ hp ⟨d, q⟩ hq (rfl : c = d)
  obtain ⟨i, w, hi, hleaf⟩ := (mem_codes_treeAt hT).1 hp
  obtain ⟨j, w', hj, hleaf'⟩ := (mem_codes_treeAt hT).1 hq
  obtain rfl := h.leaf_unique (by simp [hb]) hleaf hleaf'
  rw [h.path_unique hb hi hj]

/-- The children of an internal node are two nodes: each stands once among all children. -/
theorem Inv.left_ne_right (h : Inv s) {i l r : Nat} {w : Weight} (hi : s.nodes[i]? = some (.internal w l r)) : l ≠ r := by
  rintro rfl
  have hchild (b : Bool) : childAt s.nodes i b = some l := by simp [childAt, hi]
  obtain ⟨-, hsides⟩ := childAt_unique h.nodup_owned.of_append_right (hchild false) (hchild true)
  exact Bool.false_ne_true hsides

/-- Settles O16: paths from ROOT lead to every node, each to one; the leaves they meet are those of the arena. -/
theorem builtTreeShape : Obligations.BuiltTreeShape := by
  unfold Obligations.BuiltTreeShape
  intro s h hb
  refine ⟨?_, fun j hj => ?_, fun i w l r hi => ?_⟩
  · obtain ⟨T, hT⟩ := h.builtTree hb
    exact ⟨T, hT, h.nodup_leaves_builtTree hb hT, fun c => h.mem_leaves_builtTree hb hT⟩
  · obtain ⟨p, hp⟩ := h.reached hb hj
    exact ⟨p, hp, fun q hq => h.path_unique hb hq hp⟩
  · obtain ⟨hl, hr, -⟩ := arena_iff.1 h.arena i w l r hi
    exact ⟨hl, hr, h.left_ne_right hi⟩

/-! ### Exact weights (R114) -/

/-- A child weighs no more than its parent. -/
theorem Inv.nodeKey_child_le (h : Inv s) {i j : Nat} {b : Bool} (hc : childAt s.nodes i b = some j) :
    nodeKey s.nodes j ≤ nodeKey s.nodes i := by
  rw [childAt] at hc
  split at hc
  next w l r hi =>
    obtain ⟨-, -, hsum⟩ := arena_iff.1 h.arena i w l r hi
    have hkey : nodeKey s.nodes i = w.toNat := by simp only [nodeKey, hi, Node.weight]
    cases hc
    rw [hkey, hsum]
    cases b with
    | false => exact Nat.le_add_right _ _
    | true => exact Nat.le_add_left _ _
  next => cases hc

/-- No node weighs more than all of FREQ: it is in the queue, whose weights add up to that, or has a parent, which comes
later in the arena and weighs as much. -/
theorem Inv.nodeKey_le_total (h : Inv s) (hne : s.treeState ≠ .empty) {i : Nat} (hi : i < s.nodes.length) :
    nodeKey s.nodes i ≤ listedTotal s.freq := by
  induction hm : s.nodes.length - i using Nat.strong_induction_on generalizing i with
  | _ m ih =>
    rcases List.mem_append.1 (h.owned.symm.subset (List.mem_range.2 hi)) with hq | hchild
    · rw [← h.total hne]
      exact nodeKey_le_sum hq
    · obtain ⟨j, b, hj⟩ := mem_childrenOf.1 hchild
      obtain ⟨hlt, hjlt⟩ := childAt_lt h.arena hj
      exact (h.nodeKey_child_le hj).trans (ih _ (by omega) hjlt rfl)

/-- Settles O17: the invariant's arena and queue weights, from the leaves, which weigh their counts. -/
theorem weightsAreExactSums : Obligations.WeightsAreExactSums := by
  unfold Obligations.WeightsAreExactSums
  intro s h hne
  rw [h.freqTotal_eq]
  refine ⟨fun i w l r hi => ?_, fun i T hT => ?_, fun i hi => h.nodeKey_le_total hne hi, listedTotal_lt h.freqWf,
    h.total hne⟩
  · obtain ⟨-, -, hsum⟩ := arena_iff.1 h.arena i w l r hi
    exact hsum
  · exact nodeKey_treeAt h.arena (fun j c w hj => h.leaf_weight hne hj) hT

end Sys2Proof.Safety
end

section
/-! PROOFS. Optimality of the built tree (41_tree_builder.md R118). The exchange argument is made on binary trees that keep
only the weights of their leaves; the merge loop joins two least weights of the queue at each step, which is the exchange. -/

namespace Sys2Proof.Safety

/-! ### Binary trees of weights -/

/-- A binary tree with a weight at each leaf: a `SymTree` whose symbols are forgotten. -/
inductive WeightTree where
  | leaf (w : Nat)
  | node (l r : WeightTree)

namespace WeightTree

/-- The weights at the leaves. -/
def leaves : WeightTree → Multiset Nat
  | .leaf w => {w}
  | .node l r => l.leaves + r.leaves

/-- The sum of the weights at the leaves. -/
def weight : WeightTree → Nat
  | .leaf w => w
  | .node l r => l.weight + r.weight

/-- The number of edges on a longest path. -/
def height : WeightTree → Nat
  | .leaf _ => 0
  | .node l r => max l.height r.height + 1

/-- The weighted path length, counted as the sum of the weights of the internal nodes. -/
def cost : WeightTree → Nat
  | .leaf _ => 0
  | .node l r => l.cost + r.cost + l.weight + r.weight

@[simp] theorem leaves_leaf (w : Nat) : (leaf w).leaves = {w} := rfl
@[simp] theorem leaves_node (l r : WeightTree) : (node l r).leaves = l.leaves + r.leaves := rfl
@[simp] theorem weight_leaf (w : Nat) : (leaf w).weight = w := rfl
@[simp] theorem weight_node (l r : WeightTree) : (node l r).weight = l.weight + r.weight := rfl
@[simp] theorem height_leaf (w : Nat) : (leaf w).height = 0 := rfl
@[simp] theorem height_node (l r : WeightTree) : (node l r).height = max l.height r.height + 1 := rfl
@[simp] theorem cost_leaf (w : Nat) : (leaf w).cost = 0 := rfl
@[simp] theorem cost_node (l r : WeightTree) : (node l r).cost = l.cost + r.cost + l.weight + r.weight := rfl

theorem weight_eq_sum_leaves (W : WeightTree) : W.weight = W.leaves.sum := by
  induction W with
  | leaf w => simp
  | node l r hl hr => simp [hl, hr]

/-! Which subtree stands left makes no difference to any of the four. -/

theorem leaves_swap (l r : WeightTree) : (node r l).leaves = (node l r).leaves := Multiset.add_comm _ _

theorem weight_swap (l r : WeightTree) : (node r l).weight = (node l r).weight := Nat.add_comm _ _

theorem height_swap (l r : WeightTree) : (node r l).height = (node l r).height := by simp [max_comm]

theorem cost_swap (l r : WeightTree) : (node r l).cost = (node l r).cost := by simp only [cost_node]; omega

theorem exists_node_of_two_le {W : WeightTree} (h : 2 ≤ W.leaves.card) : ∃ l r, W = .node l r := by
  cases W with
  | leaf w => simp at h
  | node l r => exact ⟨l, r, rfl⟩

/-! ### Replacing one leaf -/

/-- `V` is `W` with the weight `p` of one leaf, at depth `e`, replaced by `q`. -/
structure Replaces (W : WeightTree) (p q e : Nat) (V : WeightTree) : Prop where
  height : V.height = W.height
  depth : e ≤ W.height
  weight : V.weight + p = W.weight + q
  cost : V.cost + p * e = W.cost + q * e

theorem Replaces.left {l V : WeightTree} {p q e : Nat} (h : Replaces l p q e V) (r : WeightTree) :
    Replaces (.node l r) p q (e + 1) (.node V r) where
  height := by simp [h.height]
  depth := by have hd := h.depth; simp only [height_node]; omega
  weight := by have hw := h.weight; simp only [weight_node]; omega
  cost := by
    have hw := h.weight
    have hc := h.cost
    simp only [cost_node, Nat.mul_succ]
    omega

theorem Replaces.swap {l r l' r' : WeightTree} {p q e : Nat} (h : Replaces (.node l r) p q e (.node l' r')) :
    Replaces (.node r l) p q e (.node r' l') where
  height := by rw [height_swap l' r', height_swap l r, h.height]
  depth := by rw [height_swap l r]; exact h.depth
  weight := by rw [weight_swap l' r', weight_swap l r, h.weight]
  cost := by rw [cost_swap l' r', cost_swap l r, h.cost]

/-- Any leaf can be given any weight. -/
theorem exists_replaces {W : WeightTree} {p : Nat} {S : Multiset Nat} (h : W.leaves = p ::ₘ S) (q : Nat) :
    ∃ V e, V.leaves = q ::ₘ S ∧ Replaces W p q e V := by
  induction W generalizing S with
  | leaf w =>
    obtain ⟨rfl, rfl⟩ := (Multiset.singleton_eq_cons_iff S).1 h
    exact ⟨.leaf q, 0, rfl, rfl, le_rfl, Nat.add_comm _ _, rfl⟩
  | node l r hl hr =>
    rw [leaves_node] at h
    rcases Multiset.mem_add.1 (h ▸ Multiset.mem_cons_self p S) with hp | hp
    · obtain ⟨A, hA⟩ := Multiset.exists_cons_of_mem hp
      obtain ⟨V, e, hV, hrep⟩ := hl hA
      rw [hA, Multiset.cons_add, Multiset.cons_inj_right] at h
      exact ⟨.node V r, e + 1, by rw [leaves_node, hV, Multiset.cons_add, h], hrep.left r⟩
    · obtain ⟨B, hB⟩ := Multiset.exists_cons_of_mem hp
      obtain ⟨V, e, hV, hrep⟩ := hr hB
      rw [hB, Multiset.add_cons, Multiset.cons_inj_right] at h
      exact ⟨.node l V, e + 1, by rw [leaves_node, hV, Multiset.add_cons, h], (hrep.left l).swap⟩

/-! ### A deepest pair of siblings -/

/-- Two leaves `x` and `y` of `W` are siblings at the greatest depth: for every `z` some tree `V` has one leaf `z` in the
place of their parent. -/
def HasDeepestPair (W : WeightTree) : Prop :=
  ∃ x y R, W.leaves = x ::ₘ y ::ₘ R ∧ ∀ z, ∃ V : WeightTree,
    V.leaves = z ::ₘ R ∧ V.height ≤ W.height ∧ V.cost + (x + y) * W.height + z = W.cost + z * W.height

theorem HasDeepestPair.swap {l r : WeightTree} (h : HasDeepestPair (.node l r)) : HasDeepestPair (.node r l) := by
  rwa [HasDeepestPair, leaves_swap l r, height_swap l r, cost_swap l r]

/-- A deepest pair of the higher subtree is one of the tree. -/
theorem HasDeepestPair.left {l r : WeightTree} (h : HasDeepestPair l) (hle : r.height ≤ l.height) :
    HasDeepestPair (.node l r) := by
  obtain ⟨x, y, R, hl, hcontract⟩ := h
  refine ⟨x, y, R + r.leaves, by simp [hl], fun z => ?_⟩
  obtain ⟨V, hV, hheight, hcost⟩ := hcontract z
  refine ⟨.node V r, by simp [hV], by simp only [height_node]; omega, ?_⟩
  have hweight : V.weight + (x + y) = l.weight + z := by
    simp only [weight_eq_sum_leaves, hV, hl, Multiset.sum_cons]
    omega
  simp only [cost_node, height_node, Nat.max_eq_left hle, Nat.mul_succ]
  omega

theorem hasDeepestPair_node (l r : WeightTree) : HasDeepestPair (.node l r) := by
  induction hn : (node l r).height using Nat.strong_induction_on generalizing l r with
  | _ n ih =>
    wlog hle : r.height ≤ l.height generalizing l r
    · exact (this r l (by rw [height_swap l r, hn]) (Nat.le_of_not_le hle)).swap
    cases l with
    | node a b => exact (ih _ (by rw [← hn]; simp) a b rfl).left hle
    | leaf x =>
      cases r with
      | node a b => simp at hle
      | leaf y => exact ⟨x, y, 0, rfl, fun z => ⟨.leaf z, rfl, by simp, by simp⟩⟩

/-! ### The exchange -/

/-- Where `a` is at most `x` and the leaves are to become those with `x` in the place of `a`, some tree of the same shape has
them, and it costs at most as if `a` had stood at the greatest depth. -/
theorem exists_exchange {W : WeightTree} {N M R : Multiset Nat} {x a d : Nat} (hW : W.leaves = N + R)
    (hd : W.height ≤ d) (hmulti : x ::ₘ R = a ::ₘ M) (hle : a ≤ x) :
    ∃ V : WeightTree, V.leaves = N + M ∧ V.height ≤ d ∧ V.cost + a * d ≤ W.cost + x * d := by
  rcases Multiset.cons_eq_cons.1 hmulti with ⟨rfl, rfl⟩ | ⟨-, S, rfl, rfl⟩
  · exact ⟨W, hW, hd, le_rfl⟩
  · rw [Multiset.add_cons] at hW
    obtain ⟨V, e, hV, hrep⟩ := exists_replaces hW x
    refine ⟨V, by rw [hV, Multiset.add_cons], hrep.height.trans_le hd, ?_⟩
    have hcost := hrep.cost
    obtain ⟨k, rfl⟩ := Nat.exists_eq_add_of_le (hrep.depth.trans hd)
    have hbelow : a * k ≤ x * k := Nat.mul_le_mul_right k hle
    rw [mul_add, mul_add]
    omega

/-- The exchange twice: `x` and `y`, which stood at the greatest depth, against the two least weights `a` and `b`. -/
theorem exists_exchange_pair {W : WeightTree} {N M R : Multiset Nat} {x y a b d : Nat} (hW : W.leaves = N + R)
    (hd : W.height ≤ d) (hmulti : x ::ₘ y ::ₘ R = a ::ₘ b ::ₘ M) (ha : ∀ w ∈ a ::ₘ b ::ₘ M, a ≤ w)
    (hb : ∀ w ∈ b ::ₘ M, b ≤ w) :
    ∃ V : WeightTree, V.leaves = N + M ∧ V.cost + (a + b) * d ≤ W.cost + (x + y) * d := by
  obtain ⟨p, S, V, hV, hVd, hrest, hcost⟩ : ∃ p S, ∃ V : WeightTree,
      V.leaves = N + S ∧ V.height ≤ d ∧ p ::ₘ S = b ::ₘ M ∧ V.cost + (a + p) * d ≤ W.cost + (x + y) * d := by
    rcases Multiset.cons_eq_cons.1 hmulti with ⟨rfl, hrest⟩ | ⟨-, S, hyR, hrest⟩
    · exact ⟨y, R, W, hW, hd, hrest, le_rfl⟩
    · have hay : a ≤ y := ha y (by rw [← hmulti]; simp)
      obtain ⟨V, hV, hVd, hcost⟩ := exists_exchange hW hd hyR hay
      exact ⟨x, S, V, hV, hVd, hrest.symm, by rw [add_mul, add_mul]; omega⟩
  obtain ⟨V', hV', -, hcost'⟩ := exists_exchange hV hVd hrest (hb p (by rw [← hrest]; simp))
  refine ⟨V', hV', ?_⟩
  rw [add_mul] at hcost ⊢
  omega

/-- Joining the two least weights loses nothing: whatever tree stands over the leaves, some tree over the leaves with `a` and
`b` joined is cheaper by `a + b`. -/
theorem exists_joined {W : WeightTree} {a b : Nat} {M : Multiset Nat} (hW : W.leaves = a ::ₘ b ::ₘ M)
    (ha : ∀ w ∈ a ::ₘ b ::ₘ M, a ≤ w) (hb : ∀ w ∈ b ::ₘ M, b ≤ w) :
    ∃ V : WeightTree, V.leaves = (a + b) ::ₘ M ∧ V.cost + (a + b) ≤ W.cost := by
  obtain ⟨l, r, rfl⟩ := exists_node_of_two_le (W := W) (by simp [hW])
  obtain ⟨x, y, R, hpair, hcontract⟩ := hasDeepestPair_node l r
  obtain ⟨V, hV, hheight, hcost⟩ := hcontract (a + b)
  rw [← Multiset.singleton_add] at hV
  obtain ⟨V', hV', hcost'⟩ := exists_exchange_pair hV hheight (hpair.symm.trans hW) ha hb
  exact ⟨V', hV', by omega⟩

end WeightTree

/-! ### From symbols to weights -/

open Sys2Proof.Machine

/-- A tree with its symbols replaced by their weights. -/
def SymTree.weights (freq : Symbol → Nat) : SymTree → WeightTree
  | .leaf c => .leaf (freq c)
  | .node l r => .node (l.weights freq) (r.weights freq)

theorem SymTree.leaves_weights (freq : Symbol → Nat) (T : SymTree) : (T.weights freq).leaves = ↑(T.leaves.map freq) := by
  induction T with
  | leaf c => rfl
  | node l r hl hr => simp [SymTree.weights, SymTree.leaves, hl, hr]

theorem SymTree.weight_weights (freq : Symbol → Nat) (T : SymTree) : (T.weights freq).weight = T.weight freq := by
  induction T with
  | leaf c => rfl
  | node l r hl hr => simp [SymTree.weights, SymTree.weight, hl, hr]

/-- One level further down every leaf's weight counts once more. -/
theorem SymTree.pathLength_succ (freq : Symbol → Nat) (d : Nat) (T : SymTree) :
    T.pathLength freq (d + 1) = T.pathLength freq d + T.weight freq := by
  induction T generalizing d with
  | leaf c => simp [SymTree.pathLength, SymTree.weight, Nat.mul_succ]
  | node l r hl hr => simp only [SymTree.pathLength, SymTree.weight, hl, hr]; omega

theorem SymTree.cost_weights (freq : Symbol → Nat) (T : SymTree) : (T.weights freq).cost = T.pathLength freq 0 := by
  induction T with
  | leaf c => simp [SymTree.weights, SymTree.pathLength]
  | node l r hl hr =>
    simp only [SymTree.weights, WeightTree.cost_node, SymTree.pathLength, SymTree.pathLength_succ, SymTree.weight_weights,
      hl, hr]
    omega

/-! ### The weights of the internal nodes -/

/-- What a node adds to the weighted path length: an internal node its weight, a leaf nothing. -/
def innerWeight (n : Node) : Nat := if n.isLeaf then 0 else n.weight.toNat

/-- The sum of the weights of the internal nodes of an arena. -/
def innerTotal (nodes : List Node) : Nat := (nodes.map innerWeight).sum

theorem innerTotal_append (nodes : List Node) (n : Node) : innerTotal (nodes ++ [n]) = innerTotal nodes + innerWeight n := by
  simp [innerTotal]

theorem innerTotal_seedLeaves (m : Memory) : innerTotal (seedLeaves m) = 0 := by
  simp [innerTotal, seedLeaves, innerWeight, Node.isLeaf, Function.comp_def]

theorem childrenOf_append_leaf (nodes : List Node) (c : Symbol) (w : Weight) :
    childrenOf (nodes ++ [.leaf c w]) = childrenOf nodes := by
  simp [childrenOf]

/-- A function that is 0 at leaves and adds its values at the children to the weight of an internal node: its sum over all
nodes is the inner total and its sum over the children. -/
theorem sum_range_of_step {g : Nat → Nat} {nodes : List Node}
    (hleaf : ∀ (i : Nat) c w, nodes[i]? = some (.leaf c w) → g i = 0)
    (hinner : ∀ (i : Nat) w l r, nodes[i]? = some (.internal w l r) → g i = w.toNat + (g l + g r)) :
    ((List.range nodes.length).map g).sum = innerTotal nodes + ((childrenOf nodes).map g).sum := by
  induction nodes using List.reverseRecOn with
  | nil => rfl
  | append_singleton nodes n ih =>
    have hbefore {i : Nat} {m : Node} (hi : nodes[i]? = some m) : (nodes ++ [n])[i]? = some m := by
      rw [List.getElem?_append_left (List.getElem?_eq_some_iff.1 hi).1, hi]
    have hsum := ih (fun i c w hi => hleaf i c w (hbefore hi)) fun i w l r hi => hinner i w l r (hbefore hi)
    rw [List.length_append, List.length_singleton, List.range_succ, List.map_append, List.sum_append, hsum,
      innerTotal_append, List.map_singleton, List.sum_singleton]
    cases n with
    | leaf c w =>
      rw [childrenOf_append_leaf, hleaf nodes.length c w (by simp), innerWeight]
      simp [Node.isLeaf]
    | internal w l r =>
      rw [childrenOf_append, hinner nodes.length w l r (by simp), innerWeight]
      simp [Node.isLeaf, Node.weight]
      omega

/-! ### The weighted path length of the built tree -/

/-- More fuel finds the same tree. -/
theorem treeAt_mono {nodes : List Node} {fuel fuel' i : Nat} {T : SymTree} (h : treeAt nodes fuel i = some T)
    (hle : fuel ≤ fuel') : treeAt nodes fuel' i = some T := by
  induction fuel generalizing fuel' i T with
  | zero => cases h
  | succ fuel ih =>
    obtain ⟨fuel', rfl⟩ := Nat.exists_eq_add_one_of_ne_zero (show fuel' ≠ 0 by omega)
    simp only [treeAt] at h ⊢
    split at h
    next => cases h
    next => exact h
    next w l r hi =>
      split at h
      next a b ha hb => rw [ih ha (by omega), ih hb (by omega)]; exact h
      next => cases h

/-- The weighted path length of the tree below a node. -/
def pathLengthAt (freq : Symbol → Nat) (nodes : List Node) (i : Nat) : Nat :=
  ((treeAt nodes nodes.length i).map (SymTree.pathLength freq 0)).getD 0

theorem pathLengthAt_eq {freq : Symbol → Nat} {nodes : List Node} {i : Nat} {T : SymTree}
    (h : treeAt nodes nodes.length i = some T) : pathLengthAt freq nodes i = T.pathLength freq 0 := by
  rw [pathLengthAt, h, Option.map_some, Option.getD_some]

theorem pathLengthAt_leaf (freq : Symbol → Nat) {nodes : List Node} {i : Nat} {c : Symbol} {w : Weight}
    (hi : nodes[i]? = some (.leaf c w)) : pathLengthAt freq nodes i = 0 := by
  have hpos : nodes.length ≠ 0 := by have := (List.getElem?_eq_some_iff.1 hi).1; omega
  obtain ⟨k, hk⟩ := Nat.exists_eq_add_one_of_ne_zero hpos
  have hT : treeAt nodes nodes.length i = some (.leaf c) := by simp only [hk, treeAt, hi]
  rw [pathLengthAt_eq hT, SymTree.pathLength, Nat.mul_zero]

/-- The tree below an internal node joins the trees below its children. -/
theorem treeAt_internal {nodes : List Node} (ha : ((List.range nodes.length).all (nodeOk nodes)) = true) {i l r : Nat}
    {w : Weight} (hi : nodes[i]? = some (.internal w l r)) :
    ∃ a b, treeAt nodes nodes.length l = some a ∧ treeAt nodes nodes.length r = some b ∧
      treeAt nodes nodes.length i = some (.node a b) := by
  obtain ⟨hl, hr, -⟩ := arena_iff.1 ha i w l r hi
  have hlt := (List.getElem?_eq_some_iff.1 hi).1
  obtain ⟨k, hk⟩ := Nat.exists_eq_add_one_of_ne_zero (show nodes.length ≠ 0 by omega)
  obtain ⟨a, hla⟩ := treeAt_isSome ha (fuel := k) (i := l) (by omega) (by omega)
  obtain ⟨b, hrb⟩ := treeAt_isSome ha (fuel := k) (i := r) (by omega) (by omega)
  exact ⟨a, b, treeAt_mono hla (by omega), treeAt_mono hrb (by omega), by simp only [hk, treeAt, hi, hla, hrb]⟩

theorem Inv.pathLengthAt_internal {s : State} (h : Inv s) (hne : s.treeState ≠ .empty) {i l r : Nat} {w : Weight}
    (hi : s.nodes[i]? = some (.internal w l r)) :
    pathLengthAt (count s) s.nodes i =
      w.toNat + (pathLengthAt (count s) s.nodes l + pathLengthAt (count s) s.nodes r) := by
  obtain ⟨a, b, ha, hb, hT⟩ := treeAt_internal h.arena hi
  obtain ⟨-, -, hsum⟩ := arena_iff.1 h.arena i w l r hi
  have hleaf : ∀ (j : Nat) c w, s.nodes[j]? = some (.leaf c w) → w.toNat = count s c := fun j c w hj =>
    h.leaf_weight hne hj
  rw [pathLengthAt_eq hT, pathLengthAt_eq ha, pathLengthAt_eq hb, hsum, nodeKey_treeAt h.arena hleaf ha,
    nodeKey_treeAt h.arena hleaf hb, SymTree.pathLength, SymTree.pathLength_succ, SymTree.pathLength_succ]
  omega

/-- The weighted path length of the built tree is the sum of the weights of the internal nodes: every node but ROOT is the
child of exactly one. -/
theorem Inv.pathLength_builtTree {s : State} (h : Inv s) (hb : s.treeState = .built) {T : SymTree}
    (hT : Safety.builtTree s = some T) : T.pathLength (count s) 0 = innerTotal s.nodes := by
  have hne : s.treeState ≠ .empty := by simp [hb]
  have hsum := sum_range_of_step (g := pathLengthAt (count s) s.nodes) (nodes := s.nodes)
    (fun i c w hi => pathLengthAt_leaf _ hi) fun i w l r hi => h.pathLengthAt_internal hne hi
  have hperm := (h.owned.map (pathLengthAt (count s) s.nodes)).sum_eq
  rw [h.built hb, List.singleton_append, List.map_cons, List.sum_cons, hsum, pathLengthAt_eq hT] at hperm
  omega

/-! ### The merge loop -/

/-- The weights in the queue. -/
def queueKeys (s : State) : Multiset Nat := ↑(s.pq.map (nodeKey s.nodes))

/-- A merge step joins the two least weights of the queue, and adds their sum to the inner total. -/
theorem Inv.queueKeys_merge {tie : TieSelect} (ht : LawfulTie tie) {s : State} (h : Inv s)
    (hb : s.treeState = .building) :
    ∃ a b M, queueKeys s = a ::ₘ b ::ₘ M ∧ (∀ w ∈ a ::ₘ b ::ₘ M, a ≤ w) ∧ (∀ w ∈ b ::ₘ M, b ≤ w) ∧
      queueKeys (mergeNext tie s) = (a + b) ::ₘ M ∧
      innerTotal (mergeNext tie s).nodes = innerTotal s.nodes + (a + b) := by
  obtain ⟨l, r, hl, hlmin, hr, hrmin, hnext⟩ := mergeNext_spec ht (h.building hb).1
  have hrest : ∀ i ∈ (s.pq.erase l).erase r, i < s.nodes.length := fun i hi =>
    h.pq_lt (List.mem_of_mem_erase (List.mem_of_mem_erase hi))
  rw [closeTree_eq, insertIndex_of_lt hrest] at hnext
  have hnodes : (mergeNext tie s).nodes = s.nodes ++ [mergedNode s.nodes l r] := by rw [hnext]
  have hpq : (mergeNext tie s).pq = (s.pq.erase l).erase r ++ [s.nodes.length] := by rw [hnext]
  have hweight : (mergedNode s.nodes l r).weight.toNat = nodeKey s.nodes l + nodeKey s.nodes r := by
    obtain ⟨hinv, -⟩ := h.merge ht hb
    obtain ⟨hlt, hrt, hsum⟩ := arena_iff.1 hinv.arena s.nodes.length _ l r (by
      rw [hnodes, mergedNode, List.getElem?_concat_length])
    rw [hnodes, nodeKey_append hlt, nodeKey_append hrt] at hsum
    exact hsum
  have hperm : s.pq.Perm (l :: r :: (s.pq.erase l).erase r) :=
    (List.perm_cons_erase hl).trans ((List.perm_cons_erase hr).cons l)
  have hqueue : queueKeys s = nodeKey s.nodes l ::ₘ nodeKey s.nodes r ::ₘ
      ↑(((s.pq.erase l).erase r).map (nodeKey s.nodes)) :=
    Multiset.coe_eq_coe.2 (hperm.map _)
  have herase : (↑((s.pq.erase l).map (nodeKey s.nodes)) : Multiset Nat) =
      nodeKey s.nodes r ::ₘ ↑(((s.pq.erase l).erase r).map (nodeKey s.nodes)) :=
    Multiset.coe_eq_coe.2 ((List.perm_cons_erase hr).map _)
  refine ⟨nodeKey s.nodes l, nodeKey s.nodes r, _, hqueue, ?_, ?_, ?_, ?_⟩
  · rw [← hqueue]
    simpa [queueKeys] using hlmin
  · rw [← herase]
    simpa using hrmin
  · rw [queueKeys, hpq, hnodes, List.map_append, List.map_singleton, nodeKey_new, hweight,
      List.map_congr_left fun i hi => nodeKey_append (hrest i hi) _]
    exact Multiset.coe_eq_coe.2 (List.perm_append_singleton _ _)
  · rw [hnodes, innerTotal_append, innerWeight, hweight]
    rfl

/-- Whatever tree stands over the weights in the queue, the merge loop adds no more than its cost: each step joins two least
weights, and some tree over the joined queue is cheaper by what the step adds. -/
theorem Inv.innerTotal_mergeAll_le {tie : TieSelect} (ht : LawfulTie tie) {fuel : Nat} {s t : State} (h : Inv s)
    (hne : s.treeState ≠ .empty) (hm : Machine.mergeAll tie fuel s = .next t) {W : WeightTree}
    (hW : W.leaves = queueKeys s) : innerTotal t.nodes ≤ innerTotal s.nodes + W.cost := by
  induction fuel generalizing s W with
  | zero =>
    obtain ⟨hbuilt, -⟩ | ⟨hb, -⟩ := h.queue_cases hne
    · rw [mergeAll_of_built tie 0 hbuilt] at hm
      cases hm
      exact Nat.le_add_right _ _
    · simp [Machine.mergeAll, hb] at hm
  | succ fuel ih =>
    obtain ⟨hbuilt, -⟩ | ⟨hb, -⟩ := h.queue_cases hne
    · rw [mergeAll_of_built tie _ hbuilt] at hm
      cases hm
      exact Nat.le_add_right _ _
    · rw [mergeAll_of_building tie fuel hb, mergeStep_of_ready (h.queueReady hb), andThen_next] at hm
      obtain ⟨hinv, hne', -⟩ := h.merge ht hb
      obtain ⟨a, b, M, hqueue, ha, hb', hjoined, hinner⟩ := h.queueKeys_merge ht hb
      obtain ⟨V, hV, hcost⟩ := WeightTree.exists_joined (hW.trans hqueue) ha hb'
      have hle := ih hinv hne' hm (hV.trans hjoined.symm)
      omega

theorem map_nodeKey_range (nodes : List Node) :
    (List.range nodes.length).map (nodeKey nodes) = nodes.map fun n => n.weight.toNat := by
  refine List.ext_getElem (by simp) fun i hi _ => ?_
  simp only [List.length_map, List.length_range] at hi
  simp [nodeKey, hi]

/-- The queue TREE_SEED leaves holds the counts of the listed symbols. -/
theorem queueKeys_seedNext {s : State} (hwf : Memory.wf s.freq = true) :
    queueKeys (seedNext s) = ↑((s.freq.map Prod.fst).map (count s)) := by
  have hcount (v : Word) : (v.setWidth 40).toNat = v.toNat := BitVec.toNat_setWidth_of_le (by decide)
  rw [queueKeys, seedNext_pq, seedNext_nodes, map_nodeKey_range, seedLeaves_eq_map_freqAt hwf, List.map_map]
  simp only [Function.comp_def, Node.weight, hcount]
  rfl

/-- Every tree over the present symbols has the queue's weights after TREE_SEED at its leaves. -/
theorem Inv.leaves_weights_eq_queueKeys {s : State} (h : Inv s) {U : SymTree} (hnodup : U.leaves.Nodup)
    (hmem : ∀ c, c ∈ U.leaves ↔ freqAt s c ≠ 0) : (U.weights (count s)).leaves = queueKeys (seedNext s) := by
  have hrising : (s.freq.map Prod.fst).Nodup :=
    List.pairwise_map.2 (((Memory.wf_iff _).1 h.freqWf).1.imp fun hlt heq => by simp [heq] at hlt)
  have hperm : U.leaves.Perm (s.freq.map Prod.fst) :=
    (List.perm_ext_iff_of_nodup hnodup hrising).2 fun c => by rw [hmem, h.freqAt_ne_zero]; simp
  rw [SymTree.leaves_weights, queueKeys_seedNext h.freqWf]
  exact Multiset.coe_eq_coe.2 (hperm.map _)

/-- Settles O18: the built tree's weighted path length is what the merge loop adds to the seeded arena, at most the cost of
any tree over the seeded queue. -/
theorem builtTreeIsOptimal : Obligations.BuiltTreeIsOptimal := by
  unfold Obligations.BuiltTreeIsOptimal
  intro tie ht s h he hts hfound
  have hpresent := present_ne_nil h.freqWf hfound
  obtain ⟨hseed, hne⟩ := h.seed hts hpresent
  obtain ⟨t, hm, hinv, hbuilt, -, -, hframe⟩ := hseed.mergeAll ht hne le_rfl
  have hfreq : freqAt t = freqAt s := by rw [hframe]; rfl
  have hcount : count t = count s := funext fun c => by rw [count, hfreq, count]
  obtain ⟨T, hT⟩ := hinv.builtTree hbuilt
  have hnodup := hinv.nodup_leaves_builtTree hbuilt hT
  have hmem (c : Symbol) : c ∈ T.leaves ↔ freqAt s c ≠ 0 := by rw [← hfreq]; exact hinv.mem_leaves_builtTree hbuilt hT
  refine ⟨t, T, (treeBuildWith_of_empty tie he hts hpresent).trans hm, hT, hnodup, hmem, fun U hU => ?_⟩
  have hleaves := h.leaves_weights_eq_queueKeys (hU.nodup_iff.2 hnodup) fun c => hU.mem_iff.trans (hmem c)
  calc T.pathLength (count s) 0 = innerTotal t.nodes := by rw [← hcount, hinv.pathLength_builtTree hbuilt hT]
    _ ≤ innerTotal (seedNext s).nodes + (U.weights (count s)).cost := hseed.innerTotal_mergeAll_le ht hne hm hleaves
    _ = U.pathLength (count s) 0 := by rw [seedNext_nodes, innerTotal_seedLeaves, Nat.zero_add, SymTree.cost_weights]

end Sys2Proof.Safety
end

section
/-! PROOFS. The statements of 42_code_table_rom_gen.md: what CODEGEN writes (R130, R131), and that the codes are prefix-free
(R132) and complete (R133) and weigh what the tree weighs (R134). -/

namespace Sys2Proof.Safety

open Sys2Proof.Machine

variable {s : State}

/-! ### What CODEGEN writes (R130, R131) -/

/-- A built tree always gives a table. -/
theorem Inv.exists_generatedTable (h : Inv s) (hb : s.treeState = .built) :
    ∃ tab, generatedTable s.nodes s.root = some tab := by
  obtain ⟨pairs, hpairs⟩ := h.assigned hb
  exact ⟨tableOfCodes pairs, by rw [generatedTable, hpairs, Option.map_some]⟩

theorem exec_codegen_of_built (he : s.error.code = .none) (hb : s.treeState = .built) {tab : CodeTable}
    (hg : generatedTable s.nodes s.root = some tab) : exec .codegen s = .next (writeCodes tab s) := by
  rw [exec_codegen he, if_pos hb, hg]

/-- Settles O19: the state CODEGEN leaves has the invariant and a table, so its codes are those of the tree. -/
theorem codegenWritesPaths : Obligations.CodegenWritesPaths := by
  unfold Obligations.CodegenWritesPaths
  intro s h he hb
  obtain ⟨tab, hg⟩ := h.exists_generatedTable hb
  have hnext : Inv (writeCodes tab s) := h.writeCodes hb hg
  refine ⟨tab, maxCodeLen tab, exec_codegen_of_built he hb hg, hnext.rising_code,
    fun c w hleaf => hnext.code_of_leaf_root rfl hleaf,
    fun w l r hroot c p => hnext.mem_code rfl (by simp [hroot]),
    fun e hmem => le_maxCodeLen hmem, exists_maxCodeLen (hnext.code_ne_nil rfl), fun hv => ?_⟩
  obtain ⟨-, hcode, hmax⟩ := h.hasCode hv
  obtain rfl : tab = s.code := Option.some.inj (hg.symm.trans hcode)
  exact ⟨rfl, hmax.symm⟩

/-- With one symbol the table is its fallback code alone (R131). -/
theorem Inv.code_of_one (h : Inv s) (hv : s.codeValid = true) (hone : s.nsym = 1) :
    ∃ c, s.code = [(c, [false])] ∧ s.maxLen = 1 := by
  obtain ⟨hb, -, hmax⟩ := h.hasCode hv
  obtain ⟨c, w, hleaf, -⟩ := h.root_leaf hb hone
  have hcode := h.code_of_leaf_root hv hleaf
  exact ⟨c, hcode, by rw [hmax, hcode]; rfl⟩

/-- The symbols with a code are the present ones, in FREQ's terms (R42). -/
theorem Inv.mem_map_fst_code (h : Inv s) (hv : s.codeValid = true) {c : Symbol} :
    c ∈ s.code.map Prod.fst ↔ freqAt s c ≠ 0 := by
  rw [h.freqAt_ne_zero, ← h.code_symbols hv]
  simp

theorem Inv.code_ne_nil_of_mem (h : Inv s) {c : Symbol} {p : Bits} (hc : (c, p) ∈ s.code) : p ≠ [] := by
  rintro rfl
  obtain hfallback | ⟨hpos, -⟩ := h.code_length hc
  · exact List.cons_ne_nil _ _ hfallback.symm
  · exact absurd hpos (by simp)

/-- Settles O20: the one listed code is the fallback's, and a symbol has a code exactly when it is present. -/
theorem singleSymbolGetsFallback : Obligations.SingleSymbolGetsFallback := by
  unfold Obligations.SingleSymbolGetsFallback
  refine fun s h => ⟨fun hv hone => ?_, fun c hc => h.code_ne_nil_of_mem (h.codeAt_eq_some_iff.1 hc) rfl⟩
  obtain ⟨c, hcode, hmax⟩ := h.code_of_one hv hone
  refine ⟨c, fun d => ?_, fun d => ?_, hmax⟩
  · rw [← h.mem_map_fst_code hv, hcode, List.map_singleton, List.mem_singleton]
  · simp only [codeAt, hcode, tableGet, eq_comm (a := c)]

/-! ### No code is a prefix of another (R132) -/

/-- A path that ends at a leaf goes no further, so a code that begins another one is all of it. -/
theorem Inv.code_eq_of_prefix (h : Inv s) {c d : Symbol} {p q : Bits} (hc : (c, p) ∈ s.code) (hd : (d, q) ∈ s.code)
    (hpq : p <+: q) : p = q := by
  have hv := h.codeValid_of_mem hc
  by_cases hr : ∃ c' w, s.nodes[s.root]? = some (.leaf c' w)
  · obtain ⟨c', w, hleaf⟩ := hr
    rw [h.code_of_leaf_root hv hleaf, List.mem_singleton, Prod.mk.injEq] at hc hd
    rw [hc.2, hd.2]
  · push Not at hr
    obtain ⟨i, w, hi, hleaf⟩ := (h.mem_code hv hr).1 hc
    obtain ⟨j, w', hj, -⟩ := (h.mem_code hv hr).1 hd
    obtain ⟨rest, rfl⟩ := hpq
    rw [descend_append, hi, Option.bind_some] at hj
    rw [(descend_of_leaf hleaf hj).1, List.append_nil]

theorem Inv.symbol_eq_of_prefix (h : Inv s) {c d : Symbol} {p q : Bits} (hc : codeAt s c = some p)
    (hd : codeAt s d = some q) (hpq : p <+: q) : c = d := by
  rw [h.codeAt_eq_some_iff] at hc hd
  obtain rfl := h.code_eq_of_prefix hc hd hpq
  exact h.code_injective hc hd

/-- Settles O22: a code that is a prefix of another is equal to it, and two symbols share no code. -/
theorem codesArePrefixFree : Obligations.CodesArePrefixFree := by
  unfold Obligations.CodesArePrefixFree
  exact fun s h c d p q hc hd hpq => h.symbol_eq_of_prefix hc hd hpq

/-! ### The codes fill the code space (R133) -/

theorem SymTree.codes_ne_nil (T : SymTree) (p : Bits) : T.codes p ≠ [] := by
  induction T generalizing p with
  | leaf c => exact List.cons_ne_nil _ _
  | node l r hl _ => exact List.append_ne_nil_of_left_ne_nil (hl _) _

/-- The path to an internal node is shorter than the longest code below it. -/
theorem SymTree.length_lt_of_codes_node {l r : SymTree} {p : Bits} {m : Nat}
    (hm : ∀ e ∈ (SymTree.node l r).codes p, e.2.length ≤ m) : p.length < m := by
  obtain ⟨e, he⟩ := List.exists_mem_of_ne_nil _ (l.codes_ne_nil (p ++ [false]))
  have hlong : (p ++ [false]).length ≤ e.2.length := (prefix_codes he).length_le
  rw [List.length_append, List.length_singleton] at hlong
  exact hlong.trans (hm e (List.mem_append_left _ he))

/-- Below a node at depth `d` the codes fill the share `2 ^ (-d)` of the space: its two children fill half of it each. -/
theorem SymTree.sum_two_pow_codes {T : SymTree} {p : Bits} {m : Nat} (hm : ∀ e ∈ T.codes p, e.2.length ≤ m) :
    ((T.codes p).map fun e => 2 ^ (m - e.2.length)).sum = 2 ^ (m - p.length) := by
  induction T generalizing p with
  | leaf c => simp
  | node l r hl hr =>
    have hlt := length_lt_of_codes_node hm
    have hleft := hl fun e he => hm e (List.mem_append_left _ he)
    have hright := hr fun e he => hm e (List.mem_append_right _ he)
    rw [List.length_append, List.length_singleton] at hleft hright
    rw [codes_node, List.map_append, List.sum_append, hleft, hright, ← Nat.two_mul, ← Nat.pow_succ']
    congr 1
    omega

/-- A bit string that begins with the path to a node and is as long as the longest code begins with a code below it: its
next bit says in which child to look. -/
theorem SymTree.exists_code_prefix {T : SymTree} {p w : Bits} (hm : ∀ e ∈ T.codes p, e.2.length ≤ w.length)
    (hp : p <+: w) : ∃ e ∈ T.codes p, e.2 <+: w := by
  induction T generalizing p with
  | leaf c => exact ⟨(c, p), List.mem_singleton_self _, hp⟩
  | node l r hl hr =>
    have hlt := length_lt_of_codes_node hm
    obtain ⟨rest, rfl⟩ := hp
    have hstep (b : Bool) (rest : Bits) : p ++ [b] <+: p ++ b :: rest := ⟨rest, (List.append_cons p b rest).symm⟩
    match rest with
    | [] => simp at hlt
    | false :: rest =>
      obtain ⟨e, he, hpre⟩ := hl (fun e he => hm e (List.mem_append_left _ he)) (hstep false rest)
      exact ⟨e, List.mem_append_left _ he, hpre⟩
    | true :: rest =>
      obtain ⟨e, he, hpre⟩ := hr (fun e he => hm e (List.mem_append_right _ he)) (hstep true rest)
      exact ⟨e, List.mem_append_right _ he, hpre⟩

/-- With two or more symbols the table is a reordering of the codes of the built tree (R130). -/
theorem Inv.exists_code_perm (h : Inv s) (hv : s.codeValid = true) (htwo : 2 ≤ s.nsym) :
    ∃ T, Safety.builtTree s = some T ∧ s.code.Perm (T.codes []) := by
  obtain ⟨hb, -, -⟩ := h.hasCode hv
  obtain ⟨T, hT⟩ := h.builtTree hb
  exact ⟨T, hT, h.code_perm hv (h.root_internal hb htwo) hT⟩

/-- Settles O23: the codes of the built tree fill the space; of two codes that begin one string, one begins the other. -/
theorem codesAreComplete : Obligations.CodesAreComplete := by
  unfold Obligations.CodesAreComplete
  refine fun s h hv => ⟨fun htwo => ?_, fun hone => ?_⟩
  · obtain ⟨T, -, hperm⟩ := h.exists_code_perm hv htwo
    have hm : ∀ e ∈ T.codes [], e.2.length ≤ s.maxLen := fun e he => h.length_le_maxLen (hperm.mem_iff.2 he)
    refine ⟨(hperm.map _).sum_eq.trans (SymTree.sum_two_pow_codes hm), fun w hw => ?_⟩
    obtain ⟨⟨c, p⟩, hmem, hp⟩ := SymTree.exists_code_prefix (hw ▸ hm) List.nil_prefix
    have hc : codeAt s c = some p := h.codeAt_eq_some_iff.2 (hperm.mem_iff.2 hmem)
    refine ⟨c, ⟨p, hc, hp⟩, ?_⟩
    rintro d ⟨q, hd, hq⟩
    obtain hpq | hqp := List.prefix_or_prefix_of_prefix hp hq
    · exact (h.symbol_eq_of_prefix hc hd hpq).symm
    · exact h.symbol_eq_of_prefix hd hc hqp
  · obtain ⟨c, hcode, hmax⟩ := h.code_of_one hv hone
    refine ⟨by simp [hcode, hmax], fun d p hd => ?_⟩
    rw [h.codeAt_eq_some_iff, hcode, List.mem_singleton, Prod.mk.injEq] at hd
    rw [hd.2]
    decide

/-! ### The weighted code length (R134) -/

/-- The codes below a node at depth `d` weigh what the tree there does. -/
theorem SymTree.sum_length_codes (freq : Symbol → Nat) (T : SymTree) (p : Bits) :
    ((T.codes p).map fun e => freq e.1 * e.2.length).sum = T.pathLength freq p.length := by
  induction T generalizing p with
  | leaf c => simp [SymTree.pathLength]
  | node l r hl hr => simp [SymTree.pathLength, hl, hr]

/-- In a rising table each symbol stands once. -/
theorem nodup_map_fst_of_rising {α : Type} {t : List (Symbol × α)} (h : rising t) : (t.map Prod.fst).Nodup :=
  List.pairwise_map.2 (h.imp fun hlt heq => (heq ▸ hlt).false)

/-- A sum over a text is a sum over its symbols, each as often as it stands there. -/
theorem sum_map_eq_sum_count {text syms : List Symbol} (hnodup : syms.Nodup) (hmem : ∀ c, c ∈ syms ↔ c ∈ text)
    (f : Symbol → Nat) : (text.map f).sum = (syms.map fun c => text.count c * f c).sum := by
  have hsyms : syms.toFinset = text.toFinset := Finset.ext fun c => by simp [hmem]
  rw [Finset.sum_list_map_count, ← hsyms, List.sum_toFinset _ hnodup]
  rfl

/-- A root that is a leaf weighs its symbol's count, and a root weighs all of FREQ (R42). -/
theorem Inv.count_of_leaf_root (h : Inv s) (hb : s.treeState = .built) {c : Symbol} {w : Weight}
    (hleaf : s.nodes[s.root]? = some (.leaf c w)) : count s c = freqTotal s := by
  rw [← h.runProperties.rootWeight hb, ← h.leaf_weight (by simp [hb]) hleaf]
  simp [nodeKey, hleaf, Node.weight]

/-- Settles O24: the codes of the built tree weigh its path length, and a text's bits are counted symbol by symbol. -/
theorem weightedCodeLength : Obligations.WeightedCodeLength := by
  unfold Obligations.WeightedCodeLength
  refine fun s h hv => ⟨fun htwo => ?_, fun hone => ?_, fun text htext => ?_⟩
  · obtain ⟨T, hT, hperm⟩ := h.exists_code_perm hv htwo
    exact ⟨T, hT, (hperm.map _).sum_eq.trans (T.sum_length_codes (count s) [])⟩
  · obtain ⟨hb, -, -⟩ := h.hasCode hv
    obtain ⟨c, w, hleaf, -⟩ := h.root_leaf hb hone
    simp [h.code_of_leaf_root hv hleaf, h.count_of_leaf_root hb hleaf]
  · have hmem (c : Symbol) : c ∈ s.code.map Prod.fst ↔ c ∈ text := by
      rw [h.mem_map_fst_code hv, ← List.count_pos_iff, htext, count]
      bv_omega
    rw [List.length_flatMap, sum_map_eq_sum_count (nodup_map_fst_of_rising h.rising_code) hmem, List.map_map]
    refine congrArg List.sum (List.map_congr_left fun e he => ?_)
    have hcode : codeAt s e.1 = some e.2 := h.codeAt_eq_some_iff.2 he
    simp only [Function.comp_apply, htext, hcode, Option.getD_some]

end Sys2Proof.Safety
end

section
/-! PROOFS. The statements of 43_encoder.md: ENC_SYM appends a whole code (R140), and a run of it the codes in order
(R141). -/

namespace Sys2Proof.Machine

open Sys2Proof.Safety

variable {s : State}

@[simp] theorem codeAt_pushEnc (p : Bits) (s : State) (c : Symbol) : codeAt (pushEnc p s) c = codeAt s c := rfl

@[simp] theorem pushEnc_nil (s : State) : pushEnc [] s = s := by simp [pushEnc]

@[simp] theorem pushEnc_pushEnc (p q : Bits) (s : State) : pushEnc q (pushEnc p s) = pushEnc (p ++ q) s := by
  simp [pushEnc]

/-- ENC_SYM of a symbol whose code fits passes every check (R140). -/
theorem exec_encSym_of_room {c : Symbol} {p : Bits} (he : s.error.code = .none) (hv : s.codeValid = true)
    (hp : codeAt s c = some p) (hroom : s.encq.length + p.length ≤ Config.encFifoBits) :
    exec (.encSym c) s = .next (pushEnc p s) := by
  simp only [exec_encSym he, if_pos hv, hp, if_pos hroom]

/-- Settles O25: with no check failing, ENC_SYM pushes the code. -/
theorem encSymAppendsCode : Obligations.EncSymAppendsCode := by
  unfold Obligations.EncSymAppendsCode
  exact fun _ _ _ he hv hp hroom => exec_encSym_of_room he hv hp hroom

/-- The codes of a text, joined in the order of its symbols (R141); a symbol without a code adds nothing. -/
def textBits (s : State) (syms : List Symbol) : Bits := syms.flatMap fun c => (codeAt s c).getD []

@[simp] theorem textBits_nil (s : State) : textBits s [] = [] := rfl

theorem textBits_cons {c : Symbol} {p : Bits} (hp : codeAt s c = some p) (syms : List Symbol) :
    textBits s (c :: syms) = p ++ textBits s syms := by
  simp [textBits, hp]

@[simp] theorem textBits_pushEnc (p : Bits) (s : State) (syms : List Symbol) :
    textBits (pushEnc p s) syms = textBits s syms := rfl

/-- A run of ENC_SYM is one push of the text's bits: each push leaves the table, the error record and the room that the
rest of the text still needs. -/
theorem runCommands_encSym {syms : List Symbol} (he : s.error.code = .none) (hv : s.codeValid = true)
    (hcodes : ∀ c ∈ syms, (codeAt s c).isSome)
    (hroom : s.encq.length + (textBits s syms).length ≤ Config.encFifoBits) :
    runCommands (syms.map .encSym) s = .next (pushEnc (textBits s syms) s) := by
  induction syms generalizing s with
  | nil => simp [runCommands]
  | cons c syms ih =>
    obtain ⟨hc, hrest⟩ := List.forall_mem_cons.1 hcodes
    obtain ⟨p, hp⟩ := Option.isSome_iff_exists.1 hc
    rw [textBits_cons hp, List.length_append] at hroom
    have hfirst : exec (.encSym c) s = .next (pushEnc p s) := exec_encSym_of_room he hv hp (by omega)
    have hroom' : (pushEnc p s).encq.length + (textBits (pushEnc p s) syms).length ≤ Config.encFifoBits := by
      rw [pushEnc_encq, List.length_append, textBits_pushEnc]
      omega
    rw [List.map_cons, runCommands, hfirst, andThen_next, ih (s := pushEnc p s) he hv hrest hroom', textBits_pushEnc,
      pushEnc_pushEnc, textBits_cons hp]

/-- Settles O26, by induction on the text. -/
theorem encoderConcatenatesInOrder : Obligations.EncoderConcatenatesInOrder := by
  unfold Obligations.EncoderConcatenatesInOrder
  exact fun _ _ he hv hcodes hroom => runCommands_encSym he hv hcodes hroom

end Sys2Proof.Machine
end

section
/-! PROOFS. The statements of 44_prefix_decoder.md: one accepted bit (R150, R151), the end of a stream (R152), when a bit is
refused as UNKNOWN_CODE (R154), and that decoding inverts encoding (R153). -/

namespace Sys2Proof.Machine

open Sys2Proof.Safety

variable {s : State}

/-! ### One accepted bit (R150, R151) -/

/-- A rising table lists a symbol once, so the symbols with the code `p` are exactly `[c]` when `c` is the only one. -/
theorem matchSet_eq_singleton {t : CodeTable} {p : Bits} {c : Symbol} (ht : rising t)
    (hc : ∀ d, tableGet t d = some p ↔ d = c) : matchSet t p = [c] := by
  have hnodup : (matchSet t p).Nodup := nodup_map_fst_of_rising (rising_filter ht _)
  refine List.perm_singleton.1 ((List.perm_ext_iff_of_nodup hnodup (List.nodup_singleton c)).2 fun d => ?_)
  rw [mem_matchSet, ← tableGet_eq_some_iff ht, hc, List.mem_singleton]

theorem matchSet_ne_singleton {t : CodeTable} {p : Bits} (hno : ∀ d, (d, p) ∉ t) (c : Symbol) : matchSet t p ≠ [c] :=
  fun hm => hno c (mem_matchSet.1 (hm ▸ List.mem_singleton_self c))

/-- With a table and room in DECQ, DEC_BIT looks DBUF with the bit up. -/
theorem exec_decBit_of_room {bit : Bool} (he : s.error.code = .none) (hv : s.codeValid = true)
    (hroom : s.decq.length ≠ Config.decFifoDepth) : exec (.decBit bit) s = decodeBuffer (s.dbuf ++ [bit]) s := by
  rw [exec_decBit he, if_pos hv, if_neg hroom]

theorem exec_decBit_of_full {bit : Bool} (he : s.error.code = .none) (hv : s.codeValid = true)
    (hfull : s.decq.length = Config.decFifoDepth) :
    exec (.decBit bit) s = .next { s with error := commandError .outFull s } := by
  rw [exec_decBit he, if_pos hv, if_pos hfull, raise_of_clear he]

theorem decodeBuffer_of_match {b : Bits} {c : Symbol} (hm : matchSet s.code b = [c]) :
    decodeBuffer b s = .next (setDbuf [] (pushDec c s)) := by
  rw [decodeBuffer, hm]

theorem decodeBuffer_of_no_match {b : Bits} (hno : ∀ d, (d, b) ∉ s.code) :
    decodeBuffer b s = if s.maxLen ≤ b.length then raise .unknownCode (setDbuf [] s) else .next (setDbuf b s) := by
  rw [decodeBuffer]
  split
  next c hm => exact absurd hm (matchSet_ne_singleton hno c)
  next => rfl

theorem decodeBuffer_of_short {b : Bits} (hno : ∀ d, (d, b) ∉ s.code) (hshort : b.length < s.maxLen) :
    decodeBuffer b s = .next (setDbuf b s) := by
  rw [decodeBuffer_of_no_match hno, if_neg hshort.not_ge]

theorem decodeBuffer_of_long {b : Bits} (he : s.error.code = .none) (hno : ∀ d, (d, b) ∉ s.code)
    (hlong : s.maxLen ≤ b.length) :
    decodeBuffer b s = .next { s with dbuf := [], error := commandError .unknownCode s } := by
  rw [decodeBuffer_of_no_match hno, if_pos hlong, raise_of_clear (s := setDbuf [] s) he]
  rfl

/-- Settles O27: the lookup of DBUF with the bit finds one symbol, or none and the bits are fewer than MAXLEN or not. -/
theorem decBitMatchesOrExtends : Obligations.DecBitMatchesOrExtends := by
  unfold Obligations.DecBitMatchesOrExtends
  intro s bit he hv hroom hrising
  have hlength : (s.dbuf ++ [bit]).length = s.dbuf.length + 1 := List.length_append
  have hmem (hno : ∀ d, codeAt s d ≠ some (s.dbuf ++ [bit])) (d : Symbol) : (d, s.dbuf ++ [bit]) ∉ s.code :=
    fun hd => hno d ((tableGet_eq_some_iff hrising).2 hd)
  rw [exec_decBit_of_room he hv hroom]
  refine ⟨fun c hc => ?_, fun hno hshort => ?_, fun hno hlong => ?_⟩
  · exact decodeBuffer_of_match (matchSet_eq_singleton hrising hc)
  · exact decodeBuffer_of_short (hmem hno) (hlength ▸ hshort)
  · exact decodeBuffer_of_long he (hmem hno) (hlength ▸ hlong)

/-! ### The end of a stream (R152) -/

theorem exec_decEnd_of_emptyBuffer (he : s.error.code = .none) (hv : s.codeValid = true) (hbuf : s.dbuf = []) :
    exec .decEnd s = .next s := by
  rw [exec_decEnd he, if_pos hv, if_pos hbuf]

/-- Settles O28: the two checks of DEC_END, in order. -/
theorem decEndChecksLeftover : Obligations.DecEndChecksLeftover := by
  unfold Obligations.DecEndChecksLeftover
  refine fun s he => ⟨fun hv => ?_, fun hv hbuf => exec_decEnd_of_emptyBuffer he hv hbuf, fun hv hbuf => ?_⟩
  · rw [exec_decEnd he, if_neg (by simp [hv]), raise_of_clear he]
  · rw [exec_decEnd he, if_pos hv, if_neg hbuf, raise_of_clear (s := setDbuf [] s) he]
    rfl

end Sys2Proof.Machine

namespace Sys2Proof.Safety

open Sys2Proof.Machine

variable {s : State}

/-! ### One accepted bit under the invariant (R154) -/

/-- A bit that completes a code is the symbol's, since no other symbol has that code (R132). -/
theorem Inv.exec_decBit_of_code (h : Inv s) {bit : Bool} {c : Symbol} (he : s.error.code = .none)
    (hroom : s.decq.length ≠ Config.decFifoDepth) (hc : (c, s.dbuf ++ [bit]) ∈ s.code) :
    exec (.decBit bit) s = .next (setDbuf [] (Machine.pushDec c s)) := by
  rw [exec_decBit_of_room he (h.codeValid_of_mem hc) hroom, decodeBuffer_of_match (h.matchSet_eq.2 hc)]

/-- A bit that leaves DBUF inside a code is kept: the code is longer, and what begins it is no code itself (R132). -/
theorem Inv.exec_decBit_of_prefix (h : Inv s) {bit : Bool} {c : Symbol} {p : Bits} (he : s.error.code = .none)
    (hroom : s.decq.length ≠ Config.decFifoDepth) (hc : (c, p) ∈ s.code) (hpre : s.dbuf ++ [bit] <+: p)
    (hne : s.dbuf ++ [bit] ≠ p) : exec (.decBit bit) s = .next (setDbuf (s.dbuf ++ [bit]) s) := by
  rw [exec_decBit_of_room he (h.codeValid_of_mem hc) hroom,
    decodeBuffer_of_short (fun d hd => hne (h.code_eq_of_prefix hd hc hpre)) (h.prefix_lt_maxLen hc hpre hne)]

/-- DBUF is shorter than MAXLEN, empty or not. -/
theorem Inv.length_dbuf_lt (h : Inv s) (hv : s.codeValid = true) : s.dbuf.length < s.maxLen := by
  by_cases hbuf : s.dbuf = []
  · obtain ⟨e, he⟩ := List.exists_mem_of_ne_nil _ (h.code_ne_nil hv)
    rw [hbuf]
    exact (List.length_pos_of_ne_nil (h.code_ne_nil_of_mem he)).trans_le (h.length_le_maxLen he)
  · exact (h.buffer hbuf).1

/-- A table is made from at least one symbol. -/
theorem Inv.nsym_pos (h : Inv s) (hv : s.codeValid = true) : 1 ≤ s.nsym := by
  obtain ⟨hb, -, -⟩ := h.hasCode hv
  have hcount := h.count_nodes (by simp [hb])
  rw [h.built hb, List.length_singleton] at hcount
  omega

/-- Against the fallback table DBUF is always empty, so one bit is all that is looked up. -/
theorem Inv.dbuf_eq_nil_of_one (h : Inv s) (hv : s.codeValid = true) (hone : s.nsym = 1) : s.dbuf = [] := by
  obtain ⟨c, -, hmax⟩ := h.code_of_one hv hone
  have hlt := h.length_dbuf_lt hv
  exact List.length_eq_zero_iff.1 (by omega)

theorem Inv.exec_decBit_of_one (h : Inv s) (he : s.error.code = .none) (hv : s.codeValid = true)
    (hroom : s.decq.length ≠ Config.decFifoDepth) (hone : s.nsym = 1) :
    (∃ c, exec (.decBit false) s = .next (setDbuf [] (Machine.pushDec c s))) ∧
      exec (.decBit true) s = .next { s with dbuf := [], error := commandError .unknownCode s } := by
  obtain ⟨c, hcode, hmax⟩ := h.code_of_one hv hone
  have hbuf := h.dbuf_eq_nil_of_one hv hone
  refine ⟨⟨c, h.exec_decBit_of_code he hroom (by simp [hcode, hbuf])⟩, ?_⟩
  rw [exec_decBit_of_room he hv hroom]
  exact decodeBuffer_of_long he (by simp [hcode, hbuf]) (by simp [hmax])

/-- With two or more symbols the codes are complete (R133): DBUF with the bit is a code or begins one. -/
theorem Inv.exec_decBit_of_two_le (h : Inv s) (he : s.error.code = .none) (hv : s.codeValid = true)
    (hroom : s.decq.length ≠ Config.decFifoDepth) (htwo : 2 ≤ s.nsym) (bit : Bool) :
    (∃ c, exec (.decBit bit) s = .next (setDbuf [] (Machine.pushDec c s))) ∨
      exec (.decBit bit) s = .next (setDbuf (s.dbuf ++ [bit]) s) := by
  by_cases hcode : ∃ c, (c, s.dbuf ++ [bit]) ∈ s.code
  · exact .inl (hcode.imp fun c hc => h.exec_decBit_of_code he hroom hc)
  · push Not at hcode
    obtain ⟨e, hmem, hpre, hne⟩ := h.extend_buffer hv bit hcode (h.root_internal (h.hasCode hv).1 htwo)
    exact .inr (h.exec_decBit_of_prefix he hroom hmem hpre hne)

/-- No command breaks the invariant. -/
theorem Inv.of_exec (h : Inv s) {i : Instr} {t : State} (hexec : exec i s = .next t) : Inv t :=
  h.of_execEffect (exec_effect hexec)

/-- Settles O31: the fallback table is the only incomplete one, and it lacks the code "1". -/
theorem unknownCodeOnlyForOneSymbol : Obligations.UnknownCodeOnlyForOneSymbol := by
  unfold Obligations.UnknownCodeOnlyForOneSymbol
  intro s bit h he hv hroom
  -- DBUF is short in any next state that keeps the table
  have hshort {t : State} (ht : exec (.decBit bit) s = .next t) (hvt : t.codeValid = s.codeValid)
      (hmax : t.maxLen = s.maxLen) : t.dbuf.length < s.maxLen := hmax ▸ (h.of_exec ht).length_dbuf_lt (hvt.trans hv)
  obtain hone | htwo : s.nsym = 1 ∨ 2 ≤ s.nsym := by have := h.nsym_pos hv; omega
  · obtain ⟨⟨c, hfalse⟩, htrue⟩ := h.exec_decBit_of_one he hv hroom hone
    cases bit with
    | false => exact ⟨_, hfalse, by simp [he], hshort hfalse rfl rfl⟩
    | true => exact ⟨_, htrue, by simp [hone, commandError], hshort htrue rfl rfl⟩
  · have hnot : ¬ (s.nsym = 1 ∧ bit = true) := by omega
    obtain ⟨c, hmatch⟩ | hkeep := h.exec_decBit_of_two_le he hv hroom htwo bit
    · exact ⟨_, hmatch, by simp [he, hnot], hshort hmatch rfl rfl⟩
    · exact ⟨_, hkeep, by simp [he, hnot], hshort hkeep rfl rfl⟩

/-! ### Decoding inverts encoding (R153) -/

/-- The decoder is in the middle of a stream of codes: what it has buffered and the bits still to come are the codes of the
symbols still to come out. -/
structure Decoding (s : State) (bits : Bits) (syms : List Symbol) : Prop where
  inv : Inv s
  noError : s.error.code = .none
  table : s.codeValid = true
  coded : ∀ c ∈ syms, (codeAt s c).isSome
  stream : s.dbuf ++ bits = textBits s syms

section Decoding

variable {bits : Bits} {syms : List Symbol}

/-- The next symbol's code begins with all of DBUF and goes on, since DBUF does not hold a whole code (R42). -/
theorem Decoding.exists_next {c : Symbol} (h : Decoding s bits (c :: syms)) :
    ∃ b rest, (c, s.dbuf ++ b :: rest) ∈ s.code ∧ bits = b :: rest ++ textBits s syms := by
  obtain ⟨p, hp⟩ := Option.isSome_iff_exists.1 (h.coded c List.mem_cons_self)
  have hmem := h.inv.codeAt_eq_some_iff.1 hp
  have hstream := h.stream
  rw [textBits_cons hp] at hstream
  have hnot : ¬ p <+: s.dbuf := by
    intro hpre
    by_cases hbuf : s.dbuf = []
    · exact h.inv.code_ne_nil_of_mem hmem (List.prefix_nil.1 (hbuf ▸ hpre))
    · obtain ⟨-, e, he, hbegins, hne⟩ := h.inv.buffer hbuf
      obtain rfl := h.inv.code_eq_of_prefix hmem he (hpre.trans hbegins)
      exact hne (hbegins.eq_of_length_le hpre.length_le)
  obtain ⟨rest, rfl, hbits⟩ | ⟨rest, hbuf, -⟩ := List.append_eq_append_iff.1 hstream
  · cases rest with
    | nil => exact absurd (by simp) hnot
    | cons b rest => exact ⟨b, rest, hmem, hbits⟩
  · exact absurd ⟨rest, hbuf.symm⟩ hnot

/-- A stream that has ended ended with the last symbol. -/
theorem Decoding.eq_nil (h : Decoding s [] syms) : syms = [] ∧ s.dbuf = [] := by
  cases syms with
  | nil => exact ⟨rfl, by simpa using h.stream⟩
  | cons c syms =>
    obtain ⟨b, rest, -, hbits⟩ := h.exists_next
    exact absurd hbits (by simp)

/-- The next bit completes the next symbol's code, which comes out, or it is kept; nothing is lost either way. -/
theorem Decoding.exec_decBit {b : Bool} (h : Decoding s (b :: bits) syms)
    (hroom : s.decq.length ≠ Config.decFifoDepth) :
    ∃ t syms', exec (.decBit b) s = .next t ∧ Decoding t bits syms' ∧ t.decq ++ syms' = s.decq ++ syms := by
  cases syms with
  | nil => exact absurd h.stream (by simp)
  | cons c syms =>
    obtain ⟨b', rest, hmem, hbits⟩ := h.exists_next
    obtain ⟨rfl, hrest⟩ := List.cons.inj hbits
    cases rest with
    | nil =>
      have hexec := h.inv.exec_decBit_of_code h.noError hroom hmem
      exact ⟨_, syms, hexec,
        { inv := h.inv.of_exec hexec, noError := h.noError, table := h.table
          coded := (List.forall_mem_cons.1 h.coded).2, stream := hrest }, by simp⟩
    | cons b' rest =>
      have hpre : s.dbuf ++ [b] <+: s.dbuf ++ b :: b' :: rest := ⟨b' :: rest, by simp⟩
      have hexec := h.inv.exec_decBit_of_prefix h.noError hroom hmem hpre (by simp)
      exact ⟨_, c :: syms, hexec,
        { inv := h.inv.of_exec hexec, noError := h.noError, table := h.table, coded := h.coded
          stream := (List.append_cons _ _ _).symm.trans h.stream }, rfl⟩

/-- A read of DEC_OUT_DATA leaves the decoder's table and buffer. -/
theorem Decoding.of_read (h : Decoding s bits syms) : Decoding (popDec s) bits syms :=
  { inv := h.inv.popDec, noError := h.noError, table := h.table, coded := h.coded, stream := h.stream }

/-- While an error is pending the decoder takes no bit, and the first error stays (R183, R185). -/
theorem feedDecoder_of_pending {k : ErrorCode} {stream : List (Option Bool)} (hk : k ≠ .none) (he : s.error.code = k) :
    ∃ out t, feedDecoder stream s = some (out, t) ∧ t.error.code = k := by
  induction stream generalizing s with
  | nil => exact ⟨[], s, rfl, he⟩
  | cons x stream ih =>
    cases x with
    | none =>
      obtain ⟨out, t, hfeed, ht⟩ := ih (s := popDec s) he
      exact ⟨s.decq.head?.toList ++ out, t, by simp only [feedDecoder, readDecOutData_state, hfeed], ht⟩
    | some b =>
      obtain ⟨out, t, hfeed, ht⟩ := ih (s := rejectCommand s) he
      exact ⟨out, t, by simp only [feedDecoder, exec_of_pending (i := .decBit b) rfl (he ▸ hk), hfeed], ht⟩

/-- The whole stream: each bit and each read leaves the decoder in the middle of what remains, until DECQ is full or the
stream ends. -/
theorem Decoding.feed {stream : List (Option Bool)} (h : Decoding s (stream.filterMap id) syms) :
    ∃ out t, feedDecoder stream s = some (out, t) ∧
      (t.error.code = .outFull ∨ out ++ t.decq = s.decq ++ syms ∧ Decoding t [] []) := by
  induction stream generalizing s syms with
  | nil =>
    obtain ⟨rfl, -⟩ := h.eq_nil
    exact ⟨[], s, rfl, .inr ⟨by simp, h⟩⟩
  | cons x stream ih =>
    cases x with
    | none =>
      obtain ⟨out, t, hfeed, hend⟩ := ih h.of_read
      refine ⟨s.decq.head?.toList ++ out, t, by simp only [feedDecoder, readDecOutData_state, hfeed], ?_⟩
      refine hend.imp_right fun ⟨hout, ht⟩ => ⟨?_, ht⟩
      rw [List.append_assoc, hout, popDec_decq, ← List.append_assoc]
      cases s.decq <;> rfl
    | some b =>
      by_cases hfull : s.decq.length = Config.decFifoDepth
      · obtain ⟨out, t, hfeed, ht⟩ := feedDecoder_of_pending (stream := stream)
          (s := { s with error := commandError .outFull s }) (k := .outFull) (by decide) rfl
        exact ⟨out, t, by simp only [feedDecoder, exec_decBit_of_full h.noError h.table hfull, hfeed], .inl ht⟩
      · obtain ⟨u, syms', hexec, hu, hdecq⟩ := h.exec_decBit hfull
        obtain ⟨out, t, hfeed, hend⟩ := ih hu
        exact ⟨out, t, by simp only [feedDecoder, hexec, hfeed], hdecq ▸ hend⟩

end Decoding

/-- Settles O30: with DBUF empty the stream is the codes of all the symbols, and at its end none is left to come. -/
theorem decodingInvertsEncoding : Obligations.DecodingInvertsEncoding := by
  unfold Obligations.DecodingInvertsEncoding
  intro s syms stream h he hv hbuf hcoded hstream
  have hstart : Decoding s (stream.filterMap id) syms :=
    { inv := h, noError := he, table := hv, coded := hcoded, stream := by rw [hbuf, hstream]; rfl }
  obtain ⟨out, t, hfeed, hfull | ⟨hout, ht⟩⟩ := hstart.feed
  · exact ⟨out, t, hfeed, .inr hfull, fun hnone => absurd (hnone.symm.trans hfull) (by decide)⟩
  · have hend := ht.eq_nil.2
    exact ⟨out, t, hfeed, .inl ht.noError, fun _ => ⟨hout, hend, exec_decEnd_of_emptyBuffer ht.noError ht.table hend⟩⟩

end Sys2Proof.Safety
end

section
/-! PROOFS. The statements of 45_host_access.md: the words of the plain registers (R176, R178), the FREQ window (R167, R168),
CMD writes and ignored writes (R166, R177), the output FIFOs (R170, R172) and the NODE, CODE and DEC_BUF_BITS windows
(R173 to R175). -/

namespace Sys2Proof

/-- Fields joined into a word are the digits of its number. -/
theorem toNat_append_eq_mul_add {v w : Nat} (x : BitVec v) (y : BitVec w) :
    (x ++ y).toNat = x.toNat * 2 ^ w + y.toNat := by
  rw [BitVec.toNat_append, ← Nat.shiftLeft_add_eq_or_of_lt y.isLt, Nat.shiftLeft_eq]

end Sys2Proof

namespace Sys2Proof.Machine

variable {s : State} {off : Offset}

/-! ### The windows of the address map (R52, R55 to R57) -/

theorem regionOf_decBufBits {j : Nat} (hj : j < 8) (h : off.toNat = 0x0040 + 4 * j) :
    regionOf off = .decBufBits j := by
  have hword : (off.toNat - 0x0040) / 4 = j := by omega
  simp (disch := omega) only [regionOf, if_pos, if_neg, hword]

theorem regionOf_freqWindow {c : Symbol} (h : off.toNat = 0x0400 + 4 * c.toNat) : regionOf off = .freq c := by
  have hc := c.isLt
  have hword : (off.toNat - 0x0400) / 4 = c.toNat := by omega
  simp (disch := omega) only [regionOf, if_pos, if_neg, hword, BitVec.ofNat_toNat, BitVec.setWidth_eq]

theorem regionOf_nodeWindow {i k : Nat} (hi : i < 511) (hk : k < 4) (h : off.toNat = 0x1000 + 16 * i + 4 * k) :
    regionOf off = .node i k := by
  have hnode : (off.toNat - 0x1000) / 16 = i := by omega
  have hword : (off.toNat - 0x1000) % 16 / 4 = k := by omega
  simp (disch := omega) only [regionOf, if_pos, if_neg, hnode, hword]

theorem regionOf_codeWindow {c : Symbol} {k : Nat} (hk : k < 16) (h : off.toNat = 0x4000 + 64 * c.toNat + 4 * k) :
    regionOf off = .code c k := by
  have hc := c.isLt
  have hentry : (off.toNat - 0x4000) / 64 = c.toNat := by omega
  have hword : (off.toNat - 0x4000) % 64 / 4 = k := by omega
  simp (disch := omega) only [regionOf, if_pos, if_neg, hentry, hword, BitVec.ofNat_toNat, BitVec.setWidth_eq]

/-- The reserved offsets (R53). -/
theorem regionOf_reserved
    (h : off = 0x003C ∨ (0x0060 ≤ off.toNat ∧ off.toNat < 0x0400) ∨ (0x0800 ≤ off.toNat ∧ off.toNat < 0x1000) ∨
      (0x2FF0 ≤ off.toNat ∧ off.toNat < 0x4000) ∨ 0x8000 ≤ off.toNat) :
    regionOf off = .reserved := by
  rcases h with rfl | h | h | h | h
  · rfl
  all_goals simp (disch := omega) only [regionOf, if_pos, if_neg]

/-! ### The status-class words (R23, R24, R40) -/

theorem toNat_statusWord (s : State) :
    (statusWord s).toNat =
      s.codeValid.toNat * 16 + s.treeState.bits.toNat * 4 + (errFlag s).toNat * 2 + s.busy.toNat := by
  rw [statusWord]
  simp only [toNat_append_eq_mul_add, BitVec.toNat_ofBool, BitVec.toNat_ofNat]
  omega

theorem toNat_errorWord (e : ErrorReg) :
    (errorWord e).toNat =
      e.info.toNat * 2 ^ 16 + e.src.bit.toNat * 2 ^ 9 + e.multi.toNat * 2 ^ 8 + e.code.number.toNat := by
  rw [errorWord]
  simp only [toNat_append_eq_mul_add, BitVec.toNat_ofBool, BitVec.toNat_ofNat]
  omega

/-- ERR is set exactly while some code is recorded (R23). -/
theorem errFlag_eq_decide (s : State) : errFlag s = decide (s.error.code ≠ .none) := by
  rw [errFlag, Bool.eq_iff_iff, bne_iff_ne, decide_eq_true_iff]

/-- Settles O40: STATUS and ERROR are read as the digits of their fields, and the other registers are the address map's. -/
theorem plainRegistersRead : Obligations.PlainRegistersRead := by
  unfold Obligations.PlainRegistersRead
  refine ⟨fun s => ⟨memRead_id s, memRead_params s, ?_, ?_, ?_, ?_⟩, fun s hb => ?_⟩
  · rw [memRead_status]
  · rw [memRead_error]
  · rw [memRead_status, toNat_statusWord, errFlag_eq_decide]
    cases s.treeState <;> rfl
  · rw [memRead_error, toNat_errorWord]
    cases s.error.src <;> cases s.error.code <;> rfl
  · have hidle := memRead_of_idle hb
    exact ⟨hidle _, hidle _, hidle _, hidle _, hidle _, hidle _, hidle _, hidle _⟩

/-! ### Writes while no command is in flight (R166, R167, R177) -/

theorem memWrite_of_idle (hb : s.busy = false) (off : Offset) (v : Word) : memWrite off v s = writeIdle off v s := by
  simp [memWrite, hb]

theorem memWrite_freq {c : Symbol} (hb : s.busy = false) (h : off.toNat = 0x0400 + 4 * c.toNat) (v : Word) :
    memWrite off v s = writeFreqIdle off c v s := by
  rw [memWrite_of_idle hb, writeIdle, regionOf_freqWindow h]

theorem memRead_freq {c : Symbol} (hb : s.busy = false) (h : off.toNat = 0x0400 + 4 * c.toNat) :
    memRead off s = (freqAt s c, s) := by
  rw [memRead_of_idle hb, regionOf_freqWindow h, readIdle]

/-- Settles O42: the offset names the entry, which is written while EMPTY only and read at any time. -/
theorem freqWriteAndRead : Obligations.FreqWriteAndRead := by
  unfold Obligations.FreqWriteAndRead
  intro s c v off hb hoff
  rw [memWrite_freq hb hoff, writeFreqIdle]
  refine ⟨fun hempty => ⟨Memory.write s.freq c v, if_pos hempty, fun d => ?_, fun hwf => Memory.wf_write hwf c v⟩,
    fun hseeded => if_neg hseeded, memRead_freq hb hoff⟩
  rw [Memory.read_write]
  simp only [eq_comm]

theorem memWrite_cmd (hb : s.busy = false) (v : Word) : memWrite 0x0008 v s = latchCommand v s :=
  memWrite_of_idle hb _ v

/-- Settles O43: a write with an effect is one at CMD or in the FREQ window, and a reserved offset names no register. -/
theorem cmdWriteLatchesOthersIgnored : Obligations.CmdWriteLatchesOthersIgnored := by
  unfold Obligations.CmdWriteLatchesOthersIgnored
  intro s off v hb ha
  refine ⟨fun hcmd => ?_, fun hcmd hfreq => ?_, fun hreserved => ?_⟩
  · rw [hcmd, memWrite_cmd hb, latchCommand]
  · have hwindow (c : Symbol) : regionOf off ≠ .freq c := fun h => by have := regionOf_freq h; omega
    have hcmdRegion : regionOf off ≠ .cmd := mt (regionOf_eq_plainRegister_iff ha (n := 2) (by decide)).1 hcmd
    rcases memWrite_cases off v s with ⟨hbusy, -⟩ | ⟨-, ⟨c, h, -⟩ | ⟨c, h, -⟩ | ⟨h, -⟩ | h⟩
    · exact absurd hbusy (by simp [hb])
    · exact absurd h (hwindow c)
    · exact absurd h (hwindow c)
    · exact absurd h hcmdRegion
    · exact h
  · rw [memRead_of_idle hb, regionOf_reserved hreserved, readIdle]

/-! ### The output FIFOs (R170, R172) -/

/-- Bit `j` of a bit string, counted from its first, stands in its number counted from the most significant. -/
theorem testBit_bitsVal {p : Bits} {j : Nat} (hj : j < p.length) :
    (bitsVal p).testBit (p.length - 1 - j) = (p[j]?).getD false := by
  induction p generalizing j with
  | nil => simp at hj
  | cons b p ih =>
    rw [bitsVal_cons, Nat.mul_comm, Nat.testBit_two_pow_mul_add _ (bitsVal_lt p), List.length_cons, Nat.add_sub_cancel]
    cases j with
    | zero => cases b <;> simp
    | succ j =>
      have hj : j < p.length := Nat.lt_of_succ_lt_succ hj
      rw [if_pos (by omega), List.getElem?_cons_succ, ← ih hj, Nat.sub_add_eq, Nat.sub_right_comm]

/-- The first bit stands at bit 31 of the packed word, and below the last bit all are 0. -/
theorem getLsbD_packMsb {p : Bits} (hp : p.length ≤ 32) {j : Nat} (hj : j < 32) :
    (packMsb p).getLsbD (31 - j) = (p[j]?).getD false := by
  have hbit : 31 - j < 32 := by omega
  rw [packMsb, BitVec.getLsbD_ofNat, decide_eq_true hbit, Bool.true_and, Nat.testBit_mul_two_pow]
  by_cases hin : j < p.length
  · have hplace : 31 - j - (32 - p.length) = p.length - 1 - j := by omega
    rw [decide_eq_true (by omega), Bool.true_and, hplace, testBit_bitsVal hin]
  · rw [decide_eq_false (by omega), Bool.false_and, List.getElem?_eq_none (by omega), Option.getD_none]

/-- A decoded symbol is shown beside VALID at bit 8. -/
theorem toNat_validSymbol (c : Symbol) : (0x100#32 ||| c.setWidth 32).toNat = 256 + c.toNat := by
  have hc : c.toNat < 2 ^ 8 := c.isLt
  rw [BitVec.toNat_or, BitVec.toNat_setWidth_of_le (by decide)]
  exact (Nat.two_pow_add_eq_or_of_lt hc 1).symm

/-- Settles O44: each of the two reads is its FIFO's pop, and shows what it pops. -/
theorem outputReadsPop : Obligations.OutputReadsPop := by
  unfold Obligations.OutputReadsPop
  refine fun s hb => ⟨⟨_, memRead_encOutData hb, fun j hj => ?_⟩, fun hempty => ?_, fun c rest hdecq => ?_⟩
  · rw [getLsbD_packMsb (List.length_take_le 32 _) hj, List.getElem?_take_of_lt hj]
  · simp only [memRead_decOutData hb, readDecOutData, hempty]
  · refine ⟨0x100#32 ||| c.setWidth 32, ?_, toNat_validSymbol c⟩
    simp only [memRead_decOutData hb, readDecOutData, hdecq, popDec, List.drop_one, List.tail_cons]

/-! ### The NODE window (R55, R174) -/

section NodeFields

variable (c : Symbol) (w : Weight) (l r : Nat)

@[simp] theorem Node.isLeaf_leaf : (Node.leaf c w).isLeaf = true := rfl
@[simp] theorem Node.sym_leaf : (Node.leaf c w).sym = c := rfl
@[simp] theorem Node.weight_leaf : (Node.leaf c w).weight = w := rfl
@[simp] theorem Node.left_leaf : (Node.leaf c w).left = 0 := rfl
@[simp] theorem Node.right_leaf : (Node.leaf c w).right = 0 := rfl
@[simp] theorem Node.isLeaf_internal : (Node.internal w l r).isLeaf = false := rfl
@[simp] theorem Node.sym_internal : (Node.internal w l r).sym = 0#8 := rfl
@[simp] theorem Node.weight_internal : (Node.internal w l r).weight = w := rfl
@[simp] theorem Node.left_internal : (Node.internal w l r).left = l := rfl
@[simp] theorem Node.right_internal : (Node.internal w l r).right = r := rfl

end NodeFields

/-- The four words of an allocated node; its two indices are below 512 where they are shown. -/
theorem toNat_nodeWord (n : Node) (inPq : Bool) {k : Nat} (hk : k < 4) (hchild : k = 3 → n.left < 512 ∧ n.right < 512) :
    (nodeWord n inPq k).toNat =
      if k = 0 then n.sym.toNat * 256 + inPq.toNat * 2 + n.isLeaf.toNat
      else if k = 1 then n.weight.toNat % 2 ^ 32
      else if k = 2 then n.weight.toNat / 2 ^ 32
      else n.right * 2 ^ 16 + n.left := by
  match k, hk with
  | 0, _ =>
    simp only [nodeWord, toNat_append_eq_mul_add, BitVec.toNat_ofBool, BitVec.toNat_ofNat, if_true]
    omega
  | 1, _ => rw [nodeWord, BitVec.extractLsb'_toNat]; rfl
  | 2, _ =>
    have hhigh : n.weight.toNat / 2 ^ 32 < 2 ^ 8 := Nat.div_lt_of_lt_mul n.weight.isLt
    have hmod : (n.weight.extractLsb' 32 8).toNat = n.weight.toNat / 2 ^ 32 := by
      rw [BitVec.extractLsb'_toNat, Nat.shiftRight_eq_div_pow, Nat.mod_eq_of_lt hhigh]
    rw [nodeWord, BitVec.toNat_setWidth_of_le (by decide), hmod]
    rfl
  | 3, _ =>
    obtain ⟨hl, hr⟩ : n.left < 2 ^ 9 ∧ n.right < 2 ^ 9 := hchild rfl
    have hwidth : (nodeWord n inPq 3).toNat = n.right % 2 ^ 9 * 2 ^ 16 + n.left % 2 ^ 9 := by
      simp only [nodeWord, toNat_append_eq_mul_add, BitVec.toNat_ofNat]
      omega
    rw [hwidth, Nat.mod_eq_of_lt hl, Nat.mod_eq_of_lt hr]
    rfl

theorem memRead_node {i k : Nat} (hb : s.busy = false) (hi : i < 511) (hk : k < 4)
    (h : off.toNat = 0x1000 + 16 * i + 4 * k) : memRead off s = readNode i k s := by
  rw [memRead_of_idle hb, regionOf_nodeWindow hi hk h, readIdle]

theorem readNode_of_getElem? {n : Node} {i : Nat} (h : s.nodes[i]? = some n) (k : Nat) :
    readNode i k s = (nodeWord n (decide (i ∈ s.pq)) k, s) := by
  simp only [readNode, h]

theorem readNode_of_length_le {i : Nat} (h : s.nodes.length ≤ i) (k : Nat) : readNode i k s = drawWord s := by
  simp only [readNode, List.getElem?_eq_none h]

/-- Settles O45: a leaf and an internal node are shown by the same words, in which the fields they lack are 0. -/
theorem nodeWindow : Obligations.NodeWindow := by
  unfold Obligations.NodeWindow
  intro s i k off hb hi hk hoff
  rw [memRead_node hb hi hk hoff]
  refine ⟨fun c w hn => ?_, fun w l r hn hchild => ?_, fun hlen => readNode_of_length_le hlen k⟩
  · rw [readNode_of_getElem? hn]
    refine ⟨rfl, ?_⟩
    rw [toNat_nodeWord (.leaf c w) _ hk fun _ => ⟨by simp, by simp⟩, Node.isLeaf_leaf, Node.sym_leaf, Node.weight_leaf,
      Node.left_leaf, Node.right_leaf, Nat.zero_mul, Bool.toNat_true]
  · rw [readNode_of_getElem? hn]
    refine ⟨rfl, ?_⟩
    rw [toNat_nodeWord (.internal w l r) _ hk hchild, Node.isLeaf_internal, Node.sym_internal, Node.weight_internal,
      Node.left_internal, Node.right_internal, BitVec.toNat_zero, Nat.zero_mul, Nat.zero_add, Bool.toNat_false,
      Nat.add_zero]

/-! ### The CODE window and DEC_BUF_BITS (R56, R57, R173, R175) -/

theorem toNat_bitsWord {p : Bits} (hp : p.length ≤ 256) (j : Nat) :
    (bitsWord p j).toNat = bitsVal p / 2 ^ (32 * j) % 2 ^ 32 := by
  have hval : bitsVal p < 2 ^ 256 := (bitsVal_lt p).trans_le (Nat.pow_le_pow_right (by decide) hp)
  rw [bitsWord, BitVec.extractLsb'_toNat, BitVec.toNat_ofNat, Nat.mod_eq_of_lt hval, Nat.shiftRight_eq_div_pow]

theorem toNat_codeWord {p : Bits} (hp : p.length ≤ 255) (k : Nat) :
    (codeWord (some p) k).toNat =
      if k = 0 then p.length * 256 + 1
      else if k ≤ 8 then bitsVal p / 2 ^ (32 * (k - 1)) % 2 ^ 32
      else 0 := by
  rw [codeWord]
  split_ifs
  · simp only [toNat_append_eq_mul_add, BitVec.toNat_ofNat]
    omega
  · exact toNat_bitsWord (by omega) _
  · rfl

theorem memRead_code {c : Symbol} {k : Nat} (hb : s.busy = false) (hk : k < 16)
    (h : off.toNat = 0x4000 + 64 * c.toNat + 4 * k) : memRead off s = (codeWord (codeAt s c) k, s) := by
  rw [memRead_of_idle hb, regionOf_codeWindow hk h, readIdle]

theorem memRead_decBufBits {j : Nat} (hb : s.busy = false) (hj : j < 8) (h : off.toNat = 0x0040 + 4 * j) :
    memRead off s = (bitsWord s.dbuf j, s) := by
  rw [memRead_of_idle hb, regionOf_decBufBits hj h, readIdle]

/-- Settles O46: both windows show `val` of their bit string word by word. -/
theorem bitStringWindows : Obligations.BitStringWindows := by
  unfold Obligations.BitStringWindows
  refine ⟨fun s c k off hb hk hoff => ?_, fun s j off hb hj hlen hoff => ?_, fun s hb => memRead_of_idle hb _⟩
  · rw [memRead_code hb hk hoff]
    refine ⟨rfl, fun hnone => ?_, fun p hp hlen => ?_⟩
    · rw [hnone, codeWord]
    · rw [hp, toNat_codeWord hlen]
  · rw [memRead_decBufBits hb hj hoff]
    exact ⟨rfl, toNat_bitsWord (by omega) j⟩

end Sys2Proof.Machine
end

section
/-! PROOFS. The statements of 60_exceptions.md: what recording an error does (R183), which commands raise which error and leave
all else unchanged (R181, R182, R184), the gate of a pending error (R185, R187) and the idle block (R197). -/

namespace Sys2Proof.Machine

open Sys2Proof.Safety

variable {s t : State} {i : Instr}

/-! ### Errors are precise (R182, R184) -/

/-- The two errors that empty DBUF (R151, R152). -/
def EmptiesDbuf (i : Instr) (k : ErrorCode) : Prop :=
  ((∃ b, i = .decBit b) ∧ k = .unknownCode) ∨ (i = .decEnd ∧ k = .truncatedOrCorruptInput)

/-- An answer of the command `i` from `s` is precise (R184): when its next state has an error, that is the command's own and
the only change, but for the two errors that empty DBUF. -/
def RaisesPrecisely (i : Instr) (s : State) (o : Answer) : Prop :=
  ∀ t, o = .next t → t.error.code ≠ .none →
    t.error = commandError t.error.code s ∧
      (t = { s with error := t.error } ∨ EmptiesDbuf i t.error.code ∧ t = { s with error := t.error, dbuf := [] })

namespace RaisesPrecisely

theorem of_next (ht : t.error.code = .none) : RaisesPrecisely i s (.next t) := by
  rintro _ ⟨⟩ hne
  exact absurd ht hne

theorem of_fault (r : Fault) : RaisesPrecisely i s (.fault r) := nofun

theorem of_raise (he : s.error.code = .none) (k : ErrorCode) : RaisesPrecisely i s (raise k s) := by
  rw [raise_of_clear he]
  rintro _ ⟨⟩ -
  exact ⟨rfl, .inl rfl⟩

theorem of_raise_emptying {k : ErrorCode} (he : s.error.code = .none) (hk : EmptiesDbuf i k) :
    RaisesPrecisely i s (raise k (setDbuf [] s)) := by
  rw [raise_of_clear (s := setDbuf [] s) he]
  rintro _ ⟨⟩ -
  exact ⟨rfl, .inr ⟨hk, rfl⟩⟩

/-- A merge step has no check of its own. -/
theorem of_mergeStep {u : State} (hu : u.error.code = .none) (tie : TieSelect) :
    RaisesPrecisely i s (mergeStep tie u) := by
  intro t h hne
  obtain ⟨-, rfl⟩ := mergeStep_eq_next.1 h
  rw [mergeNext_frame] at hne
  exact absurd hu hne

theorem of_mergeAll {u : State} (hu : u.error.code = .none) (tie : TieSelect) (fuel : Nat) :
    RaisesPrecisely i s (mergeAll tie fuel u) := by
  intro t h hne
  obtain ⟨hframe, -⟩ := mergeAll_frame h
  rw [hframe] at hne
  exact absurd hu hne

theorem of_seedThen {run : State → Answer} (he : s.error.code = .none)
    (hrun : RaisesPrecisely i s (run (seedNext s))) : RaisesPrecisely i s (seedThen s run) := by
  rw [seedThen]
  split
  · exact of_raise he _
  · exact hrun

theorem of_decodeBuffer (he : s.error.code = .none) (bit : Bool) (b : Bits) :
    RaisesPrecisely (.decBit bit) s (decodeBuffer b s) := by
  rw [decodeBuffer]
  split
  · exact of_next he
  · split
    · exact of_raise_emptying he (.inl ⟨⟨bit, rfl⟩, rfl⟩)
    · exact of_next he

/-- Past the gate, each command ends in one of its checks or without an error. -/
theorem of_exec (he : s.error.code = .none) : RaisesPrecisely i s (exec i s) := by
  cases i with
  | nop => exact of_next he
  | clearAll => exact of_next rfl
  | clearErr => exact of_next rfl
  | treeSeed =>
    rw [exec_treeSeed he]
    split
    · exact of_seedThen he (of_next he)
    · exact of_raise he _
  | treeMerge =>
    rw [exec_treeMerge he]
    split
    · exact of_mergeStep he _
    · exact of_raise he _
  | treeBuild =>
    rw [exec_treeBuild he]
    split
    · exact of_raise he _
    · exact of_seedThen he (of_mergeAll (u := seedNext s) he _ _)
    · exact of_mergeAll he _ _
  | codegen =>
    rw [exec_codegen he]
    split
    · split
      · exact of_next he
      · exact of_fault _
    · exact of_raise he _
  | encSym c =>
    rw [exec_encSym he]
    split
    · split
      · exact of_raise he _
      · split
        · exact of_next he
        · exact of_raise he _
    · exact of_raise he _
  | decBit bit =>
    rw [exec_decBit he]
    split
    · split
      · exact of_raise he _
      · exact of_decodeBuffer he _ _
    · exact of_raise he _
  | decEnd =>
    rw [exec_decEnd he]
    split
    · split
      · exact of_next he
      · exact of_raise_emptying he (.inr ⟨rfl, rfl⟩)
    · exact of_raise he _

end RaisesPrecisely

/-- Settles O34: every check of a command comes before its effects, and only the decoder drops DBUF first. -/
theorem errorsArePrecise : Obligations.ErrorsArePrecise := by
  unfold Obligations.ErrorsArePrecise
  exact fun _ t _ he h hne => RaisesPrecisely.of_exec he t h hne

/-! ### The checks of the tree and table commands (R181) -/

theorem exec_treeSeed_of_not_empty (he : s.error.code = .none) (h : s.treeState ≠ .empty) :
    exec .treeSeed s = .next { s with error := commandError .sequence s } := by
  rw [exec_treeSeed he, if_neg h, raise_of_clear he]

theorem exec_treeMerge_of_not_building (he : s.error.code = .none) (h : s.treeState ≠ .building) :
    exec .treeMerge s = .next { s with error := commandError .sequence s } := by
  rw [exec_treeMerge he, if_neg h, raise_of_clear he]

theorem exec_treeBuild_of_built (he : s.error.code = .none) (h : s.treeState = .built) :
    exec .treeBuild s = .next { s with error := commandError .sequence s } := by
  simp only [exec_treeBuild he, h, raise_of_clear he]

theorem exec_treeBuild_of_empty (he : s.error.code = .none) (h : s.treeState = .empty) :
    exec .treeBuild s = seedThen s fun t => mergeAll openTie t.pq.length t := by
  simp only [exec_treeBuild he, h]

theorem exec_codegen_of_not_built (he : s.error.code = .none) (h : s.treeState ≠ .built) :
    exec .codegen s = .next { s with error := commandError .sequence s } := by
  rw [exec_codegen he, if_neg h, raise_of_clear he]

/-- A canonical store without a present symbol lists nothing. -/
theorem present_eq_nil (hwf : Memory.wf s.freq = true) (hzero : ∀ c, freqAt s c = 0) : present s.freq = [] := by
  rw [present_of_wf hwf]
  exact List.eq_nil_iff_forall_not_mem.2 fun e hmem => (freqAt_ne_zero_of_wf hwf).2 ⟨e.2, hmem⟩ (hzero e.1)

theorem seedThen_of_absent (he : s.error.code = .none) (h : present s.freq = []) (run : State → Answer) :
    seedThen s run = .next { s with error := commandError .emptyAlphabet s } := by
  rw [seedThen, if_pos h, raise_of_clear he]

/-- Settles O14: the check of TREE_STATE comes first, the one of the alphabet next. -/
theorem treeCommandErrors : Obligations.TreeCommandErrors := by
  unfold Obligations.TreeCommandErrors
  refine fun s he => ⟨exec_treeSeed_of_not_empty he, exec_treeMerge_of_not_building he, exec_treeBuild_of_built he,
    exec_codegen_of_not_built he, fun hempty hwf hzero => ?_⟩
  have hnone := present_eq_nil hwf hzero
  constructor
  · rw [exec_treeSeed he, if_pos hempty, seedThen_of_absent he hnone]
  · rw [exec_treeBuild_of_empty he hempty, seedThen_of_absent he hnone]

/-! ### The checks of the stream commands (R181, R186) -/

theorem exec_encSym_of_no_table (he : s.error.code = .none) (hv : s.codeValid = false) (c : Symbol) :
    exec (.encSym c) s = .next { s with error := commandError .sequence s } := by
  rw [exec_encSym he, if_neg (by simp [hv]), raise_of_clear he]

theorem exec_encSym_of_no_code {c : Symbol} (he : s.error.code = .none) (hv : s.codeValid = true)
    (hc : codeAt s c = none) : exec (.encSym c) s = .next { s with error := commandError .unknownSymbol s } := by
  simp only [exec_encSym he, if_pos hv, hc, raise_of_clear he]

theorem exec_encSym_of_no_room {c : Symbol} {p : Bits} (he : s.error.code = .none) (hv : s.codeValid = true)
    (hp : codeAt s c = some p) (hfull : Config.encFifoBits < s.encq.length + p.length) :
    exec (.encSym c) s = .next { s with error := commandError .outFull s } := by
  simp only [exec_encSym he, if_pos hv, hp, if_neg hfull.not_ge, raise_of_clear he]

theorem exec_decBit_of_no_table (he : s.error.code = .none) (hv : s.codeValid = false) (bit : Bool) :
    exec (.decBit bit) s = .next { s with error := commandError .sequence s } := by
  rw [exec_decBit he, if_neg (by simp [hv]), raise_of_clear he]

/-- Settles O29: the check of CODE_VALID comes first; what DEC_END does without a table is a clause of O28. -/
theorem streamCommandErrors : Obligations.StreamCommandErrors := by
  unfold Obligations.StreamCommandErrors
  intro s he
  obtain ⟨hend, -, -⟩ := decEndChecksLeftover s he
  exact ⟨fun hv => ⟨exec_encSym_of_no_table he hv, exec_decBit_of_no_table he hv, hend hv⟩,
    fun hv => ⟨fun _ hc => exec_encSym_of_no_code he hv hc, fun _ _ hp hfull => exec_encSym_of_no_room he hv hp hfull,
      fun hfull _ => exec_decBit_of_full he hv hfull⟩⟩

/-! ### The pending error (R183, R185, R187) -/

theorem recordError_of_clear (he : s.error.code = .none) (k : ErrorCode) (src : ErrorSource) (x : BitVec 16) :
    recordError k src x s = { s with error := { code := k, src := src, info := x, multi := false } } := by
  rw [recordError, ErrorReg.record_of_none he]

theorem recordError_of_pending (he : s.error.code ≠ .none) (k : ErrorCode) (src : ErrorSource) (x : BitVec 16) :
    recordError k src x s = rejectCommand s := by
  rw [recordError, ErrorReg.record_of_pending he, rejectCommand]

/-- Settles O32: the record of one error, with none pending and with one. -/
theorem firstErrorIsKept : Obligations.FirstErrorIsKept := by
  unfold Obligations.FirstErrorIsKept
  exact fun k src x s => ⟨fun he => recordError_of_clear he k src x, fun he => recordError_of_pending he k src x⟩

/-- Only the three control commands pass the gate (R86). -/
theorem passesGate_of_ne (hnop : i ≠ .nop) (hall : i ≠ .clearAll) (herr : i ≠ .clearErr) : passesGate i = false := by
  cases i with
  | nop => exact absurd rfl hnop
  | clearAll => exact absurd rfl hall
  | clearErr => exact absurd rfl herr
  | _ => rfl

/-- Settles O33: no other command passes the gate, which rejects it. -/
theorem pendingErrorGatesCommands : Obligations.PendingErrorGatesCommands := by
  unfold Obligations.PendingErrorGatesCommands
  exact fun _ _ he hnop hall herr => exec_of_pending (passesGate_of_ne hnop hall herr) he

theorem memWrite_of_busy_clear (hb : s.busy = true) (he : s.error.code = .none) (off : Offset) (v : Word) :
    memWrite off v s = { s with error := { code := .busyErr, multi := false, src := .access, info := off } } := by
  rw [memWrite_of_busy hb, recordAccessError, recordError_of_clear he]

/-- Settles O36: the write leaves an error pending, which the command in flight then meets. -/
theorem busyWriteCancelsCommand : Obligations.BusyWriteCancelsCommand := by
  unfold Obligations.BusyWriteCancelsCommand
  intro s off v hb he
  rw [memWrite_of_busy_clear hb he]
  exact ⟨rfl, fun i hnop hall herr => exec_of_pending (passesGate_of_ne hnop hall herr) (nofun), exec_nop _,
    exec_clearErr _, exec_clearAll _⟩

/-! ### The idle block (R197) -/

/-- Settles O56: it is not the engine's turn, and the host has no action left. -/
theorem idleBlockStays : Obligations.IdleBlockStays := by
  unfold Obligations.IdleBlockStays
  intro s hb hhost
  rw [step, engineTurn_of_idle hb, hostTurn, hhost]
  rfl

end Sys2Proof.Machine
end

section
/-! PROOFS. The statements of 70_reset_and_hazards.md: the platform's Reset (R211, R212), that the block never stops (R229),
and that a command in flight completes (R224). -/

namespace Sys2Proof.Machine

open Sys2Proof.Safety

variable {s t : State}

/-! ### The platform's Reset (R211, R212) -/

/-- The platform's Reset leaves the reset state, but for the free LATCH, its draw and the host's side of the run. -/
theorem platformReset_eq_reset (s : State) :
    platformReset s =
      { State.reset with
        latch := Config.freeWord s.draws, draws := s.draws + 1, host := s.host, reads := s.reads, ties := s.ties } := rfl

/-- STATUS does not show LATCH, so it reads as after reset. -/
theorem statusWord_platformReset (s : State) : statusWord (platformReset s) = 0 :=
  show statusWord State.reset = 0 by decide

theorem errorWord_clear : errorWord ErrorReg.clear = 0 := rfl

/-! ### A host action completes (R50, R229) -/

/-- An action inside the interface contract has a meaning in every state. -/
theorem hostStep_completes {a : HostAction} (h : actionOk a = true) (s : State) : ∃ t, hostStep a s = .next t := by
  cases a with
  | read width off => exact ⟨_, if_pos h⟩
  | write width off v => exact ⟨_, if_pos h⟩
  | _ => exact ⟨_, rfl⟩

/-- While a command is in flight a host action ends it by the platform's Reset, or leaves BUSY and the latency alone: no
write is accepted. Whatever it leaves to do beyond the host's program is inside the interface contract. -/
theorem hostStep_of_busy {a : HostAction} (hb : s.busy = true) (h : hostStep a s = .next t) :
    t.busy = false ∨
      t.busy = true ∧ t.delay = s.delay ∧ ∀ b ∈ t.host, b ∈ s.host ∨ actionOk b = true := by
  obtain ⟨off, l, rfl, hl⟩ | ⟨off, v, -, rfl⟩ | ⟨-, rfl⟩ := hostStep_cases h
  · rw [memRead_frame]
    exact .inr ⟨hb, rfl, hl⟩
  · rw [memWrite_of_busy hb]
    exact .inr ⟨hb, rfl, fun _ hmem => .inl hmem⟩
  · exact .inl rfl

end Sys2Proof.Machine

namespace Sys2Proof.Safety

open Sys2Proof.Machine

variable {s : State}

/-- Settles O50: BUSY makes no difference, since it is the host's move and the Reset is its next action. -/
theorem platformReset : Obligations.PlatformReset := by
  unfold Obligations.PlatformReset
  intro s rest hturn hhost
  refine ⟨Machine.platformReset (takeAction rest s), step_of_host hturn hhost, platformReset_eq_reset _, ?_, ?_⟩
  · rw [memRead_status, statusWord_platformReset]
  · rw [memRead_error, platformReset_error, errorWord_clear]

/-! ### A command completes (R86, R229) -/

/-- Under the invariant the queue of a BUILDING tree is ready for the merge step (R113). -/
theorem Inv.exec_treeMerge_completes (h : Inv s) (he : s.error.code = .none) : ∃ t, exec .treeMerge s = .next t := by
  by_cases hb : s.treeState = .building
  · exact ⟨_, by rw [exec_treeMerge he, if_pos hb, mergeStep_of_ready (h.queueReady hb)]⟩
  · exact ⟨_, exec_treeMerge_of_not_building he hb⟩

/-- Under the invariant the merge loop of TREE_BUILD ends, from a queue just seeded too (R116). -/
theorem Inv.exec_treeBuild_completes (h : Inv s) (he : s.error.code = .none) : ∃ t, exec .treeBuild s = .next t := by
  cases hts : s.treeState with
  | built => exact ⟨_, exec_treeBuild_of_built he hts⟩
  | building =>
    obtain ⟨t, hm, -⟩ := h.mergeAll_finishes (by simp [hts])
    exact ⟨t, (treeBuildWith_of_building openTie he hts).trans hm⟩
  | empty =>
    by_cases hp : present s.freq = []
    · exact ⟨_, (exec_treeBuild_of_empty he hts).trans (seedThen_of_absent he hp _)⟩
    · obtain ⟨hseed, hne⟩ := h.seed hts hp
      obtain ⟨t, hm, -⟩ := hseed.mergeAll_finishes hne
      exact ⟨t, (treeBuildWith_of_empty openTie he hts hp).trans hm⟩

/-- Under the invariant the walk from the root of a built tree gives a table (R130). -/
theorem Inv.exec_codegen_completes (h : Inv s) (he : s.error.code = .none) : ∃ t, exec .codegen s = .next t := by
  by_cases hb : s.treeState = .built
  · obtain ⟨tab, hg⟩ := h.exists_generatedTable hb
    exact ⟨_, exec_codegen_of_built he hb hg⟩
  · exact ⟨_, exec_codegen_of_not_built he hb⟩

/-- Every command completes: the gate rejects it, or its rule ends in a check or in its effect. -/
theorem Inv.exec_completes (h : Inv s) (i : Instr) : ∃ t, exec i s = .next t := by
  by_cases hg : passesGate i = false ∧ s.error.code ≠ .none
  · exact ⟨_, exec_of_pending hg.1 hg.2⟩
  have he : passesGate i = false → s.error.code = .none := fun hp => by_contra fun hc => hg ⟨hp, hc⟩
  cases i with
  | nop => exact ⟨_, exec_nop s⟩
  | clearAll => exact ⟨_, exec_clearAll s⟩
  | clearErr => exact ⟨_, exec_clearErr s⟩
  | treeSeed =>
    rw [exec_treeSeed (he rfl), seedThen]
    split_ifs <;> exact ⟨_, rfl⟩
  | treeMerge => exact h.exec_treeMerge_completes (he rfl)
  | treeBuild => exact h.exec_treeBuild_completes (he rfl)
  | codegen => exact h.exec_codegen_completes (he rfl)
  | encSym c =>
    rw [exec_encSym (he rfl)]
    split
    · split
      · exact ⟨_, rfl⟩
      · split <;> exact ⟨_, rfl⟩
    · exact ⟨_, rfl⟩
  | decBit bit =>
    rw [exec_decBit (he rfl), decodeBuffer]
    split
    · split
      · exact ⟨_, rfl⟩
      · split
        · exact ⟨_, rfl⟩
        · split <;> exact ⟨_, rfl⟩
    · exact ⟨_, rfl⟩
  | decEnd =>
    rw [exec_decEnd (he rfl)]
    split_ifs <;> exact ⟨_, rfl⟩

/-- The engine's step completes, on a legal word and on an illegal one, and clears BUSY. -/
theorem Inv.engineTurn_completes (h : Inv s) (hturn : engineTurn s = true) : ∃ t, step s = .next t ∧ t.busy = false := by
  cases hw : decode s.latch with
  | ok i =>
    obtain ⟨u, hu⟩ := h.exec_completes i
    exact ⟨Machine.finishCommand u, by rw [step_of_decode_ok hturn hw, hu, andThen_next], rfl⟩
  | error e => exact ⟨_, step_of_decode_error hturn hw, rfl⟩

/-- Settles O54: the engine's step completes, and so does the host's move unless its access is a bad one. -/
theorem blockNeverStops : Obligations.BlockNeverStops := by
  unfold Obligations.BlockNeverStops
  intro s h
  cases hturn : engineTurn s with
  | true =>
    obtain ⟨t, ht, -⟩ := h.engineTurn_completes hturn
    exact .inl ⟨t, ht⟩
  | false =>
    cases hhost : s.host with
    | nil => exact .inl ⟨s, by rw [step, hturn, hostTurn, hhost]; rfl⟩
    | cons a rest =>
      have hmoves : hostMoves s a := ⟨hturn, by rw [hhost, List.head?_cons]⟩
      cases hok : actionOk a with
      | true =>
        rw [step_of_host hturn hhost]
        exact .inl (hostStep_completes hok _)
      | false => exact .inr ⟨a, hmoves, hok, step_of_not_actionOk hmoves hok⟩

/-! ### A command in flight completes (R21, R224) -/

/-- While the engine waits, a step of the host ends the command by the platform's Reset, or takes one off the latency and
leaves a program inside the interface contract. -/
theorem step_of_waiting (hb : s.busy = true) (hturn : engineTurn s = false) (hok : ∀ a ∈ s.host, actionOk a = true) :
    ∃ t, step s = .next t ∧
      (t.busy = false ∨ t.busy = true ∧ t.delay + 1 = s.delay ∧ ∀ a ∈ t.host, actionOk a = true) := by
  have hwait : ¬ (s.delay = 0 ∨ s.host = []) := fun h => by simp [engineTurn_iff.2 ⟨hb, h⟩] at hturn
  obtain ⟨hdelay, hne⟩ := not_or.1 hwait
  obtain ⟨a, rest, hhost⟩ := List.exists_cons_of_ne_nil hne
  obtain ⟨ha, hrest⟩ := List.forall_mem_cons.1 (hhost ▸ hok)
  obtain ⟨t, ht⟩ := hostStep_completes ha (takeAction rest s)
  refine ⟨t, (step_of_host hturn hhost).trans ht, (hostStep_of_busy (s := takeAction rest s) hb ht).imp_right ?_⟩
  rintro ⟨hbt, hdt, hmem⟩
  rw [takeAction_delay] at hdt
  exact ⟨hbt, by omega, fun b hbm => (hmem b hbm).elim (hrest b) id⟩

/-- A command in flight completes within one step more than its latency, by induction on the latency. -/
theorem Inv.run_completes {n : Nat} (h : Inv s) (hb : s.busy = true) (hdelay : s.delay = n)
    (hok : ∀ a ∈ s.host, actionOk a = true) :
    ∃ (k : Nat) (t : State), k ≤ n + 1 ∧ core.run k s = .next t ∧ t.busy = false := by
  induction n generalizing s with
  | zero =>
    obtain ⟨t, ht, hbt⟩ := h.engineTurn_completes (engineTurn_iff.2 ⟨hb, .inl hdelay⟩)
    exact ⟨1, t, le_rfl, run_of_step ht, hbt⟩
  | succ n ih =>
    cases hturn : engineTurn s with
    | true =>
      obtain ⟨t, ht, hbt⟩ := h.engineTurn_completes hturn
      exact ⟨1, t, by omega, run_of_step ht, hbt⟩
    | false =>
      obtain ⟨u, hu, hbu | ⟨hbu, hdu, hoku⟩⟩ := step_of_waiting hb hturn hok
      · exact ⟨1, u, by omega, run_of_step hu, hbu⟩
      · obtain ⟨k, t, hk, hrun, hbt⟩ := ih (stepKeepsInvariant s u h hu) hbu (by omega) hoku
        exact ⟨k + 1, t, by omega, (run_of_step hu).trans hrun, hbt⟩

/-- Settles O55: the latency left is that of the state. -/
theorem commandsComplete : Obligations.CommandsComplete := by
  unfold Obligations.CommandsComplete
  exact fun _ h hb hok => h.run_completes hb rfl hok

end Sys2Proof.Safety
end
